-- ==== Sys2Proof/Word.lean ====
section
/-! DEFINITION. The two words of SYNCORE: the 64-bit register, operand and response word, and the 80-bit command word
(00_scope.md R8, parameters `DATA_W` and `CMD_W`), with the bit numbering of R17 (bit 0 least significant). -/

namespace Sys2Proof

/-- A register, an operand, a response: 64 bits (R8 `DATA_W`, R25). -/
abbrev Word := BitVec 64

/-- A command word `{OP, IDX, DATA}`: 80 bits (R8 `CMD_W`, R69). -/
abbrev CmdWord := BitVec 80

end Sys2Proof
end

