-- ==== Sys2Proof/Config.lean ====
section
/-! DEFINITION. What an implementation fixes and what the spec leaves free. Every constant here is OPAQUE: it has no body,
so no proof can learn a value of it, and a theorem about the machine holds whatever the hardware's choice is. -/

namespace Sys2Proof.Config

/-- The raw sine of the hardware before the promises S1, S2 of R12 are applied (`Machine.sin64` applies them).
Free: R12 makes `sin64` an uninterpreted argument of the model. Log entry 2. -/
opaque sinRaw : Word → Word

/-- The raw arcsine before the promises A1, A2 of R12 are applied (`Machine.asin64` applies them). Log entry 2. -/
opaque asinRaw : Word → Word

/-- R107: "Hardware may skip the second term when `vd` = 0". Whether it does, for the operands `f t vd vr` of a phase
whose depth is zero. Free: it decides only whether an overflow inside the skipped term can raise NONFIN, and the sign
of a zero phase. Log entry 3. -/
opaque skipsVibrato : Word → Word → Word → Word → Bool

/-- The value of a DigitalSaw slot evaluated with frequency `f ≤ 0` at time `t` (R113: "has no specified result").
Free. Log entry 4. -/
opaque undefinedSaw : Word → Word → Word

/-- The `n`-th noise value the hidden generator delivers, before the range [-1, 1] of R22 is applied
(`Machine.toDraw` applies it). Free. Log entry 5. -/
opaque noise : Nat → Word

/-- The 64 unspecified bits a `SAMPLE` responds with after `DSAW` or `NONFIN` (R143, R144), at the model's `n`-th free
choice. Free. Log entry 6. -/
opaque unspecifiedSample : Nat → Word

/-- Whether a `SAMPLE` that raised `DSAW` also sets `STATUS.NONFIN` (R143: unspecified), at the model's `n`-th free
choice. Free. Log entry 6. -/
opaque unspecifiedNonfin : Nat → Bool

/-- Which port executes next when both hosts have a command outstanding and the agenda prescribes nothing (R62: either
may): `true` is the control port. At the model's `n`-th free choice. Free. Log entry 7. -/
opaque arbiter : Nat → Bool

end Sys2Proof.Config
end

