-- ==== Sys2Proof/Machine/Binary64.lean ====
section
/-! DEFINITION. `NUM_B64`, the arithmetic of the hardware (00_scope.md R11 to R14): IEEE 754 binary64 on 64-bit
patterns, rounded to nearest, ties to even, and the two parameters `sin64`, `asin64` with the promises of R12.

Every finite binary64 value is a whole multiple of 2^-1074, so a finite pattern is read as an integer number of those
units (`scaled`), each operation is computed exactly on integers, and ONE function (`roundMag`) narrows the exact result
back to a pattern. -/

namespace Sys2Proof.Machine

/-! ### Patterns (R11) -/

/-- The biased exponent `d[62:52]`. -/
def expField (d : Word) : BitVec 11 := d.extractLsb' 52 11

/-- The fraction `d[51:0]`. -/
def fracField (d : Word) : BitVec 52 := d.extractLsb' 0 52

/-- The sign `d[63]`. -/
def signBit (d : Word) : Bool := d.msb

/-- A number of the block: exponent not 0x7FF (R11, R80). -/
def isFinite (d : Word) : Bool := expField d != 0x7FF#11

/-- An infinity pattern: exponent 0x7FF and fraction 0. -/
def isInf (d : Word) : Bool := expField d == 0x7FF#11 && fracField d == 0#52

/-- A NaN pattern: exponent 0x7FF and fraction not 0. -/
def isNaN (d : Word) : Bool := expField d == 0x7FF#11 && fracField d != 0#52

/-- The pattern without its sign, as a number: exponent and fraction side by side. -/
def magBits (d : Word) : Nat := d.toNat % 2 ^ 63

/-- The magnitude pattern of infinity, 0x7FF0000000000000: the first one that is not finite. -/
def infMag : Nat := 0x7FF0000000000000

/-- The magnitude a magnitude pattern `p` stands for, in units of 2^-1074 (R11: subnormal for exponent 0, else with the
leading 1). Applied to `infMag` it gives 2^1024 in those units, above every finite magnitude. -/
def unitsOf (p : Nat) : Nat :=
  if p / 2 ^ 52 = 0 then p else (2 ^ 52 + p % 2 ^ 52) * 2 ^ (p / 2 ^ 52 - 1)

/-- The magnitude of a pattern in units of 2^-1074. -/
def magUnits (d : Word) : Nat := unitsOf (magBits d)

/-- The value of a finite pattern in units of 2^-1074. Both zeros give 0. -/
def scaled (d : Word) : Int := if signBit d then -(magUnits d : Int) else (magUnits d : Int)

/-- The exact value of a finite pattern (R10, R11). -/
def toRat (d : Word) : Rat := (scaled d : Rat) / 2 ^ 1074

/-- A pattern from its sign and magnitude pattern. -/
def pack (neg : Bool) (p : Nat) : Word := BitVec.ofNat 64 (if neg then 2 ^ 63 + p else p)

/-- A NaN. Which NaN an operation gives is not observable: NONFIN makes the response unspecified (R144). -/
def nan64 : Word := 0x7FF8000000000000#64

/-- An infinity with the given sign. -/
def inf64 (neg : Bool) : Word := pack neg infMag

/-! ### Rounding (R11: to nearest, ties to even) -/

/-- The number `q` of half-open steps of the grid is `n` with remainder `r` of a step of `d`: nearest, ties to even. -/
def roundStep (n r d : Nat) : Nat :=
  if 2 * r < d then n else if d < 2 * r then n + 1 else n + n % 2

/-- How many binary places above 2^-1074 the last place of a magnitude of `q` whole units stands. -/
def gridShift (q : Nat) : Nat := if q < 2 ^ 53 then 0 else Nat.log2 q - 52

/-- The magnitude pattern nearest to `num / den` units of 2^-1074, ties to even; `infMag` from the overflow threshold
on. With `s` the place of the last bit and `n` the rounded significand the pattern is `s * 2^52 + n`: for `s = 0` that is
a subnormal or the lowest normals, and a significand that rounds up to 2^53 carries into the exponent by itself. -/
def roundMag (num den : Nat) : Nat :=
  let s := gridShift (num / den)
  let step := den * 2 ^ s
  min infMag (s * 2 ^ 52 + roundStep (num / step) (num % step) step)

/-- The rounded result with its sign. -/
def roundTo (neg : Bool) (num den : Nat) : Word := pack neg (roundMag num den)

/-- What "rounded to nearest, ties to even" means of a pattern `d` for an exact value `q` (R11): no finite pattern's
value is nearer to `q`, and where another value is equally near, the last fraction bit of `d` is 0. -/
def IsNearestEven (q : Rat) (d : Word) : Prop :=
  (∀ v : Word, isFinite v = true → |toRat d - q| ≤ |toRat v - q|) ∧
    (∀ v : Word, isFinite v = true → toRat v ≠ toRat d → |toRat d - q| = |toRat v - q| → d.getLsbD 0 = false)

/-! ### The operations of the record (R9, R11) -/

/-- The opposite sign. -/
def neg64 (d : Word) : Word := d ^^^ 0x8000000000000000#64

/-- IEEE 754 addition. A zero sum is `-0` only for two negative zeros. -/
def add64 (x y : Word) : Word :=
  if isNaN x || isNaN y then nan64
  else if isInf x then (if isInf y && signBit x != signBit y then nan64 else x)
  else if isInf y then y
  else if scaled x + scaled y = 0 then pack (signBit x && signBit y) 0
  else roundTo (decide (scaled x + scaled y < 0)) (scaled x + scaled y).natAbs 1

/-- IEEE 754 subtraction: the sum with the opposite. -/
def sub64 (x y : Word) : Word := add64 x (neg64 y)

/-- IEEE 754 multiplication. -/
def mul64 (x y : Word) : Word :=
  if isNaN x || isNaN y then nan64
  else if isInf x || isInf y then
    (if magUnits x = 0 || magUnits y = 0 then nan64 else inf64 (signBit x != signBit y))
  else roundTo (signBit x != signBit y) (magUnits x * magUnits y) (2 ^ 1074)

/-- IEEE 754 division. -/
def div64 (x y : Word) : Word :=
  if isNaN x || isNaN y then nan64
  else if isInf x then (if isInf y then nan64 else inf64 (signBit x != signBit y))
  else if isInf y then pack (signBit x != signBit y) 0
  else if magUnits y = 0 then (if magUnits x = 0 then nan64 else inf64 (signBit x != signBit y))
  else roundTo (signBit x != signBit y) (magUnits x * 2 ^ 1074) (magUnits y)

/-- `fmod(x, p)`: the truncated remainder with the sign of `x` (R9, G5). It is exact (R11): the remainder of the two
unit counts is itself a representable count, so the rounding changes nothing. -/
def fmod64 (x p : Word) : Word :=
  if isNaN x || isNaN p || isInf x || magUnits p = 0 then nan64
  else if isInf p then x
  else roundTo (signBit x) (magUnits x % magUnits p) 1

/-- IEEE 754 `<=`: false on a NaN, and `-0 = +0` (R11, R14). -/
def le64 (x y : Word) : Bool := !isNaN x && !isNaN y && decide (scaled x ≤ scaled y)

/-- IEEE 754 `<`. -/
def lt64 (x y : Word) : Bool := !isNaN x && !isNaN y && decide (scaled x < scaled y)

/-- The whole number `n` (R9 `ofNat`: the series index 1 to 9, exact). -/
def ofNat64 (n : Nat) : Word := roundTo false (n * 2 ^ 1074) 1

/-! ### Constants (R11, R13) -/

def zero64 : Word := 0x0000000000000000#64
def one64 : Word := 0x3FF0000000000000#64
def two64 : Word := 0x4000000000000000#64
def pi64 : Word := 0x400921FB54442D18#64
/-- The envelope floor, the binary64 nearest 1e-4 (R11, R101). -/
def floor64 : Word := 0x3F1A36E2EB1C432D#64
/-- `-1`, the other end of the range of a draw and of `asin64`'s argument. -/
def negOne64 : Word := 0xBFF0000000000000#64
/-- `PI / TWO` (R13). -/
def halfPi64 : Word := 0x3FF921FB54442D18#64

/-- `-1 <= d <= 1`, by value. -/
def inUnit (d : Word) : Bool := le64 negOne64 d && le64 d one64

/-! ### Sine and arcsine (R12) -/

/-- `sin64`: any function with the promises S1 (finite and in [-1, 1] on finite operands) and S2 (it keeps both zeros).
Nothing else is known of it: S3 bounds its error by `EPS_SIN`, which is open (`Machine.SinWithin`). -/
def sin64 (x : Word) : Word :=
  if isFinite x then
    (if magBits x = 0 then x
     else if isFinite (Config.sinRaw x) && inUnit (Config.sinRaw x) then Config.sinRaw x else zero64)
  else Config.sinRaw x

/-- The fixed points of A2: both zeros and both ends of the range. -/
def asinFixed (y : Word) : Option Word :=
  if magBits y = 0 then some y
  else if y = one64 then some halfPi64
  else if y = negOne64 then some (neg64 halfPi64)
  else none

/-- `|d| <= PI/TWO`, by value. -/
def inHalfPi (d : Word) : Bool := le64 (neg64 halfPi64) d && le64 d halfPi64

/-- `asin64`: any function with the promises A1 (finite and at most `PI/TWO` in magnitude on [-1, 1]), A2 (`asinFixed`)
and A4 (it depends on its operand alone). -/
def asin64 (y : Word) : Word :=
  match asinFixed y with
  | some v => v
  | none =>
    if inUnit y then
      (if isFinite (Config.asinRaw y) && inHalfPi (Config.asinRaw y) then Config.asinRaw y else zero64)
    else Config.asinRaw y

/-! ### Draws (R22) -/

/-- A noise value from 64 raw bits: the bits where they are a number in [-1, 1], else 0. Every sequence of draws R22
allows comes from some raw sequence, and no other. -/
def toDraw (d : Word) : Word := if inUnit d then d else zero64

/-! ### Decimal literals (R88) -/

/-- The binary64 nearest to `(-1)^neg * digits * 10^exp10`, ties to even: how an assembler turns a decimal literal into
`DATA` (30_encoding.md R88). -/
def ofDecimal (neg : Bool) (digits : Nat) (exp10 : Int) : Word :=
  match exp10 with
  | .ofNat k => roundTo neg (digits * 10 ^ k * 2 ^ 1074) 1
  | .negSucc k => roundTo neg (digits * 2 ^ 1074) (10 ^ (k + 1))

end Sys2Proof.Machine
end

