-- ==== Sys2Proof/Syntax.lean ====
section
/-! DEFINITION. The command set `SYNCORE-1` (30_encoding.md R71): the eight commands, the 31 registers they name
(20_memory.md R53) and the two ports they arrive on (00_scope.md R7). -/

namespace Sys2Proof

/-- The control port CP and the render port RP (R7). -/
inductive Port where
  | cp
  | rp
  deriving DecidableEq, Repr

/-- The four oscillator slots (R40). -/
inductive SlotNo where
  | s0
  | s1
  | s2
  | s3
  deriving DecidableEq, Repr

/-- The five registers of a slot, in the order of their numbers (R40, R74). -/
inductive SlotField where
  | ctrl
  | mult
  | weight
  | vdepth
  | vrate
  deriving DecidableEq, Repr

/-- The 31 mapped registers (R53). -/
inductive Reg where
  | envAttack
  | envDecay
  | envSustain
  | envRelease
  | envStart
  | mvol
  | tOn
  | tOff
  | freq
  | flags
  | status
  | slot (n : SlotNo) (k : SlotField)
  deriving DecidableEq, Repr

/-- The two preset voices (R72, R125, R126). -/
inductive Preset where
  | harm
  | perc
  deriving DecidableEq, Repr

/-- The waveform kinds (R75). Codes 6 and 7 select nothing and are no kind (R115). -/
inductive Kind where
  | sine
  | square
  | triangle
  | analogSaw
  | digitalSaw
  | noise
  deriving DecidableEq, Repr

/-- The commands, one constructor per row of the opcode table (R71). Operands are the fields as R69 gives them:
`DATA` whole, `IDX` as the register or preset it names. -/
inductive Instr where
  /-- `NOP` (R145) -/
  | nop
  /-- `NOTE_ON time` (R90) -/
  | noteOn (time : Word)
  /-- `NOTE_OFF time` (R91) -/
  | noteOff (time : Word)
  /-- `SET_FREQ hz` (R137) -/
  | setFreq (hz : Word)
  /-- `SAMPLE time` (R138) -/
  | sample (time : Word)
  /-- `LD_PRESET preset` (R127) -/
  | ldPreset (preset : Preset)
  /-- `WR_CFG reg, value` (R128) -/
  | wrCfg (reg : Reg) (value : Word)
  /-- `RD_REG reg` (R130) -/
  | rdReg (reg : Reg)
  deriving DecidableEq, Repr

end Sys2Proof
end

