-- ==== Sys2Proof/Machine/Legal.lean ====
section
/-! DEFINITION. What a command's operands may be: the waveform kind codes (30_encoding.md R75), the bit field of a
`SLOTn_CTRL` (R76), and the legal `DATA` of a `WR_CFG` per register (42_voice_mixer.md R129). -/

namespace Sys2Proof.Machine

/-- The kind of a 3-bit code (R75); 6 and 7 are reserved (R115). -/
def kindOfCode (c : BitVec 3) : Option Kind :=
  match c.toNat with
  | 0 => some .sine
  | 1 => some .square
  | 2 => some .triangle
  | 3 => some .analogSaw
  | 4 => some .digitalSaw
  | 5 => some .noise
  | _ => none

/-- The 3-bit code of a kind (R75). -/
def codeOfKind : Kind → BitVec 3
  | .sine => 0
  | .square => 1
  | .triangle => 2
  | .analogSaw => 3
  | .digitalSaw => 4
  | .noise => 5

/-- The legal patterns of a `SLOTn_CTRL`: bits 63:4 zero and a kind that is not reserved (R76, R84, R129). -/
def ctrlOk (d : Word) : Bool := d.extractLsb' 4 60 == 0#60 && (kindOfCode (d.extractLsb' 0 3)).isSome

/-- A duration or a multiplier: finite and `ZERO <= val(d)` (R129). `-0.0` is one (R128). -/
def nonNegOk (d : Word) : Bool := isFinite d && le64 zero64 d

/-- An amplitude or the master volume: finite, `ZERO <= val(d)` and `val(d) <= ONE` (R129). -/
def unitOk (d : Word) : Bool := isFinite d && le64 zero64 d && le64 d one64

/-- What `WR_CFG` may store in each register (R129). The read-only registers take nothing. -/
def legalData : Reg → Word → Bool
  | .envAttack, d | .envDecay, d | .envRelease, d => nonNegOk d
  | .envSustain, d | .envStart, d | .mvol, d => unitOk d
  | .slot _ .ctrl, d => ctrlOk d
  | .slot _ .mult, d => nonNegOk d
  | .slot _ .weight, d | .slot _ .vdepth, d | .slot _ .vrate, d => isFinite d
  | .tOn, _ | .tOff, _ | .freq, _ | .flags, _ | .status, _ => false

/-- The 26 registers `WR_CFG` may name (R53, R84, R128). -/
def writable : Reg → Bool
  | .envAttack | .envDecay | .envSustain | .envRelease | .envStart | .mvol | .slot _ _ => true
  | .tOn | .tOff | .freq | .flags | .status => false

end Sys2Proof.Machine
end

