-- ==== Sys2Proof/WellFormed.lean ====
section
/-! DEFINITION. Which commands are legal (30_encoding.md R79 conditions 4 and 5, on a command whose word has the right
fields), and which port admits which command (R83). -/

namespace Sys2Proof

/-- The operands are legal: every value operand is finite (R80), `WR_CFG` names a writable register and carries a
value legal for it (R84, R129). The other commands have no operand that can be wrong once it is a register or a preset. -/
def Instr.wellFormed : Instr → Bool
  | .nop => true
  | .noteOn t => Machine.isFinite t
  | .noteOff t => Machine.isFinite t
  | .setFreq hz => Machine.isFinite hz
  | .sample t => Machine.isFinite t
  | .ldPreset _ => true
  | .wrCfg r d => Machine.writable r && Machine.legalData r d
  | .rdReg _ => true

/-- Which port admits the command (R83). -/
def Instr.admittedOn : Instr → Port → Bool
  | .nop, _ => true
  | .sample _, p => p == .rp
  | .noteOn _, p | .noteOff _, p | .setFreq _, p | .ldPreset _, p | .wrCfg _ _, p | .rdReg _, p => p == .cp

/-- A command is legal on a port (R78, R79). -/
abbrev Instr.Legal (i : Instr) (p : Port) : Prop := i.wellFormed = true ∧ i.admittedOn p = true

end Sys2Proof
end

