-- ==== Sys2Proof/Decode.lean ====
section
/-! DEFINITION. Decoding a command word on a port (30_encoding.md R69 to R86), total and strict, and the encoder. -/

namespace Sys2Proof

/-! ### The fields of a word (R69) -/

/-- `OP = cw[79:72]`. -/
def opField (w : CmdWord) : BitVec 8 := w.extractLsb' 72 8
/-- `IDX = cw[71:64]`. -/
def idxField (w : CmdWord) : BitVec 8 := w.extractLsb' 64 8
/-- `DATA = cw[63:0]`. -/
def dataField (w : CmdWord) : Word := w.extractLsb' 0 64

/-- `{OP, IDX, DATA}`. -/
def mkWord (op idx : BitVec 8) (data : Word) : CmdWord := (op ++ idx) ++ data

/-! ### Register numbers (R53, R74, R77) -/

/-- The slot `IDX[7:3]` selects: 2, 3, 4, 5 are slots 0 to 3 (R74). -/
def slotOfHigh (h : Nat) : Option SlotNo :=
  match h with
  | 2 => some .s0
  | 3 => some .s1
  | 4 => some .s2
  | 5 => some .s3
  | _ => none

/-- The slot register `IDX[2:0]` selects: 5, 6, 7 are unmapped (R74). -/
def fieldOfLow (k : Nat) : Option SlotField :=
  match k with
  | 0 => some .ctrl
  | 1 => some .mult
  | 2 => some .weight
  | 3 => some .vdepth
  | 4 => some .vrate
  | _ => none

/-- The registers below 0x10, by number (R53). -/
def lowRegOf (n : Nat) : Option Reg :=
  match n with
  | 0x00 => some .envAttack
  | 0x01 => some .envDecay
  | 0x02 => some .envSustain
  | 0x03 => some .envRelease
  | 0x04 => some .envStart
  | 0x05 => some .mvol
  | 0x08 => some .tOn
  | 0x09 => some .tOff
  | 0x0A => some .freq
  | 0x0B => some .flags
  | 0x0C => some .status
  | _ => none

/-- The register a number names, or none where the number is unmapped (R53, R54). -/
def regOfNumber (i : BitVec 8) : Option Reg :=
  if i.toNat < 0x10 then lowRegOf i.toNat
  else
    match slotOfHigh (i.extractLsb' 3 5).toNat, fieldOfLow (i.extractLsb' 0 3).toNat with
    | some n, some k => some (.slot n k)
    | _, _ => none

/-- The place `n` of a slot in `0x10 + 8n + k` (R40). -/
def slotNumber : SlotNo → BitVec 5
  | .s0 => 2
  | .s1 => 3
  | .s2 => 4
  | .s3 => 5

/-- The place `k` of a slot register in `0x10 + 8n + k` (R40). -/
def fieldNumber : SlotField → BitVec 3
  | .ctrl => 0
  | .mult => 1
  | .weight => 2
  | .vdepth => 3
  | .vrate => 4

/-- The number of a register (R53, R77). -/
def numberOfReg : Reg → BitVec 8
  | .envAttack => 0x00
  | .envDecay => 0x01
  | .envSustain => 0x02
  | .envRelease => 0x03
  | .envStart => 0x04
  | .mvol => 0x05
  | .tOn => 0x08
  | .tOff => 0x09
  | .freq => 0x0A
  | .flags => 0x0B
  | .status => 0x0C
  | .slot n k => slotNumber n ++ fieldNumber k

/-- The preset a number names; 2 to 255 are reserved (R72, R84). -/
def presetOfNumber (i : BitVec 8) : Option Preset :=
  match i.toNat with
  | 0 => some .harm
  | 1 => some .perc
  | _ => none

/-- The number of a preset (R72). -/
def numberOfPreset : Preset → BitVec 8
  | .harm => 0x00
  | .perc => 0x01

/-! ### Opcodes (R71) -/

/-- The eight opcodes (R71). -/
inductive Op where
  | nop
  | noteOn
  | noteOff
  | setFreq
  | sample
  | ldPreset
  | wrCfg
  | rdReg
  deriving DecidableEq, Repr

/-- The command an `OP` field selects; 0x08 to 0xFF are reserved (R71, R81). -/
def opOfCode (c : BitVec 8) : Option Op :=
  match c.toNat with
  | 0x00 => some .nop
  | 0x01 => some .noteOn
  | 0x02 => some .noteOff
  | 0x03 => some .setFreq
  | 0x04 => some .sample
  | 0x05 => some .ldPreset
  | 0x06 => some .wrCfg
  | 0x07 => some .rdReg
  | _ => none

/-- The `OP` code (R71). -/
def codeOfOp : Op → BitVec 8
  | .nop => 0x00
  | .noteOn => 0x01
  | .noteOff => 0x02
  | .setFreq => 0x03
  | .sample => 0x04
  | .ldPreset => 0x05
  | .wrCfg => 0x06
  | .rdReg => 0x07

/-- Which port admits the opcode (R83). -/
def opAdmittedOn : Op → Port → Bool
  | .nop, _ => true
  | .sample, p => p == .rp
  | .noteOn, p | .noteOff, p | .setFreq, p | .ldPreset, p | .wrCfg, p | .rdReg, p => p == .cp

/-- The formats N, T, P, Q require zero fields; W requires none (R69, R82). -/
def zeroFieldsOk : Op → BitVec 8 → Word → Bool
  | .nop, i, d => i == 0#8 && d == 0#64
  | .noteOn, i, _ | .noteOff, i, _ | .setFreq, i, _ | .sample, i, _ => i == 0#8
  | .ldPreset, _, d | .rdReg, _, d => d == 0#64
  | .wrCfg, _, _ => true

/-! ### Decoding (R78, R79) -/

/-- Why a word is illegal: the first failing check of R79. All have the same effect (R85), so which one it was is not
observable. -/
inductive Illegal where
  /-- `OP` 0x08 to 0xFF (R81) -/
  | reservedOp
  /-- the port does not admit the command (R83) -/
  | wrongPort
  /-- a field the format says must be zero is not (R82) -/
  | mustBeZero
  /-- reserved preset, unmapped or read-only register (R84) -/
  | badIndex
  /-- non-finite operand, or a value not legal for the register (R80, R84) -/
  | badData
  deriving DecidableEq, Repr

/-- A command with one value operand: the operand must be finite (R80). -/
def valueCommand (mk : Word → Instr) (d : Word) : Except Illegal Instr :=
  if Machine.isFinite d then .ok (mk d) else .error .badData

/-- `WR_CFG`: the register must be mapped and writable, the value legal for it (R84, R129). -/
def decodeWrCfg (i : BitVec 8) (d : Word) : Except Illegal Instr :=
  match regOfNumber i with
  | none => .error .badIndex
  | some r =>
    if Machine.writable r then
      (if Machine.legalData r d then .ok (.wrCfg r d) else .error .badData)
    else .error .badIndex

/-- Checks 4 and 5 of R79, once the opcode, the port and the zero fields are right. -/
def decodeOperands : Op → BitVec 8 → Word → Except Illegal Instr
  | .nop, _, _ => .ok .nop
  | .noteOn, _, d => valueCommand .noteOn d
  | .noteOff, _, d => valueCommand .noteOff d
  | .setFreq, _, d => valueCommand .setFreq d
  | .sample, _, d => valueCommand .sample d
  | .ldPreset, i, _ =>
    match presetOfNumber i with
    | some p => .ok (.ldPreset p)
    | none => .error .badIndex
  | .wrCfg, i, d => decodeWrCfg i d
  | .rdReg, i, _ =>
    match regOfNumber i with
    | some r => .ok (.rdReg r)
    | none => .error .badIndex

/-- Decoding a word that arrived on a port, in the order of R79. Total: every word is a command or illegal (R78). -/
def decode (p : Port) (w : CmdWord) : Except Illegal Instr :=
  match opOfCode (opField w) with
  | none => .error .reservedOp
  | some op =>
    if opAdmittedOn op p then
      (if zeroFieldsOk op (idxField w) (dataField w) then decodeOperands op (idxField w) (dataField w)
       else .error .mustBeZero)
    else .error .wrongPort

/-! ### Encoding (R69 to R73) -/

/-- The word of a command (R71). -/
def encode : Instr → CmdWord
  | .nop => mkWord 0x00 0 0
  | .noteOn t => mkWord 0x01 0 t
  | .noteOff t => mkWord 0x02 0 t
  | .setFreq hz => mkWord 0x03 0 hz
  | .sample t => mkWord 0x04 0 t
  | .ldPreset p => mkWord 0x05 (numberOfPreset p) 0
  | .wrCfg r d => mkWord 0x06 (numberOfReg r) d
  | .rdReg r => mkWord 0x07 (numberOfReg r) 0

/-- The port a command is sent on where nothing else says so: RP for `SAMPLE`, CP for everything else (R87). -/
def defaultPort : Instr → Port
  | .sample _ => .rp
  | .nop | .noteOn _ | .noteOff _ | .setFreq _ | .ldPreset _ | .wrCfg _ _ | .rdReg _ => .cp

/-! ### The host's view of the opcode table -/

/-- The 80-bit word of an instruction whose first `nbits` bits are those of `w`, the rest zero. -/
def tableWord (nbits w : Nat) : CmdWord := BitVec.ofNat 80 (w % 2 ^ nbits)

/-- The port on which a table row is sent: RP for opcode 0x04, CP for every other (R83; `NOP` is admitted on both). -/
def tablePort (c : CmdWord) : Port := if opField c = 0x04#8 then .rp else .cp

/-- The instruction the decoder reads from a word numbered as spec/opcode_table.json numbers it. -/
def decodeTableWord (nbits w : Nat) : Option Instr :=
  match decode (tablePort (tableWord nbits w)) (tableWord nbits w) with
  | .ok i => some i
  | .error _ => none

end Sys2Proof
end

