-- ==== Sys2Proof/Machine/Arith.lean ====
section
/-! DEFINITION. The arithmetic record of 00_scope.md R9, its hardware instantiation `NUM_B64` (R11), the constants
derived from it (R13), and the pseudocode primitives over it (R19 to R21). Every formula of the block is written once
over this record. -/

namespace Sys2Proof.Machine

/-- The record `Arith` of R9 over a carrier `V`. The last three fields are not operations of R9: they say which values
are finite (R144), and carry the two points where R107 and R113 leave the hardware free. -/
structure Arith (V : Type) where
  /-- `ofData`: the meaning of a 64-bit operand; none where it is no number of the block -/
  ofData : Word → Option V
  add : V → V → V
  sub : V → V → V
  mul : V → V → V
  div : V → V → V
  le : V → V → Bool
  lt : V → V → Bool
  sin : V → V
  asin : V → V
  /-- the truncated remainder, with the sign of its first operand -/
  fmod : V → V → V
  ofNat : Nat → V
  zero : V
  one : V
  two : V
  pi : V
  floor : V
  /-- not an infinity or a NaN (R144) -/
  finite : V → Bool
  /-- whether the vibrato term of `Phase f t vd vr` is skipped when `vd` is 0 (R107) -/
  skipsVibrato : V → V → V → V → Bool
  /-- DigitalSaw at `f <= 0` (R113) -/
  undefinedSaw : V → V → V

/-- The hardware's arithmetic (R11, R12). -/
def numB64 : Arith Word where
  ofData d := if isFinite d then some d else none
  add := add64
  sub := sub64
  mul := mul64
  div := div64
  le := le64
  lt := lt64
  sin := sin64
  asin := asin64
  fmod := fmod64
  ofNat := ofNat64
  zero := zero64
  one := one64
  two := two64
  pi := pi64
  floor := floor64
  finite := isFinite
  skipsVibrato := Config.skipsVibrato
  undefinedSaw := Config.undefinedSaw

variable {V : Type} (ar : Arith V)

/-- `val(d)`: `ofData d` unwrapped (R18), used where R80 has refused `none`. -/
def Arith.val (d : Word) : V := (ar.ofData d).getD ar.zero

/-- Equality of values, so that `-0 = +0` (R14): `x <= y` and `y <= x`. -/
def Arith.eq (x y : V) : Bool := ar.le x y && ar.le y x

/-- `TWO_PI = TWO * PI` (R13). -/
def Arith.twoPi : V := ar.mul ar.two ar.pi

/-- `TWO_OVER_PI = TWO / PI` (R13). -/
def Arith.twoOverPi : V := ar.div ar.two ar.pi

/-- `HALF_PI = PI / TWO` (R13). -/
def Arith.halfPi : V := ar.div ar.pi ar.two

/-- `-ONE`, which is `ZERO - ONE` (R20). -/
def Arith.negOne : V := ar.sub ar.zero ar.one

/-- `Clamp(v)` (R20, R140). -/
def Arith.clamp (v : V) : V :=
  if ar.lt v ar.negOne then ar.negOne else if ar.lt ar.one v then ar.one else v

/-- A computation of the block: its result, and every value computed on the way, which R144 asks to be finite. -/
structure Calc (V : Type) where
  val : V
  seen : List V

/-- `Ramp(x, dur, a, b) = ((x / dur) * (b - a)) + a` (R19). -/
def Arith.ramp (x dur a b : V) : Calc V :=
  let q := ar.div x dur
  let h := ar.sub b a
  let p := ar.mul q h
  let v := ar.add p a
  { val := v, seen := [q, h, p, v] }

end Sys2Proof.Machine
end

