-- ==== Sys2Proof/Machine/State.lean ====
section
/-! DEFINITION. The state of SYNCORE (10_state.md): the 31 registers, and beside them, as the model's own fields, the two
hosts' command lists, the interleaving, the responses, the draws and two counters (70_reset_and_hazards.md R184).
`Regs` is generic in the carrier `V` of the values, since R9 gives every rule two instantiations; the hardware's is
`Word` (R11), the reference's is the reals (R10). -/

namespace Sys2Proof.Machine

/-- The five registers of an oscillator slot (R40 to R45). `ctrl` is a bit field: bits 2:0 `KIND`, bit 3 `EN` (R41). -/
structure SlotRegs (V : Type) where
  ctrl : Word
  mult : V
  weight : V
  vdepth : V
  vrate : V
  deriving DecidableEq, Repr

/-- The 31 registers (R25): 25 value registers, and the six bit fields `FLAGS` (R38), `STATUS` (R39) and `SLOTn_CTRL`
(R41), which are kept as the 64 bits they read as (R26). -/
structure Regs (V : Type) where
  /-- `ENV_ATTACK` 0x00 (R27) -/
  envAttack : V
  /-- `ENV_DECAY` 0x01 (R28) -/
  envDecay : V
  /-- `ENV_SUSTAIN` 0x02 (R29) -/
  envSustain : V
  /-- `ENV_RELEASE` 0x03 (R30) -/
  envRelease : V
  /-- `ENV_START` 0x04 (R31) -/
  envStart : V
  /-- `MVOL` 0x05 (R32) -/
  mvol : V
  /-- `T_ON` 0x08 (R33) -/
  tOn : V
  /-- `T_OFF` 0x09 (R34) -/
  tOff : V
  /-- `FREQ` 0x0A (R35) -/
  freq : V
  /-- `FLAGS` 0x0B: bit 0 `HELD`, bit 1 `TRIG` (R36 to R38) -/
  flags : Word
  /-- `STATUS` 0x0C: bit 0 `ILL`, bit 1 `DSAW`, bit 2 `NONFIN` (R39) -/
  status : Word
  slot0 : SlotRegs V
  slot1 : SlotRegs V
  slot2 : SlotRegs V
  slot3 : SlotRegs V
  deriving DecidableEq, Repr

/-- One turn of a run: a port whose next command executes (R62), or a reset by the environment (R167) at which the next
`lostC` commands of CP and `lostR` of RP had been issued and not executed, and are lost (R169). -/
inductive Turn where
  | port (p : Port)
  | reset (lostC lostR : Nat)
  deriving DecidableEq, Repr

/-- The machine and the run it is in. `regs` is the block's whole architectural state (R25); every other field is the
model's own. -/
structure State where
  /-- the 31 registers (R25) -/
  regs : Regs Word
  /-- commands host C has still to have executed, the next first (R48, R61, R184) -/
  cpQueue : List CmdWord
  /-- commands host R has still to have executed (R48, R61, R184) -/
  rpQueue : List CmdWord
  /-- the turns the run prescribes, the next first (R62, R167, R184) -/
  agenda : List Turn
  /-- responses returned on CP, the oldest first (R70, R184) -/
  cpResp : List Word
  /-- responses returned on RP (R70, R184) -/
  rpResp : List Word
  /-- the draws the run prescribes, the next first (R22, R184) -/
  draws : List Word
  /-- draws taken so far: the index of the next free draw once `draws` is used up (R134) -/
  drawCount : Nat
  /-- other free choices taken so far -/
  freeCount : Nat
  deriving DecidableEq, Repr

/-- Why a step could stop. SYNCORE has no such case: "No command and no fault stops the block" (R150, R184, and
93_implementation_defined.md part 1), so the type has no constructor; the spec's faults are bits of `STATUS`. -/
inductive Fault where
  deriving DecidableEq, Repr

/-- Why a step could be refused. -/
inductive Refusal where
  /-- Raised only by an arm of `exec` whose instruction has no meaning yet; no arm is such. Safe: the machine stops. -/
  | notModelled (mnemonic : String)
  deriving DecidableEq, Repr

/-- The registers after reset, the table of R51. -/
def Regs.reset : Regs Word where
  envAttack := 0x3FA999999999999A#64
  envDecay := 0x3F847AE147AE147B#64
  envSustain := 0x3FE999999999999A#64
  envRelease := 0x3FC999999999999A#64
  envStart := 0x3FF0000000000000#64
  mvol := 0x3FD999999999999A#64
  tOn := 0x0000000000000000#64
  tOff := 0x0000000000000000#64
  freq := 0x0000000000000000#64
  flags := 0x0000000000000000#64
  status := 0x0000000000000000#64
  slot0 :=
    { ctrl := 0x0000000000000008#64
      mult := 0x3FF0000000000000#64
      weight := 0x3FF0000000000000#64
      vdepth := 0x3F50624DD2F1A9FC#64
      vrate := 0x4014000000000000#64 }
  slot1 :=
    { ctrl := 0x0000000000000009#64
      mult := 0x3FF8000000000000#64
      weight := 0x3FE0000000000000#64
      vdepth := 0x0000000000000000#64
      vrate := 0x0000000000000000#64 }
  slot2 :=
    { ctrl := 0x0000000000000008#64
      mult := 0x4000000000000000#64
      weight := 0x3FD0000000000000#64
      vdepth := 0x0000000000000000#64
      vrate := 0x0000000000000000#64 }
  slot3 :=
    { ctrl := 0x000000000000000D#64
      mult := 0x0000000000000000#64
      weight := 0x3FA999999999999A#64
      vdepth := 0x0000000000000000#64
      vrate := 0x0000000000000000#64 }

/-- The machine right after reset (R51, R168), with a run that has issued nothing yet (log entries 5 to 8). -/
def State.reset : State where
  regs := Regs.reset
  cpQueue := []
  rpQueue := []
  agenda := []
  cpResp := []
  rpResp := []
  draws := []
  drawCount := 0
  freeCount := 0

end Sys2Proof.Machine
end

