-- ==== Sys2Proof/Machine/Flags.lean ====
section
/-! DEFINITION. The fields of the bit-field registers: `FLAGS` (10_state.md R36 to R38), `STATUS` (R39) and `SLOTn_CTRL`
(R41), and raising a fault (60_exceptions.md R150). -/

namespace Sys2Proof.Machine

/-! ### FLAGS -/

/-- `FLAGS.HELD`, bit 0 (R36). -/
def held {V : Type} (r : Regs V) : Bool := r.flags.getLsbD 0

/-- `FLAGS.TRIG`, bit 1 (R37). -/
def trig {V : Type} (r : Regs V) : Bool := r.flags.getLsbD 1

/-- `FLAGS.HELD <- 1; FLAGS.TRIG <- 1` (R90). -/
def flagsNoteOn (f : Word) : Word := f ||| 0x3#64

/-- `FLAGS.HELD <- 0`, `TRIG` unchanged (R91). -/
def flagsNoteOff (f : Word) : Word := f &&& ~~~0x1#64

/-- `FLAGS.HELD <- 0; FLAGS.TRIG <- 0` (R127). -/
def flagsClear (f : Word) : Word := f &&& ~~~0x3#64

/-! ### STATUS -/

/-- The three faults and nothing else (R150). -/
inductive FaultBit where
  /-- an illegal command (R151) -/
  | ill
  /-- a DigitalSaw slot evaluated with a frequency not greater than 0 (R152) -/
  | dsaw
  /-- a non-finite intermediate of a `SAMPLE` (R153) -/
  | nonfin
  deriving DecidableEq, Repr

/-- The position of a fault in `STATUS`, its code (R39, R150). -/
def faultCode : FaultBit → Nat
  | .ill => 0
  | .dsaw => 1
  | .nonfin => 2

/-- The mask of a fault in `STATUS`. -/
def faultMask : FaultBit → Word
  | .ill => 0x1#64
  | .dsaw => 0x2#64
  | .nonfin => 0x4#64

/-- The sticky bit of a fault (R39). -/
def faultBit {V : Type} (r : Regs V) (f : FaultBit) : Bool := r.status.getLsbD (faultCode f)

/-- `raise F`: the sticky bit becomes 1, nothing else changes (R150). This is the whole of taking an exception on
SYNCORE: nothing is saved, no mode changes, no control is transferred, and there is no return (R149, R157, R158). -/
def Regs.raise {V : Type} (f : FaultBit) (r : Regs V) : Regs V := { r with status := r.status ||| faultMask f }

/-- `raise F` if the condition holds. -/
def Regs.raiseIf {V : Type} (c : Bool) (f : FaultBit) (r : Regs V) : Regs V := if c then r.raise f else r

/-! ### SLOTn_CTRL -/

/-- `SLOTn_CTRL.EN`, bit 3 (R41). -/
def SlotRegs.en {V : Type} (sl : SlotRegs V) : Bool := sl.ctrl.getLsbD 3

/-- `SLOTn_CTRL.KIND`, bits 2:0 (R41, R75); none for the reserved codes, which no reachable state holds (R115). -/
def SlotRegs.kind {V : Type} (sl : SlotRegs V) : Option Kind := kindOfCode (sl.ctrl.extractLsb' 0 3)

/-- `d[3:0]` as the register stores it, every other bit zero (R41, R56). -/
def ctrlStored (d : Word) : Word := (d.extractLsb' 0 4).setWidth 64

end Sys2Proof.Machine
end

