-- ==== Sys2Proof/Machine/Operands.lean ====
section
/-! DEFINITION. The two accesses of the register space, `RegRead` and `RegWrite` (20_memory.md R55, R56; 00_scope.md R18),
by register, and the mapping of one carrier's registers to another's. There are no other operand forms: the one
addressing mode is direct (42_voice_mixer.md R128). -/

namespace Sys2Proof.Machine

/-- What a register holds: a value of the carrier, or a bit field of 64 bits (R26). -/
inductive RegVal (V : Type) where
  | value (v : V)
  | bits (w : Word)
  deriving DecidableEq, Repr

/-- The slot a slot number names. -/
def Regs.slot {V : Type} (r : Regs V) : SlotNo → SlotRegs V
  | .s0 => r.slot0
  | .s1 => r.slot1
  | .s2 => r.slot2
  | .s3 => r.slot3

/-- Replace a slot. -/
def Regs.setSlot {V : Type} (r : Regs V) (n : SlotNo) (sl : SlotRegs V) : Regs V :=
  match n with
  | .s0 => { r with slot0 := sl }
  | .s1 => { r with slot1 := sl }
  | .s2 => { r with slot2 := sl }
  | .s3 => { r with slot3 := sl }

/-- One register of a slot. -/
def SlotRegs.read {V : Type} (sl : SlotRegs V) : SlotField → RegVal V
  | .ctrl => .bits sl.ctrl
  | .mult => .value sl.mult
  | .weight => .value sl.weight
  | .vdepth => .value sl.vdepth
  | .vrate => .value sl.vrate

/-- `RegRead(i)` (R55): the value of a value register, the 64 bits of a bit field. It has no side effect. -/
def Regs.read {V : Type} (r : Regs V) : Reg → RegVal V
  | .envAttack => .value r.envAttack
  | .envDecay => .value r.envDecay
  | .envSustain => .value r.envSustain
  | .envRelease => .value r.envRelease
  | .envStart => .value r.envStart
  | .mvol => .value r.mvol
  | .tOn => .value r.tOn
  | .tOff => .value r.tOff
  | .freq => .value r.freq
  | .flags => .bits r.flags
  | .status => .bits r.status
  | .slot n k => (r.slot n).read k

/-- The 64 bits a register reads as under `NUM_B64`, where a value is its pattern (R55). -/
def RegVal.word : RegVal Word → Word
  | .value v => v
  | .bits w => w

/-- `RegRead(i)` under `NUM_B64` (R55). -/
def regRead (r : Regs Word) (i : Reg) : Word := (r.read i).word

/-- Write one register of a slot: `SLOTn_CTRL` takes `d[3:0]`, a value register the value of `d` (R56). -/
def SlotRegs.write {V : Type} (ofPattern : Word → V) (sl : SlotRegs V) (k : SlotField) (d : Word) : SlotRegs V :=
  match k with
  | .ctrl => { sl with ctrl := ctrlStored d }
  | .mult => { sl with mult := ofPattern d }
  | .weight => { sl with weight := ofPattern d }
  | .vdepth => { sl with vdepth := ofPattern d }
  | .vrate => { sl with vrate := ofPattern d }

/-- `RegWrite(i, d)` (R56), for the registers `WR_CFG` may write; the others keep what they hold. `ofPattern` is
`val(d)` of the record (R18). -/
def Regs.write {V : Type} (ofPattern : Word → V) (r : Regs V) (i : Reg) (d : Word) : Regs V :=
  match i with
  | .envAttack => { r with envAttack := ofPattern d }
  | .envDecay => { r with envDecay := ofPattern d }
  | .envSustain => { r with envSustain := ofPattern d }
  | .envRelease => { r with envRelease := ofPattern d }
  | .envStart => { r with envStart := ofPattern d }
  | .mvol => { r with mvol := ofPattern d }
  | .slot n k => r.setSlot n ((r.slot n).write ofPattern k d)
  | .tOn | .tOff | .freq | .flags | .status => r

/-- The slots with every value mapped. -/
def SlotRegs.map {V W : Type} (f : V → W) (sl : SlotRegs V) : SlotRegs W where
  ctrl := sl.ctrl
  mult := f sl.mult
  weight := f sl.weight
  vdepth := f sl.vdepth
  vrate := f sl.vrate

/-- The registers with every value mapped, the bit fields kept. -/
def Regs.map {V W : Type} (f : V → W) (r : Regs V) : Regs W where
  envAttack := f r.envAttack
  envDecay := f r.envDecay
  envSustain := f r.envSustain
  envRelease := f r.envRelease
  envStart := f r.envStart
  mvol := f r.mvol
  tOn := f r.tOn
  tOff := f r.tOff
  freq := f r.freq
  flags := r.flags
  status := r.status
  slot0 := r.slot0.map f
  slot1 := r.slot1.map f
  slot2 := r.slot2.map f
  slot3 := r.slot3.map f

end Sys2Proof.Machine
end

