-- ==== Sys2Proof/Machine/Ops.lean ====
section
/-! DEFINITION. The operations the meanings share: answering on a port (30_encoding.md R70), an illegal command (R85),
the draws (00_scope.md R22) and the hosts' queues (20_memory.md R61). -/

namespace Sys2Proof.Machine

/-- The commands outstanding on a port. -/
def State.queue (s : State) : Port → List CmdWord
  | .cp => s.cpQueue
  | .rp => s.rpQueue

/-- Replace the commands outstanding on a port. -/
def State.setQueue (s : State) (p : Port) (q : List CmdWord) : State :=
  match p with
  | .cp => { s with cpQueue := q }
  | .rp => { s with rpQueue := q }

/-- The responses returned on a port. -/
def State.responses (s : State) : Port → List Word
  | .cp => s.cpResp
  | .rp => s.rpResp

/-- `respond v` on a port (R18, R70). -/
def State.respond (s : State) (p : Port) (v : Word) : State :=
  match p with
  | .cp => { s with cpResp := s.cpResp ++ [v] }
  | .rp => { s with rpResp := s.rpResp ++ [v] }

/-- `raise F` (R150): taking the fault is setting its bit, and nothing else. -/
def State.raise (s : State) (f : FaultBit) : State := { s with regs := s.regs.raise f }

/-- An illegal command that has no response: `STATUS.ILL <- 1` and nothing else (R85, R151). -/
def State.illegal (s : State) : State := s.raise .ill

/-- An illegal `SAMPLE` or `RD_REG`: as any illegal command, and it answers 0 on the port it came in on (R70, R85). -/
def State.illegalAnswered (s : State) (p : Port) : State := s.illegal.respond p 0#64

/-- The next draw but `k`: the run's own where it prescribes one, else a free value (R22, R184). -/
def State.drawAt (s : State) (k : Nat) : Word :=
  toDraw (s.draws.getD k (Config.noise (s.drawCount + k)))

/-- Take `k` draws (R134). -/
def State.takeDraws (s : State) (k : Nat) : State :=
  { s with draws := s.draws.drop k, drawCount := s.drawCount + k }

end Sys2Proof.Machine
end

