-- ==== Sys2Proof/Machine/Envelope.lean ====
section
/-! DEFINITION. The envelope generator (40_envelope.md): the function `EnvAmp` (R92 to R101) and the commands `NOTE_ON`
(R90) and `NOTE_OFF` (R91). -/

namespace Sys2Proof.Machine

variable {V : Type} (ar : Arith V)

/-- The attack phase, `life <= A` (R95); with `A = 0` there is no division (R96). -/
def Arith.attack (r : Regs V) (life : V) : Calc V :=
  if ar.eq r.envAttack ar.zero then
    { val := if ar.lt life ar.zero then ar.zero else r.envStart, seen := [] }
  else ar.ramp life r.envAttack ar.zero r.envStart

/-- The decay phase, `A < life <= A + D` (R97). -/
def Arith.decay (r : Regs V) (life : V) : Calc V :=
  let x := ar.sub life r.envAttack
  let c := ar.ramp x r.envDecay r.envStart r.envSustain
  { val := c.val, seen := x :: c.seen }

/-- The phases while the note is held: attack, decay, sustain (R95 to R98). -/
def Arith.heldAmp (r : Regs V) (life : V) : Calc V :=
  if ar.le life r.envAttack then ar.attack r life
  else
    let top := ar.add r.envAttack r.envDecay
    let c := if ar.le life top then ar.decay r life else { val := r.envSustain, seen := [] }
    { val := c.val, seen := top :: c.seen }

/-- The release (R100); with `R = 0` there is no division (R99). -/
def Arith.releasedAmp (r : Regs V) (t : V) : Calc V :=
  if ar.eq r.envRelease ar.zero then
    { val := if ar.lt t r.tOff then r.envSustain else ar.zero, seen := [] }
  else
    let x := ar.sub t r.tOff
    let c := ar.ramp x r.envRelease r.envSustain ar.zero
    { val := c.val, seen := x :: c.seen }

/-- The snap floor (R101): `if amp <= FLOOR then amp = ZERO`. -/
def Arith.snap (amp : V) : V := if ar.le amp ar.floor then ar.zero else amp

/-- `EnvAmp(t)` (R92). `life` is computed whenever `TRIG` is 1 and used only when `HELD` is 1 (R94). -/
def Arith.envAmp (r : Regs V) (t : V) : Calc V :=
  if trig r then
    let life := ar.sub t r.tOn
    let c := if held r then ar.heldAmp r life else ar.releasedAmp r t
    { val := ar.snap c.val, seen := life :: c.seen }
  else { val := ar.zero, seen := [] }

/-- What `NOTE_ON` writes (R90): `T_ON`, `HELD`, `TRIG`, together. -/
def Regs.noteOn (r : Regs V) (t : V) : Regs V := { r with tOn := t, flags := flagsNoteOn r.flags }

/-- What `NOTE_OFF` writes (R91): `T_OFF` and `HELD`. -/
def Regs.noteOff (r : Regs V) (t : V) : Regs V := { r with tOff := t, flags := flagsNoteOff r.flags }

/-- `NOTE_ON time` (R90). A non-finite time is an illegal command (R80). -/
def execNoteOn (time : Word) (s : State) : Host.Outcome State Fault Refusal :=
  .next (if isFinite time then { s with regs := s.regs.noteOn (numB64.val time) } else s.illegal)

/-- `NOTE_OFF time` (R91). A non-finite time is an illegal command (R80). -/
def execNoteOff (time : Word) (s : State) : Host.Outcome State Fault Refusal :=
  .next (if isFinite time then { s with regs := s.regs.noteOff (numB64.val time) } else s.illegal)

end Sys2Proof.Machine
end

