-- ==== Sys2Proof/Machine/Oscillator.lean ====
section
/-! DEFINITION. The oscillator (41_oscillator.md): the phase (R106), the six waveform kinds (R108 to R114) and their
dispatch `Osc` (R105). -/

namespace Sys2Proof.Machine

variable {V : Type} (ar : Arith V)

/-- `Phase(f, t, vd, vr) = ((TWO_PI * f) * t) + ((vd * f) * sin((TWO_PI * vr) * t))` (R106). With `vd = 0` the hardware
may skip the second term (R107). -/
def Arith.phase (f t vd vr : V) : Calc V :=
  let w := ar.mul ar.twoPi f
  let p := ar.mul w t
  if ar.eq vd ar.zero && ar.skipsVibrato f t vd vr then { val := p, seen := [w, p] }
  else
    let depth := ar.mul vd f
    let wr := ar.mul ar.twoPi vr
    let a := ar.mul wr t
    let m := ar.sin a
    let term := ar.mul depth m
    let ph := ar.add p term
    { val := ph, seen := [w, p, depth, wr, a, m, term, ph] }

/-- Sine (R108): `sin(Phase)`. -/
def Arith.sine (f t vd vr : V) : Calc V :=
  let ph := ar.phase f t vd vr
  let v := ar.sin ph.val
  { val := v, seen := ph.seen ++ [v] }

/-- Square (R109): `+1` where the sine is greater than 0, else `-1`. -/
def Arith.square (f t vd vr : V) : Calc V :=
  let ph := ar.phase f t vd vr
  let v := ar.sin ph.val
  { val := if ar.lt ar.zero v then ar.one else ar.negOne, seen := ph.seen ++ [v] }

/-- Triangle (R110): `asin(sin(Phase)) * TWO_OVER_PI`. -/
def Arith.triangle (f t vd vr : V) : Calc V :=
  let ph := ar.phase f t vd vr
  let v := ar.sin ph.val
  let a := ar.asin v
  let o := ar.mul a ar.twoOverPi
  { val := o, seen := ph.seen ++ [v, a, o] }

/-- One term of the AnalogSaw series: `acc + (sin(ofNat(n) * ph) / ofNat(n))` (R111). -/
def Arith.sawTerm (ph : V) (acc : Calc V) (n : Nat) : Calc V :=
  let x := ar.mul (ar.ofNat n) ph
  let v := ar.sin x
  let q := ar.div v (ar.ofNat n)
  let a := ar.add acc.val q
  { val := a, seen := acc.seen ++ [x, v, q, a] }

/-- The series index `n = 1, 2, ..., 9`, in this order (R8 `N_SAW`, R111). -/
def sawIndices : List Nat := [1, 2, 3, 4, 5, 6, 7, 8, 9]

/-- AnalogSaw (R111). -/
def Arith.analogSaw (f t vd vr : V) : Calc V :=
  let ph := ar.phase f t vd vr
  let acc := sawIndices.foldl (ar.sawTerm ph.val) { val := ar.zero, seen := ph.seen }
  let o := ar.mul acc.val ar.twoOverPi
  { val := o, seen := acc.seen ++ [o] }

/-- DigitalSaw (R112), for `0 < f`: the floored remainder of `t` by the period, scaled to a ramp from -1. -/
def Arith.digitalSaw (f t : V) : Calc V :=
  let per := ar.div ar.one f
  let m := ar.fmod t per
  let wrapped := if ar.lt m ar.zero then [ar.add m per] else []
  let m' := if ar.lt m ar.zero then ar.add m per else m
  let fp := ar.mul f ar.pi
  let x := ar.mul fp m'
  let y := ar.sub x ar.halfPi
  let o := ar.mul ar.twoOverPi y
  { val := o, seen := [per, m] ++ wrapped ++ [fp, x, y, o] }

/-- A DigitalSaw slot whose frequency is not greater than 0 raises DSAW (R113, R152). -/
def Arith.dsawViolated (k : Kind) (f : V) : Bool := k == .digitalSaw && ar.le f ar.zero

/-- `Osc(kind, f, t, vd, vr)` (R105); `draw` is the draw a Noise takes (R114). At `f <= 0` DigitalSaw has no specified
result (R113): a free value stands in its place, and no claim about the response of that `SAMPLE` is possible (R143). -/
def Arith.osc (k : Kind) (f t vd vr draw : V) : Calc V :=
  match k with
  | .sine => ar.sine f t vd vr
  | .square => ar.square f t vd vr
  | .triangle => ar.triangle f t vd vr
  | .analogSaw => ar.analogSaw f t vd vr
  | .digitalSaw => if ar.le f ar.zero then { val := ar.undefinedSaw f t, seen := [] } else ar.digitalSaw f t
  | .noise => { val := draw, seen := [] }

end Sys2Proof.Machine
end

