-- ==== Sys2Proof/Machine/Mixer.lean ====
section
/-! DEFINITION. The voice mixer (42_voice_mixer.md): `Mix` (R122, R123), the two presets (R125, R126) and the commands
`LD_PRESET` (R127), `WR_CFG` (R128) and `RD_REG` (R130). -/

namespace Sys2Proof.Machine

variable {V : Type} (ar : Arith V)

/-! ### The mix -/

/-- A sum of slots under way: the sum, the values computed, whether a slot violated DSAW, the draws taken. -/
structure MixAcc (V : Type) where
  mix : V
  seen : List V
  dsaw : Bool
  drawn : Nat

/-- Add an enabled slot of kind `k` (R122, R123): `f = MULT * FREQ`, then `mix + (WEIGHT * Osc(..))`. A Noise takes the
next draw (R134). -/
def Arith.mixKind (r : Regs V) (t : V) (draw : Nat → V) (acc : MixAcc V) (sl : SlotRegs V) (k : Kind) : MixAcc V :=
  let f := ar.mul sl.mult r.freq
  let o := ar.osc k f t sl.vdepth sl.vrate (draw acc.drawn)
  let p := ar.mul sl.weight o.val
  let m := ar.add acc.mix p
  { mix := m
    seen := acc.seen ++ (f :: o.seen) ++ [p, m]
    dsaw := acc.dsaw || ar.dsawViolated k f
    drawn := if k == .noise then acc.drawn + 1 else acc.drawn }

/-- One slot of `Mix`: a disabled slot is not evaluated (R135). A reserved kind code selects nothing (R115); no reachable
state holds one (R47). -/
def Arith.mixSlot (r : Regs V) (t : V) (draw : Nat → V) (acc : MixAcc V) (sl : SlotRegs V) : MixAcc V :=
  if sl.en then
    match sl.kind with
    | some k => ar.mixKind r t draw acc sl k
    | none => acc
  else acc

/-- The slots in slot order (R40, R123). -/
def Regs.slotList (r : Regs V) : List (SlotRegs V) := [r.slot0, r.slot1, r.slot2, r.slot3]

/-- `Mix(t)` (R123), from `ZERO`, over slots 0, 1, 2, 3 in this order. -/
def Arith.mix (r : Regs V) (t : V) (draw : Nat → V) : MixAcc V :=
  r.slotList.foldl (ar.mixSlot r t draw) { mix := ar.zero, seen := [], dsaw := false, drawn := 0 }

/-! ### Presets -/

/-- The 25 registers of a voice: the five `ENV_*` and the four slots. -/
structure Voice where
  attack : Word
  decay : Word
  sustain : Word
  release : Word
  start : Word
  slot0 : SlotRegs Word
  slot1 : SlotRegs Word
  slot2 : SlotRegs Word
  slot3 : SlotRegs Word
  deriving DecidableEq, Repr

/-- Preset 0, `HARM` (R125). -/
def presetHarm : Voice where
  attack := 0x3FA999999999999A#64
  decay := 0x3F847AE147AE147B#64
  sustain := 0x3FE999999999999A#64
  release := 0x3FC999999999999A#64
  start := 0x3FF0000000000000#64
  slot0 := ⟨0x8#64, 0x3FF0000000000000#64, 0x3FF0000000000000#64, 0x3F50624DD2F1A9FC#64, 0x4014000000000000#64⟩
  slot1 := ⟨0x9#64, 0x3FF8000000000000#64, 0x3FE0000000000000#64, 0#64, 0#64⟩
  slot2 := ⟨0x8#64, 0x4000000000000000#64, 0x3FD0000000000000#64, 0#64, 0#64⟩
  slot3 := ⟨0xD#64, 0#64, 0x3FA999999999999A#64, 0#64, 0#64⟩

/-- Preset 1, `PERC` (R126). -/
def presetPerc : Voice where
  attack := 0x0000000000000000#64
  decay := 0x3FF0000000000000#64
  sustain := 0x0000000000000000#64
  release := 0x3FF0000000000000#64
  start := 0x3FF0000000000000#64
  slot0 := ⟨0x8#64, 0x3FF0000000000000#64, 0x3FF0000000000000#64, 0x3F50624DD2F1A9FC#64, 0x4014000000000000#64⟩
  slot1 := ⟨0x8#64, 0x4000000000000000#64, 0x3FE0000000000000#64, 0#64, 0#64⟩
  slot2 := ⟨0x8#64, 0x4008000000000000#64, 0x3FD0000000000000#64, 0#64, 0#64⟩
  slot3 := ⟨0x0#64, 0#64, 0#64, 0#64, 0#64⟩

/-- The image of a preset (R125, R126). -/
def presetVoice : Preset → Voice
  | .harm => presetHarm
  | .perc => presetPerc

/-- What `LD_PRESET` writes (R127): the 25 registers of the image, `T_ON`, `T_OFF`, `HELD` and `TRIG`. A value register
takes the value of the image's pattern, in both instantiations (R125). -/
def Arith.loadVoice (r : Regs V) (v : Voice) : Regs V :=
  { r with
    envAttack := ar.val v.attack
    envDecay := ar.val v.decay
    envSustain := ar.val v.sustain
    envRelease := ar.val v.release
    envStart := ar.val v.start
    slot0 := v.slot0.map ar.val
    slot1 := v.slot1.map ar.val
    slot2 := v.slot2.map ar.val
    slot3 := v.slot3.map ar.val
    tOn := ar.zero
    tOff := ar.zero
    flags := flagsClear r.flags }

/-! ### The commands -/

/-- `LD_PRESET preset` (R127). -/
def execLdPreset (preset : Preset) (s : State) : Host.Outcome State Fault Refusal :=
  .next { s with regs := numB64.loadVoice s.regs (presetVoice preset) }

/-- `WR_CFG reg, value` (R128). A read-only register or a value not legal for the register is an illegal command
(R84, R129). -/
def execWrCfg (reg : Reg) (value : Word) (s : State) : Host.Outcome State Fault Refusal :=
  .next (if writable reg && legalData reg value then { s with regs := s.regs.write numB64.val reg value }
    else s.illegal)

/-- `RD_REG reg` (R130): the register's 64 bits on CP, and no change. -/
def execRdReg (reg : Reg) (s : State) : Host.Outcome State Fault Refusal :=
  .next (s.respond .cp (regRead s.regs reg))

end Sys2Proof.Machine
end

