-- ==== Sys2Proof/Machine/Scaler.lean ====
section
/-! DEFINITION. The sample scaler (43_sample_scaler.md): the output of one sample (R124, R138 to R141) and the commands
`SET_FREQ` (R137), `SAMPLE` (R138, R143, R144) and `NOP` (R145). -/

namespace Sys2Proof.Machine

variable {V : Type} (ar : Arith V)

/-- What one `SAMPLE` computes: `out`, every value computed, whether a slot violated DSAW, how many draws it took. -/
structure SampleCalc (V : Type) where
  out : V
  seen : List V
  dsaw : Bool
  drawn : Nat

/-- The stages of R138: `a = EnvAmp(t)`, `mix = Mix(t)`, `v = a * mix`, `c = Clamp(v)`, `out = c * MVOL`. All are
always computed; there is no early exit when the envelope is 0 (R124). -/
def Arith.sample (r : Regs V) (t : V) (draw : Nat → V) : SampleCalc V :=
  let a := ar.envAmp r t
  let m := ar.mix r t draw
  let v := ar.mul a.val m.mix
  let c := ar.clamp v
  let out := ar.mul c r.mvol
  { out := out, seen := a.seen ++ m.seen ++ [v, c, out], dsaw := m.dsaw, drawn := m.drawn }

/-- Some value computed is an infinity or a NaN (R144). -/
def Arith.overflowed (c : SampleCalc V) : Bool := c.seen.any fun v => !ar.finite v

/-- Whether a `SAMPLE` sets NONFIN: when a value computed is not finite (R144), but after DSAW the setting is
unspecified (R143, R156). -/
def Arith.raisesNonfin (c : SampleCalc V) (unspecified : Bool) : Bool :=
  if c.dsaw then unspecified else ar.overflowed c

/-- What `SAMPLE` does to the registers: it may set `DSAW` and `NONFIN` (R138, R148). -/
def Regs.afterSample (r : Regs V) (dsaw nonfin : Bool) : Regs V := (r.raiseIf dsaw .dsaw).raiseIf nonfin .nonfin

/-- A legal `SAMPLE` at time `t` (R138): the output, or 64 unspecified bits when it raised a fault (R143, R144). -/
def sampleLegal (t : Word) (s : State) : State :=
  let c := numB64.sample s.regs t s.drawAt
  let nonfin := numB64.raisesNonfin c (Config.unspecifiedNonfin s.freeCount)
  let faulted := c.dsaw || nonfin
  let s' := { s.takeDraws c.drawn with
    regs := s.regs.afterSample c.dsaw nonfin
    freeCount := if faulted then s.freeCount + 1 else s.freeCount }
  s'.respond .rp (if faulted then Config.unspecifiedSample s.freeCount else c.out)

/-- `SET_FREQ hz` (R137): `FREQ` and nothing else. A non-finite frequency is an illegal command (R80). -/
def execSetFreq (hz : Word) (s : State) : Host.Outcome State Fault Refusal :=
  .next (if isFinite hz then { s with regs := { s.regs with freq := numB64.val hz } } else s.illegal)

/-- `SAMPLE time` (R138). A non-finite time is an illegal command, which answers 0 and takes no draw (R80, R85). -/
def execSample (time : Word) (s : State) : Host.Outcome State Fault Refusal :=
  .next (if isFinite time then sampleLegal (numB64.val time) s else s.illegalAnswered .rp)

/-- `NOP` (R145): no effect. -/
def execNop (s : State) : Host.Outcome State Fault Refusal := .next s

end Sys2Proof.Machine
end

