-- ==== Sys2Proof/Machine/Dispatch.lean ====
section
/-! DEFINITION. One arm per command: its meaning (30_encoding.md R71 names the rule of each). -/

namespace Sys2Proof.Machine

def exec (i : Instr) (s : State) : Host.Outcome State Fault Refusal :=
  match i with
  | .nop => Sys2Proof.Machine.execNop s
  | .noteOn time => Sys2Proof.Machine.execNoteOn time s
  | .noteOff time => Sys2Proof.Machine.execNoteOff time s
  | .setFreq hz => Sys2Proof.Machine.execSetFreq hz s
  | .sample time => Sys2Proof.Machine.execSample time s
  | .ldPreset preset => Sys2Proof.Machine.execLdPreset preset s
  | .wrCfg reg value => Sys2Proof.Machine.execWrCfg reg value s
  | .rdReg reg => Sys2Proof.Machine.execRdReg reg s

end Sys2Proof.Machine
end

