-- ==== Sys2Proof/Machine/Run.lean ====
section
/-! DEFINITION. What one turn of a run does: which turn comes next (20_memory.md R62), executing the next command of a
port (30_encoding.md R78, R85), and a reset (70_reset_and_hazards.md R167 to R169). `Machine/Step.lean` only calls these. -/

namespace Sys2Proof.Machine

/-- The turn the machine takes when the agenda prescribes none: the port that has a command outstanding, either port when
both have one (R62), none when the block only waits (R171). -/
def freeTurn (s : State) : Option Turn :=
  match s.cpQueue, s.rpQueue with
  | [], [] => none
  | _ :: _, [] => some (.port .cp)
  | [], _ :: _ => some (.port .rp)
  | _ :: _, _ :: _ => some (.port (if Config.arbiter s.freeCount then .cp else .rp))

/-- The next turn: the agenda's own, else a free one. -/
def nextTurn (s : State) : Option Turn :=
  match s.agenda with
  | a :: _ => some a
  | [] => freeTurn s

/-- Whether the next turn is a free choice between the ports. -/
def choiceIsFree (s : State) : Bool := s.agenda.isEmpty && !s.cpQueue.isEmpty && !s.rpQueue.isEmpty

/-- The turn is taken: it leaves the agenda, and a free choice is counted. -/
def takeTurn (s : State) : State :=
  { s with
    agenda := s.agenda.tail
    freeCount := if choiceIsFree s then s.freeCount + 1 else s.freeCount }

/-- An illegal word on a port (R85): `ILL`, and the response 0 if its `OP` is `SAMPLE` or `RD_REG`. -/
def illegalWord (p : Port) (w : CmdWord) (s : State) : State :=
  if opField w = 0x04#8 || opField w = 0x07#8 then s.illegalAnswered p else s.illegal

/-- One word that arrived on a port executes (R60, R78). -/
def runWord (p : Port) (w : CmdWord) (s : State) : Host.Outcome State Fault Refusal :=
  match decode p w with
  | .ok i => exec i s
  | .error _ => .next (illegalWord p w s)

/-- The next command of a port executes (R61); a port with nothing outstanding does nothing with its turn. -/
def runPort (p : Port) (s : State) : Host.Outcome State Fault Refusal :=
  match s.queue p with
  | [] => .next s
  | w :: rest => runWord p w (s.setQueue p rest)

/-- A reset (R168, R169): every register takes its reset value, the commands issued and not executed are lost, responses
already returned stay returned, and the noise generator goes on in an unspecified state (R49). -/
def State.afterReset (s : State) (lostC lostR : Nat) : State :=
  { s with regs := Regs.reset, cpQueue := s.cpQueue.drop lostC, rpQueue := s.rpQueue.drop lostR }

/-- What a turn does. -/
def runTurn (a : Turn) (s : State) : Host.Outcome State Fault Refusal :=
  match a with
  | .port p => runPort p s
  | .reset lostC lostR => .next (s.afterReset lostC lostR)

/-- A state whose next turn is the next command of `p`, and that command is `w`. -/
def State.withCommand (s : State) (p : Port) (w : CmdWord) : State :=
  { s.setQueue p (w :: s.queue p) with agenda := .port p :: s.agenda }

end Sys2Proof.Machine
end

