-- ==== Sys2Proof/Machine/Step.lean ====
section
/-! DEFINITION. One step of a run (00_scope.md R6, 70_reset_and_hazards.md R184): the next turn, or nothing while the
block waits (R171). -/

namespace Sys2Proof.Machine

/-- One step: one whole command, one reset, or an idle step that changes nothing. -/
def step (s : State) : Host.Outcome State Fault Refusal :=
  match nextTurn s with
  | none => .next s
  | some a => runTurn a (takeTurn s)

/-- `s` with the instruction of the table's word `w` put where the next step takes it: at the head of its port's command
list, with that port's turn first. -/
def State.withFetchWord (s : State) (nbits w : Nat) : State :=
  s.withCommand (tablePort (tableWord nbits w)) (tableWord nbits w)

end Sys2Proof.Machine
end

