-- ==== Sys2Proof/Machine/Reference.lean ====
section
/-! DEFINITION. `NUM_REAL`, the reference instantiation of the arithmetic record (00_scope.md R10), the exact real value
of a pattern (R11), the command set executed with it, and the accuracy promises S3 and A3 of R12, which compare the
hardware's sine and arcsine with the real ones. The reals are not computable, so neither is this file; the machine
itself does not import it. -/

namespace Sys2Proof.Machine

/-- The exact real value of a finite pattern (R10, R11). -/
noncomputable def toReal (d : Word) : ℝ := (scaled d : ℝ) / 2 ^ 1074

/-- The integer part towards zero, as `trunc` of R9. -/
noncomputable def truncReal (x : ℝ) : ℝ := if 0 ≤ x then (⌊x⌋ : ℝ) else (⌈x⌉ : ℝ)

/-- The reference arithmetic (R10). `undef` is the result R113 does not specify. -/
noncomputable def numReal (undef : ℝ → ℝ → ℝ) : Arith ℝ where
  ofData d := if isFinite d then some (toReal d) else none
  add x y := x + y
  sub x y := x - y
  mul x y := x * y
  div x y := x / y
  le x y := decide (x ≤ y)
  lt x y := decide (x < y)
  sin := Real.sin
  asin := Real.arcsin
  fmod x p := x - p * truncReal (x / p)
  ofNat n := (n : ℝ)
  zero := 0
  one := 1
  two := 2
  pi := Real.pi
  floor := 1 / 10000
  finite _ := true
  skipsVibrato _ _ _ _ := false
  undefinedSaw := undef

/-- The free inputs of the reference: the draws (R22), and what R113 and R143 leave unspecified. -/
structure RealFree where
  draw : Nat → ℝ
  undefinedSaw : ℝ → ℝ → ℝ
  unspecified : ℝ

/-- The registers after a legal `SAMPLE` and its response (R138): the real number itself (R70). NONFIN is never raised
(R144, R153). -/
noncomputable def sampleReal (fr : RealFree) (t : ℝ) (r : Regs ℝ) : Regs ℝ × Option (RegVal ℝ) :=
  let c := (numReal fr.undefinedSaw).sample r t fr.draw
  (r.afterSample c.dsaw false, some (.value (if c.dsaw then fr.unspecified else c.out)))

/-- The command set under `NUM_REAL`: the registers after a command and its response (R10, R70). -/
noncomputable def execReal (fr : RealFree) (i : Instr) (r : Regs ℝ) : Regs ℝ × Option (RegVal ℝ) :=
  let ar := numReal fr.undefinedSaw
  match i with
  | .nop => (r, none)
  | .noteOn t => if isFinite t then (r.noteOn (ar.val t), none) else (r.raise .ill, none)
  | .noteOff t => if isFinite t then (r.noteOff (ar.val t), none) else (r.raise .ill, none)
  | .setFreq hz => if isFinite hz then ({ r with freq := ar.val hz }, none) else (r.raise .ill, none)
  | .sample t => if isFinite t then sampleReal fr (ar.val t) r else (r.raise .ill, some (.value 0))
  | .ldPreset p => (ar.loadVoice r (presetVoice p), none)
  | .wrCfg g d => if writable g && legalData g d then (r.write ar.val g d, none) else (r.raise .ill, none)
  | .rdReg g => (r, some (r.read g))

/-- S3 of R12: the hardware's sine is within `eps` of the real one on finite operands. `EPS_SIN` is open, so a claim
that needs it assumes this for its own `eps`. -/
def SinWithin (eps : ℝ) : Prop := ∀ x : Word, isFinite x = true → |toReal (sin64 x) - Real.sin (toReal x)| ≤ eps

/-- A3 of R12: the hardware's arcsine is within `eps` of the real one on [-1, 1]. -/
def AsinWithin (eps : ℝ) : Prop := ∀ y : Word, inUnit y = true → |toReal (asin64 y) - Real.arcsin (toReal y)| ≤ eps

/-- The frequency of note `i` of the host's table: `110 * 2^(i/12)` (R24). The block never sees it. -/
noncomputable def noteFreqReal (i : Nat) : ℝ := 110 * (2 : ℝ) ^ ((i : ℝ) / 12)

end Sys2Proof.Machine
end

