-- ==== Sys2Proof/Safety.lean ====
section
/-! DEFINITION. The terms of the claims: what the spec promises of the states of a run (10_state.md R47), the premises it
names for claims about a run (70_reset_and_hazards.md R175, R186; 43_sample_scaler.md R144), and the spec's pseudocode
written with the operations of the hardware alone. -/

namespace Sys2Proof.Machine

/-! ### The state invariant (R47) -/

/-- I-a, I-b, I-d for one slot (R41 to R45, R47): a legal bit field, a finite non-negative multiplier, finite values. -/
abbrev SlotRegs.Inv (sl : SlotRegs Word) : Prop :=
  ctrlOk sl.ctrl = true ∧ nonNegOk sl.mult = true ∧ isFinite sl.weight = true ∧ isFinite sl.vdepth = true ∧
    isFinite sl.vrate = true

/-- The values `FLAGS` can hold: bits 63:2 zero, and never `HELD` without `TRIG` (R38, R47 I-e). -/
abbrev FlagsInv (f : Word) : Prop := f = 0#64 ∨ f = 2#64 ∨ f = 3#64

/-- The bits of `STATUS` above the three faults are zero (R39). -/
abbrev StatusInv (w : Word) : Prop := w.extractLsb' 3 61 = 0#61

/-- I-b and I-c for the envelope configuration and the master volume, with I-a for each. -/
abbrev Regs.ConfigInv (r : Regs Word) : Prop :=
  nonNegOk r.envAttack = true ∧ nonNegOk r.envDecay = true ∧ unitOk r.envSustain = true ∧
    nonNegOk r.envRelease = true ∧ unitOk r.envStart = true ∧ unitOk r.mvol = true

/-- I-a for the run-time values. -/
abbrev Regs.RunInv (r : Regs Word) : Prop :=
  isFinite r.tOn = true ∧ isFinite r.tOff = true ∧ isFinite r.freq = true

/-- The state invariant of R47, clauses I-a to I-e, with the zero bits of R38 and R39. -/
abbrev Regs.Inv (r : Regs Word) : Prop :=
  r.ConfigInv ∧ r.RunInv ∧ FlagsInv r.flags ∧ StatusInv r.status ∧
    r.slot0.Inv ∧ r.slot1.Inv ∧ r.slot2.Inv ∧ r.slot3.Inv

/-- The state invariant of a machine state: that of its registers. The hosts' lists are under no law (R185). -/
abbrev State.Inv (s : State) : Prop := s.regs.Inv

/-! ### Premises of claims (R175, R186) -/

/-- A slot's frequency, `SLOTn_MULT * FREQ` (R122). -/
def slotFreq (r : Regs Word) (n : SlotNo) : Word := mul64 (r.slot n).mult r.freq

/-- The slot is an enabled DigitalSaw slot. -/
def isSawSlot (r : Regs Word) (n : SlotNo) : Bool := (r.slot n).en && (r.slot n).kind == some .digitalSaw

/-- The guard of R175: every enabled DigitalSaw slot has a frequency greater than 0. -/
abbrev SawGuard (r : Regs Word) : Prop := ∀ n : SlotNo, isSawSlot r n = true → lt64 zero64 (slotFreq r n) = true

/-- The slot is enabled and of kind Noise. -/
def isNoiseSlot (sl : SlotRegs Word) : Bool := sl.en && sl.kind == some .noise

/-- How many enabled Noise slots there are: the draws one legal `SAMPLE` takes (R134). -/
def noiseSlots (r : Regs Word) : Nat := r.slotList.countP isNoiseSlot

/-- No value a `SAMPLE` at `t` computes is an infinity or a NaN (R144). -/
abbrev SampleFinite (s : State) (t : Word) : Prop := numB64.overflowed (numB64.sample s.regs t s.drawAt) = false

/-- A `SAMPLE` at `t` raises no fault: the guard of R175 holds and every value computed is finite. -/
abbrev SampleClean (s : State) (t : Word) : Prop := SawGuard s.regs ∧ SampleFinite s t

/-! ### What a command leaves alone -/

/-- Every register but those listed reads as before (R26: registers do not alias). -/
abbrev RegFrame (changed : List Reg) (s t : State) : Prop :=
  ∀ r : Reg, r ∉ changed → regRead t.regs r = regRead s.regs r

/-- Nothing but registers changed: the queues, the agenda, the responses, the draws and the counts are as before. -/
abbrev RunFrame (s t : State) : Prop := { t with regs := s.regs } = s

/-- Every bit of a word but those listed is as before. -/
abbrev BitFrame (changed : List Nat) (before after : Word) : Prop :=
  ∀ j : Nat, j ∉ changed → after.getLsbD j = before.getLsbD j

/-- Which registers a legal command may write, the table of R52. -/
def mayWrite : Instr → Reg → Bool
  | .noteOn _, r => r == .tOn || r == .flags
  | .noteOff _, r => r == .tOff || r == .flags
  | .setFreq _, r => r == .freq
  | .sample _, r => r == .status
  | .ldPreset _, r => r != .mvol && r != .freq && r != .status
  | .wrCfg g _, r => r == g
  | .nop, _ | .rdReg _, _ => false

/-! ### The operand bounds of R144 -/

/-- A magnitude below `b`. -/
abbrev Below (d : Word) (b : Rat) : Prop := isFinite d = true ∧ -b < toRat d ∧ toRat d < b

/-- A duration: 0 or at least 1e-9, and, as a time, below 1e6 seconds (log entry 21). -/
abbrev DurationBound (d : Word) : Prop :=
  isFinite d = true ∧ (toRat d = 0 ∨ (1 / 10 ^ 9 ≤ toRat d ∧ toRat d < 10 ^ 6))

/-- A slot's frequency: 0, or between 1e-3 and 1e6 Hz. -/
abbrev FreqBound (d : Word) : Prop :=
  isFinite d = true ∧ (toRat d = 0 ∨ (1 / 10 ^ 3 ≤ toRat d ∧ toRat d ≤ 10 ^ 6))

/-- A slot's weight, depth and rate are below 1e6 in magnitude, and its frequency is bounded. -/
abbrev SlotBound (r : Regs Word) (n : SlotNo) : Prop :=
  Below (r.slot n).weight (10 ^ 6) ∧ Below (r.slot n).vdepth (10 ^ 6) ∧ Below (r.slot n).vrate (10 ^ 6) ∧
    FreqBound (slotFreq r n)

/-- "With all times below 1e6 seconds, all frequencies either 0 or between 1e-3 and 1e6 Hz, durations either 0 or at
least 1e-9, and weights, depths and rates below 1e6 in magnitude" (R144). Durations are times, so they are below 1e6
as well (DEDUCED, log entry 21). -/
abbrev WithinBounds (r : Regs Word) (t : Word) : Prop :=
  Below t (10 ^ 6) ∧ Below r.tOn (10 ^ 6) ∧ Below r.tOff (10 ^ 6) ∧
    DurationBound r.envAttack ∧ DurationBound r.envDecay ∧ DurationBound r.envRelease ∧ ∀ n : SlotNo, SlotBound r n

/-! ### The pseudocode of the rules on the hardware, operation by operation

Written from the rules with the operations themselves, apart from the meanings: for each function its value, and the list
of every value its operations give (R144). -/

/-- `TWO_PI` (R13). -/
def twoPi64 : Word := 0x401921FB54442D18#64

/-- `TWO_OVER_PI` (R13). -/
def twoOverPi64 : Word := 0x3FE45F306DC9C883#64

/-- A zero of either sign, by the comparisons (R14). -/
def isZero64 (d : Word) : Bool := le64 d zero64 && le64 zero64 d

/-- R19. -/
def rampValue (x dur a b : Word) : Word := add64 (mul64 (div64 x dur) (sub64 b a)) a

def rampOps (x dur a b : Word) : List Word :=
  [div64 x dur, sub64 b a, mul64 (div64 x dur) (sub64 b a), rampValue x dur a b]

/-- R95 to R98: attack, decay, sustain. -/
def heldValue (r : Regs Word) (life : Word) : Word :=
  if le64 life r.envAttack then
    (if isZero64 r.envAttack then (if lt64 life zero64 then zero64 else r.envStart)
      else rampValue life r.envAttack zero64 r.envStart)
  else if le64 life (add64 r.envAttack r.envDecay) then
    rampValue (sub64 life r.envAttack) r.envDecay r.envStart r.envSustain
  else r.envSustain

def heldOps (r : Regs Word) (life : Word) : List Word :=
  if le64 life r.envAttack then
    (if isZero64 r.envAttack then [] else rampOps life r.envAttack zero64 r.envStart)
  else add64 r.envAttack r.envDecay ::
    (if le64 life (add64 r.envAttack r.envDecay) then
      sub64 life r.envAttack :: rampOps (sub64 life r.envAttack) r.envDecay r.envStart r.envSustain
    else [])

/-- R99, R100. -/
def releasedValue (r : Regs Word) (t : Word) : Word :=
  if isZero64 r.envRelease then (if lt64 t r.tOff then r.envSustain else zero64)
  else rampValue (sub64 t r.tOff) r.envRelease r.envSustain zero64

def releasedOps (r : Regs Word) (t : Word) : List Word :=
  if isZero64 r.envRelease then []
  else sub64 t r.tOff :: rampOps (sub64 t r.tOff) r.envRelease r.envSustain zero64

/-- The phase value before the floor: `HELD` chooses (R92). -/
def phaseAmp (r : Regs Word) (t : Word) : Word :=
  if r.flags.getLsbD 0 then heldValue r (sub64 t r.tOn) else releasedValue r t

/-- `EnvAmp(t)` (R92): 0 while `TRIG` is 0 (R93), and the snap floor (R101). -/
def envValue (r : Regs Word) (t : Word) : Word :=
  if r.flags.getLsbD 1 then (if le64 (phaseAmp r t) floor64 then zero64 else phaseAmp r t) else zero64

/-- `t - T_ON` is computed whenever `TRIG` is 1 (R94). -/
def envOps (r : Regs Word) (t : Word) : List Word :=
  if r.flags.getLsbD 1 then
    sub64 t r.tOn :: (if r.flags.getLsbD 0 then heldOps r (sub64 t r.tOn) else releasedOps r t)
  else []

/-- The vibrato term `(vd * f) * sin((TWO_PI * vr) * t)` of R106. -/
def vibratoTerm (f t vd vr : Word) : Word := mul64 (mul64 vd f) (sin64 (mul64 (mul64 twoPi64 vr) t))

/-- R107: at depth 0 the hardware may skip the vibrato term; whether it does is free (log entry 3). -/
def skipsTerm (f t vd vr : Word) : Bool := isZero64 vd && Config.skipsVibrato f t vd vr

/-- R106, R107. -/
def phaseValue (f t vd vr : Word) : Word :=
  if skipsTerm f t vd vr then mul64 (mul64 twoPi64 f) t
  else add64 (mul64 (mul64 twoPi64 f) t) (vibratoTerm f t vd vr)

def phaseOps (f t vd vr : Word) : List Word :=
  [mul64 twoPi64 f, mul64 (mul64 twoPi64 f) t] ++
    (if skipsTerm f t vd vr then []
    else [mul64 vd f, mul64 twoPi64 vr, mul64 (mul64 twoPi64 vr) t, sin64 (mul64 (mul64 twoPi64 vr) t),
      vibratoTerm f t vd vr, phaseValue f t vd vr])

/-- The AnalogSaw accumulator after the first `n` terms (R111). -/
def sawSum (ph : Word) : Nat → Word
  | 0 => zero64
  | n + 1 => add64 (sawSum ph n) (div64 (sin64 (mul64 (ofNat64 (n + 1)) ph)) (ofNat64 (n + 1)))

def sawTermOps (ph : Word) (n : Nat) : List Word :=
  [mul64 (ofNat64 n) ph, sin64 (mul64 (ofNat64 n) ph), div64 (sin64 (mul64 (ofNat64 n) ph)) (ofNat64 n), sawSum ph n]

/-- The floored remainder of `t` by the period `ONE / f` (R112). -/
def sawRemainder (f t : Word) : Word :=
  if lt64 (fmod64 t (div64 one64 f)) zero64 then add64 (fmod64 t (div64 one64 f)) (div64 one64 f)
  else fmod64 t (div64 one64 f)

/-- R112, for `0 < f`. -/
def digitalSawValue (f t : Word) : Word :=
  mul64 twoOverPi64 (sub64 (mul64 (mul64 f pi64) (sawRemainder f t)) halfPi64)

def digitalSawOps (f t : Word) : List Word :=
  [div64 one64 f, fmod64 t (div64 one64 f), sawRemainder f t, mul64 f pi64, mul64 (mul64 f pi64) (sawRemainder f t),
    sub64 (mul64 (mul64 f pi64) (sawRemainder f t)) halfPi64, digitalSawValue f t]

/-- R105, R108 to R114; a DigitalSaw is read so only for `0 < f` (R113). -/
def oscValue (k : Kind) (f t vd vr draw : Word) : Word :=
  match k with
  | .sine => sin64 (phaseValue f t vd vr)
  | .square => if lt64 zero64 (sin64 (phaseValue f t vd vr)) then one64 else negOne64
  | .triangle => mul64 (asin64 (sin64 (phaseValue f t vd vr))) twoOverPi64
  | .analogSaw => mul64 (sawSum (phaseValue f t vd vr) 9) twoOverPi64
  | .digitalSaw => digitalSawValue f t
  | .noise => draw

def oscOps (k : Kind) (f t vd vr : Word) : List Word :=
  match k with
  | .sine | .square => phaseOps f t vd vr ++ [sin64 (phaseValue f t vd vr)]
  | .triangle => phaseOps f t vd vr ++ [sin64 (phaseValue f t vd vr), asin64 (sin64 (phaseValue f t vd vr)),
      mul64 (asin64 (sin64 (phaseValue f t vd vr))) twoOverPi64]
  | .analogSaw => phaseOps f t vd vr ++ [1, 2, 3, 4, 5, 6, 7, 8, 9].flatMap (sawTermOps (phaseValue f t vd vr)) ++
      [mul64 (sawSum (phaseValue f t vd vr) 9) twoOverPi64]
  | .digitalSaw => digitalSawOps f t
  | .noise => []

/-- What a slot adds to the mix: `WEIGHT * Osc(KIND, MULT * FREQ, t, VDEPTH, VRATE)` (R122, R123). -/
def slotTerm (k : Kind) (freq t draw : Word) (sl : SlotRegs Word) : Word :=
  mul64 sl.weight (oscValue k (mul64 sl.mult freq) t sl.vdepth sl.vrate draw)

/-- The kind of an enabled slot: `EN` is bit 3, `KIND` bits 2:0 (R41, R75, R135). -/
def enabledKind (sl : SlotRegs Word) : Option Kind :=
  if sl.ctrl.getLsbD 3 then kindOfCode (sl.ctrl.extractLsb' 0 3) else none

/-- The draw slot `n` takes if it is an enabled Noise slot: the one after those of the earlier slots (R134). -/
def slotDraw (r : Regs Word) (draw : Nat → Word) (n : Nat) : Word :=
  draw ((r.slotList.take n).countP fun sl => enabledKind sl == some .noise)

/-- `mix` after the slots 0 to `n - 1` (R123): from `ZERO`, in slot order. -/
def mixUpTo (r : Regs Word) (t : Word) (draw : Nat → Word) : Nat → Word
  | 0 => zero64
  | n + 1 =>
    match r.slotList[n]? with
    | none => mixUpTo r t draw n
    | some sl =>
      match enabledKind sl with
      | none => mixUpTo r t draw n
      | some k => add64 (mixUpTo r t draw n) (slotTerm k r.freq t (slotDraw r draw n) sl)

/-- The operations of slot `n`. -/
def slotOps (r : Regs Word) (t : Word) (draw : Nat → Word) (n : Nat) : List Word :=
  match r.slotList[n]? with
  | none => []
  | some sl =>
    match enabledKind sl with
    | none => []
    | some k => mul64 sl.mult r.freq :: oscOps k (mul64 sl.mult r.freq) t sl.vdepth sl.vrate ++
        [slotTerm k r.freq t (slotDraw r draw n) sl, mixUpTo r t draw (n + 1)]

/-- `Clamp(v)` (R20, R140). -/
def clampValue (v : Word) : Word :=
  if lt64 v negOne64 then negOne64 else if lt64 one64 v then one64 else v

/-- `v = EnvAmp(t) * Mix(t)` (R124, R138). -/
def soundValue (r : Regs Word) (t : Word) (draw : Nat → Word) : Word := mul64 (envValue r t) (mixUpTo r t draw 4)

/-- `out = Clamp(v) * MVOL` (R138, R141). -/
def outValue (r : Regs Word) (t : Word) (draw : Nat → Word) : Word := mul64 (clampValue (soundValue r t draw)) r.mvol

/-- Every value the operations of a `SAMPLE` give, in `EnvAmp`, `Mix` with its `Osc`, and the three stages (R138, R144). -/
def sampleOps (r : Regs Word) (t : Word) (draw : Nat → Word) : List Word :=
  envOps r t ++ [0, 1, 2, 3].flatMap (slotOps r t draw) ++
    [soundValue r t draw, clampValue (soundValue r t draw), outValue r t draw]

end Sys2Proof.Machine
end

