-- ==== Sys2Proof/Certificates/Slice0/Obligations.lean ====
section
/-! DEFINITION. The statements for the provers. Each docstring names the rule of spec/ it formalises; a statement about a
free value (a draw, an unspecified response, a sine) holds for every value of it. -/

/-! ### The tables of the spec, by register -/

namespace Sys2Proof.Machine

/-- A slot's five registers with their values. -/
def slotRows (n : SlotNo) (ctrl mult weight vdepth vrate : Word) : List (Reg × Word) :=
  [(.slot n .ctrl, ctrl), (.slot n .mult, mult), (.slot n .weight, weight), (.slot n .vdepth, vdepth),
   (.slot n .vrate, vrate)]

/-- The reset table of 10_state.md R51. -/
def resetRows : List (Reg × Word) :=
  [(.envAttack, 0x3FA999999999999A#64), (.envDecay, 0x3F847AE147AE147B#64), (.envSustain, 0x3FE999999999999A#64),
   (.envRelease, 0x3FC999999999999A#64), (.envStart, 0x3FF0000000000000#64), (.mvol, 0x3FD999999999999A#64),
   (.tOn, 0#64), (.tOff, 0#64), (.freq, 0#64), (.flags, 0#64), (.status, 0#64)]
  ++ slotRows .s0 0x8#64 0x3FF0000000000000#64 0x3FF0000000000000#64 0x3F50624DD2F1A9FC#64 0x4014000000000000#64
  ++ slotRows .s1 0x9#64 0x3FF8000000000000#64 0x3FE0000000000000#64 0#64 0#64
  ++ slotRows .s2 0x8#64 0x4000000000000000#64 0x3FD0000000000000#64 0#64 0#64
  ++ slotRows .s3 0xD#64 0#64 0x3FA999999999999A#64 0#64 0#64

/-- The preset images of 42_voice_mixer.md R125 and R126. -/
def presetRows : Preset → List (Reg × Word)
  | .harm =>
    [(.envAttack, 0x3FA999999999999A#64), (.envDecay, 0x3F847AE147AE147B#64), (.envSustain, 0x3FE999999999999A#64),
     (.envRelease, 0x3FC999999999999A#64), (.envStart, 0x3FF0000000000000#64)]
    ++ slotRows .s0 0x8#64 0x3FF0000000000000#64 0x3FF0000000000000#64 0x3F50624DD2F1A9FC#64 0x4014000000000000#64
    ++ slotRows .s1 0x9#64 0x3FF8000000000000#64 0x3FE0000000000000#64 0#64 0#64
    ++ slotRows .s2 0x8#64 0x4000000000000000#64 0x3FD0000000000000#64 0#64 0#64
    ++ slotRows .s3 0xD#64 0#64 0x3FA999999999999A#64 0#64 0#64
  | .perc =>
    [(.envAttack, 0#64), (.envDecay, 0x3FF0000000000000#64), (.envSustain, 0#64),
     (.envRelease, 0x3FF0000000000000#64), (.envStart, 0x3FF0000000000000#64)]
    ++ slotRows .s0 0x8#64 0x3FF0000000000000#64 0x3FF0000000000000#64 0x3F50624DD2F1A9FC#64 0x4014000000000000#64
    ++ slotRows .s1 0x8#64 0x4000000000000000#64 0x3FE0000000000000#64 0#64 0#64
    ++ slotRows .s2 0x8#64 0x4008000000000000#64 0x3FD0000000000000#64 0#64 0#64
    ++ slotRows .s3 0#64 0#64 0#64 0#64 0#64

/-! ### The ranges of R116 -/

/-- `G`, the peak of the AnalogSaw series (R116). -/
noncomputable def sawPeak : ℝ := 2 / Real.pi * ∑ n ∈ Finset.Icc (1 : ℕ) 9, Real.sin (n * (Real.pi / 10)) / n

/-- `B(kind)` of R132: the largest magnitude of each kind under `NUM_REAL`. -/
noncomputable def kindBound : Option Kind → ℝ
  | some .analogSaw => sawPeak
  | _ => 1

/-- The real number a register's 64 bits stand for, or its bits where it is a bit field (R26, R55). -/
noncomputable def answerReal (r : Reg) (w : Word) : RegVal ℝ :=
  match r with
  | .flags | .status | .slot _ .ctrl => .bits w
  | _ => .value (toReal w)

end Sys2Proof.Machine

open Sys2Proof Sys2Proof.Machine

/-! ### Encoding and decoding (30_encoding.md) -/

/-- Decoding the word of a legal command on a port that admits it gives the command back, for every operand. -/
def Obligations.DecodeInvertsEncode : Prop :=
  ∀ (i : Instr) (p : Port), i.Legal p → decode p (encode i) = .ok i

/-- A word that decodes is the word of the command it decodes to, and the command is legal on that port: no two words
have one meaning, and nothing illegal decodes (R78). -/
def Obligations.DecodedWordIsTheCommandsWord : Prop :=
  ∀ (p : Port) (w : CmdWord) (i : Instr), decode p w = .ok i → encode i = w ∧ i.Legal p

/-- One word of each command, written out from 30_encoding.md R69 and R71, decodes to it. -/
def Obligations.SpecWordsDecode : Prop :=
  decode .rp 0x00000000000000000000#80 = .ok .nop ∧
  decode .cp 0x0100BF847AE147AE147B#80 = .ok (.noteOn 0xBF847AE147AE147B#64) ∧
  decode .cp 0x02003FF0000000000000#80 = .ok (.noteOff 0x3FF0000000000000#64) ∧
  decode .cp 0x0300405B800000000000#80 = .ok (.setFreq 0x405B800000000000#64) ∧
  decode .rp 0x04003F9999999999999A#80 = .ok (.sample 0x3F9999999999999A#64) ∧
  decode .cp 0x05010000000000000000#80 = .ok (.ldPreset .perc) ∧
  decode .cp 0x06244014000000000000#80 = .ok (.wrCfg (.slot .s2 .vrate) 0x4014000000000000#64) ∧
  decode .cp 0x070B0000000000000000#80 = .ok (.rdReg .flags)

/-- R81: a word with `OP` 0x08 to 0xFF is illegal on either port, and none runs without setting `STATUS.ILL`. -/
def Obligations.ReservedOpcodesAreIllegal : Prop :=
  ∀ (p : Port) (w : CmdWord), 0x08 ≤ (w.extractLsb' 72 8).toNat →
    (∃ e, decode p w = .error e) ∧ ∀ s : State, ∃ t, runWord p w s = .next t ∧ t.regs.status.getLsbD 0 = true

/-- R83: which port admits which command. A pairing the rule does not list is illegal whatever the operands, and each
pairing it lists has a legal word. -/
def Obligations.PortsAdmitTheirCommands : Prop :=
  (∀ w : CmdWord, w.extractLsb' 72 8 = 0x04#8 → ∃ e, decode .cp w = .error e) ∧
  (∀ w : CmdWord, w.extractLsb' 72 8 ≠ 0x00#8 → w.extractLsb' 72 8 ≠ 0x04#8 → ∃ e, decode .rp w = .error e) ∧
  (∀ op : BitVec 8, op ∈ [0x00#8, 0x01#8, 0x02#8, 0x03#8, 0x05#8, 0x06#8, 0x07#8] →
    ∃ w i, w.extractLsb' 72 8 = op ∧ decode .cp w = .ok i) ∧
  (∀ op : BitVec 8, op ∈ [0x00#8, 0x04#8] → ∃ w i, w.extractLsb' 72 8 = op ∧ decode .rp w = .ok i)

/-- R82: the fields that must be zero, on either port. -/
def Obligations.MustBeZeroFields : Prop :=
  ∀ (p : Port) (w : CmdWord),
    ((w.extractLsb' 72 8).toNat ≤ 4 ∧ w.extractLsb' 64 8 ≠ 0#8) ∨
    (w.extractLsb' 72 8 ∈ [0x00#8, 0x05#8, 0x07#8] ∧ w.extractLsb' 0 64 ≠ 0#64) ∨
    (w.extractLsb' 72 8 = 0x06#8 ∧ w.extractLsb' 64 8 ∈ [0x10#8, 0x18#8, 0x20#8, 0x28#8] ∧
      w.extractLsb' 4 60 ≠ 0#60) →
    ∃ e, decode p w = .error e

/-- R80: a value operand with exponent 0x7FF is illegal; every other pattern, the subnormals and both zeros among them,
is a legal operand of `NOTE_ON`, `NOTE_OFF`, `SET_FREQ` and `SAMPLE`, and of a `WR_CFG` to a register that takes any
finite value; and the zeros of either sign and the positive subnormals are legal for every value register. -/
def Obligations.NonFiniteOperandsAreIllegal : Prop :=
  (∀ (p : Port) (w : CmdWord),
    (1 ≤ (w.extractLsb' 72 8).toNat ∧ (w.extractLsb' 72 8).toNat ≤ 4) ∨
      (w.extractLsb' 72 8 = 0x06#8 ∧ w.extractLsb' 64 8 ∉ [0x10#8, 0x18#8, 0x20#8, 0x28#8]) →
    w.extractLsb' 52 11 = 0x7FF#11 → ∃ e, decode p w = .error e) ∧
  (∀ d : Word, d.extractLsb' 52 11 ≠ 0x7FF#11 →
    decode .cp (mkWord 0x01 0 d) = .ok (.noteOn d) ∧ decode .cp (mkWord 0x02 0 d) = .ok (.noteOff d) ∧
    decode .cp (mkWord 0x03 0 d) = .ok (.setFreq d) ∧ decode .rp (mkWord 0x04 0 d) = .ok (.sample d) ∧
    ∀ (n : SlotNo) (k : SlotField), k ∈ [SlotField.weight, .vdepth, .vrate] →
      decode .cp (mkWord 0x06 (numberOfReg (.slot n k)) d) = .ok (.wrCfg (.slot n k) d)) ∧
  (∀ (r : Reg) (d : Word), writable r = true → (∀ n, r ≠ .slot n .ctrl) → d.extractLsb' 52 11 = 0#11 →
    d.getLsbD 63 = false ∨ d.extractLsb' 0 52 = 0#52 →
    decode .cp (mkWord 0x06 (numberOfReg r) d) = .ok (.wrCfg r d))

/-- R84: the invalid indices and values. Register numbers are mapped where 20_memory.md R53 maps them; a value is
compared as the rational number it stands for. -/
def Obligations.InvalidIndicesAndValues : Prop :=
  ∀ (p : Port) (w : CmdWord) (op n : Nat) (d : Word), op = (w.extractLsb' 72 8).toNat →
    n = (w.extractLsb' 64 8).toNat → d = w.extractLsb' 0 64 →
    (op = 5 ∧ 2 ≤ n) ∨
    ((op = 6 ∨ op = 7) ∧ ¬(n ≤ 0x05 ∨ (0x08 ≤ n ∧ n ≤ 0x0C) ∨ (0x10 ≤ n ∧ n ≤ 0x2F ∧ n % 8 ≤ 4))) ∨
    (op = 6 ∧ 0x08 ≤ n ∧ n ≤ 0x0C) ∨
    (op = 6 ∧ n ∈ [0x10, 0x18, 0x20, 0x28] ∧ 6 ≤ (d.extractLsb' 0 3).toNat) ∨
    (op = 6 ∧ n ∈ [0x00, 0x01, 0x03, 0x11, 0x19, 0x21, 0x29] ∧ toRat d < 0) ∨
    (op = 6 ∧ n ∈ [0x02, 0x04, 0x05] ∧ (toRat d < 0 ∨ 1 < toRat d)) →
    ∃ e, decode p w = .error e

/-- R85: the effect of an illegal word: `STATUS.ILL` becomes 1, no other bit of any register changes, no draw is taken,
and the response 0 is returned on its port exactly when its `OP` is `SAMPLE` or `RD_REG`. -/
def Obligations.IllegalWordEffect : Prop :=
  ∀ (p : Port) (w : CmdWord) (e : Illegal) (s : State), decode p w = .error e →
    ∃ t, runWord p w s = .next t ∧ t.regs.status.getLsbD 0 = true ∧ BitFrame [0] s.regs.status t.regs.status ∧
      RegFrame [.status] s t ∧ t.cpQueue = s.cpQueue ∧ t.rpQueue = s.rpQueue ∧ t.agenda = s.agenda ∧
      t.draws = s.draws ∧ t.drawCount = s.drawCount ∧ t.freeCount = s.freeCount ∧
      (if w.extractLsb' 72 8 = 0x04#8 ∨ w.extractLsb' 72 8 = 0x07#8
        then t.responses p = s.responses p ++ [0#64] else t.responses p = s.responses p) ∧
      ∀ q : Port, q ≠ p → t.responses q = s.responses q

/-! ### Steps, ports, responses, reset (20_memory.md, 70_reset_and_hazards.md) -/

/-- A step in which a port's turn comes, its next word decoding to a command, is `exec` of that command on the state
with the turn taken and the word gone from its queue. -/
def Obligations.StepRunsTheDecodedCommand : Prop :=
  ∀ (s : State) (p : Port) (w : CmdWord) (rest : List CmdWord) (i : Instr),
    nextTurn s = some (.port p) → s.queue p = w :: rest → decode p w = .ok i →
      step s = exec i ((takeTurn s).setQueue p rest)

/-- Every step answers a next state: SYNCORE never halts (R150, R184). A port's turn takes the next command of that port
(R61) and leaves the other port's commands alone; a block with nothing to do stays as it is (R171). Two clauses are the
model's choice: that a reset turn drops as many commands as it names (log entry 9), and that a turn of a port with an
empty queue takes nothing (log entry 15). -/
def Obligations.StepTakesTheNextCommandOfOnePort : Prop :=
  ∀ s : State, ∃ t, step s = .next t ∧
    (match nextTurn s with
      | none => t = s
      | some (.port p) => t.queue p = (s.queue p).tail ∧ ∀ q : Port, q ≠ p → t.queue q = s.queue q
      | some (.reset a b) => t.cpQueue = s.cpQueue.drop a ∧ t.rpQueue = s.rpQueue.drop b)

/-- R62: when both hosts have a command outstanding and nothing prescribes an order, one of the two executes; when one
has, that one; when none has, the block waits and nothing changes (R171). -/
def Obligations.FreeOrderOfThePorts : Prop :=
  ∀ s : State, s.agenda = [] →
    (s.cpQueue ≠ [] ∨ s.rpQueue ≠ [] →
      ∃ p w rest, s.queue p = w :: rest ∧ step s = runWord p w ((takeTurn s).setQueue p rest)) ∧
    (s.cpQueue = [] → s.rpQueue = [] → step s = .next s)

/-- R70: `SAMPLE` and `RD_REG` return one response word on the port they came in on, legal or not, 0 when illegal; every
other word returns nothing; the other port's responses are untouched. -/
def Obligations.ResponsesPerCommand : Prop :=
  ∀ (p : Port) (w : CmdWord) (s : State), ∃ t, runWord p w s = .next t ∧
    (if w.extractLsb' 72 8 = 0x04#8 ∨ w.extractLsb' 72 8 = 0x07#8
      then ∃ v, t.responses p = s.responses p ++ [v] ∧ ((∃ e, decode p w = .error e) → v = 0#64)
      else t.responses p = s.responses p) ∧
    ∀ q : Port, q ≠ p → t.responses q = s.responses q

/-- The reset table of R51, by register; and `LD_PRESET 0` writes the same values to the registers it writes. -/
def Obligations.ResetRegisterValues : Prop :=
  (∀ e ∈ resetRows, regRead State.reset.regs e.1 = e.2) ∧
  ∀ (s : State), ∃ t, exec (.ldPreset .harm) s = .next t ∧
    (∀ r : Reg, mayWrite (.ldPreset .harm) r = true → r ≠ .flags → regRead t.regs r = regRead State.reset.regs r) ∧
    t.regs.flags.getLsbD 0 = false ∧ t.regs.flags.getLsbD 1 = false

/-- R168, R169: a reset gives every register its reset value; responses already returned stay returned; the commands
issued and not executed are lost, as many as the turn names (the model's choice, log entry 9); nothing else of the run
changes. -/
def Obligations.ResetTurnEffect : Prop :=
  ∀ (s : State) (a b : Nat), nextTurn s = some (.reset a b) →
    ∃ t, step s = .next t ∧ (∀ r : Reg, regRead t.regs r = regRead State.reset.regs r) ∧
      t.cpResp = s.cpResp ∧ t.rpResp = s.rpResp ∧ t.cpQueue = s.cpQueue.drop a ∧ t.rpQueue = s.rpQueue.drop b ∧
      t.agenda = s.agenda.tail ∧ t.draws = s.draws ∧ t.drawCount = s.drawCount ∧ t.freeCount = s.freeCount

/-! ### The commands: effect, completion and frame -/

/-- R145: `NOP` changes nothing at all, is the all-zero word on either port, and no other word of its opcode is legal. -/
def Obligations.NopEffect : Prop :=
  (∀ s : State, exec .nop s = .next s) ∧ (∀ p : Port, decode p 0#80 = .ok .nop) ∧
  ∀ (p : Port) (w : CmdWord), w.extractLsb' 72 8 = 0x00#8 → w ≠ 0#80 → ∃ e, decode p w = .error e

/-- R90: `NOTE_ON` writes `T_ON`, `HELD` and `TRIG`, and nothing else. -/
def Obligations.NoteOnEffect : Prop :=
  ∀ (d : Word) (s : State), isFinite d = true →
    ∃ t, exec (.noteOn d) s = .next t ∧ regRead t.regs .tOn = d ∧
      t.regs.flags.getLsbD 0 = true ∧ t.regs.flags.getLsbD 1 = true ∧ BitFrame [0, 1] s.regs.flags t.regs.flags ∧
      RegFrame [.tOn, .flags] s t ∧ RunFrame s t

/-- R91: `NOTE_OFF` writes `T_OFF` and `HELD`; `TRIG` is not changed, nor anything else. -/
def Obligations.NoteOffEffect : Prop :=
  ∀ (d : Word) (s : State), isFinite d = true →
    ∃ t, exec (.noteOff d) s = .next t ∧ regRead t.regs .tOff = d ∧
      t.regs.flags.getLsbD 0 = false ∧ BitFrame [0] s.regs.flags t.regs.flags ∧
      RegFrame [.tOff, .flags] s t ∧ RunFrame s t

/-- R137: `SET_FREQ` writes `FREQ` and nothing else. -/
def Obligations.SetFreqEffect : Prop :=
  ∀ (d : Word) (s : State), isFinite d = true →
    ∃ t, exec (.setFreq d) s = .next t ∧ regRead t.regs .freq = d ∧ RegFrame [.freq] s t ∧ RunFrame s t

/-- R127: `LD_PRESET` writes the 25 registers of the image of its preset (R125, R126), `T_ON`, `T_OFF`, `HELD` and
`TRIG`, and not `MVOL`, `FREQ` or `STATUS`. -/
def Obligations.LdPresetEffect : Prop :=
  ∀ (p : Preset) (s : State), ∃ t, exec (.ldPreset p) s = .next t ∧
    (∀ e ∈ presetRows p, regRead t.regs e.1 = e.2) ∧
    regRead t.regs .tOn = 0#64 ∧ regRead t.regs .tOff = 0#64 ∧
    t.regs.flags.getLsbD 0 = false ∧ t.regs.flags.getLsbD 1 = false ∧ BitFrame [0, 1] s.regs.flags t.regs.flags ∧
    regRead t.regs .mvol = regRead s.regs .mvol ∧ regRead t.regs .freq = regRead s.regs .freq ∧
    regRead t.regs .status = regRead s.regs .status ∧ RunFrame s t

/-- R128, R56: a legal `WR_CFG` stores exactly what was sent in the register named, and writes nothing else. -/
def Obligations.WrCfgEffect : Prop :=
  ∀ (r : Reg) (d : Word) (s : State), writable r = true → legalData r d = true →
    ∃ t, exec (.wrCfg r d) s = .next t ∧ regRead t.regs r = d ∧ RegFrame [r] s t ∧ RunFrame s t

/-- R130, R55: `RD_REG` answers the register's 64 bits on CP and changes no state, `STATUS` included. -/
def Obligations.RdRegEffect : Prop :=
  ∀ (r : Reg) (s : State), ∃ t, exec (.rdReg r) s = .next t ∧ t.cpResp = s.cpResp ++ [regRead s.regs r] ∧
    { t with cpResp := s.cpResp } = s

/-- R138, R134, R148: a `SAMPLE` with a finite time completes in every state: one response on RP, one draw for each
enabled Noise slot and no other, and no register written but `STATUS`, which can only gain `DSAW` and `NONFIN`. -/
def Obligations.SampleCompletes : Prop :=
  ∀ (d : Word) (s : State), isFinite d = true →
    ∃ t v, exec (.sample d) s = .next t ∧ t.rpResp = s.rpResp ++ [v] ∧ t.cpResp = s.cpResp ∧
      t.cpQueue = s.cpQueue ∧ t.rpQueue = s.rpQueue ∧ t.agenda = s.agenda ∧
      t.draws = s.draws.drop (noiseSlots s.regs) ∧ t.drawCount = s.drawCount + noiseSlots s.regs ∧
      RegFrame [.status] s t ∧ BitFrame [1, 2] s.regs.status t.regs.status ∧
      (∀ j, s.regs.status.getLsbD j = true → t.regs.status.getLsbD j = true)

/-- R92, R123, R124, R138: the response of a `SAMPLE` that raises no fault is `Clamp(EnvAmp * Mix) * MVOL`, operation by
operation: the envelope of R92, and the mix from `ZERO` over the slots 0 to 3 in order, `mix + WEIGHT * Osc(KIND,
MULT * FREQ, t, VDEPTH, VRATE)` for each enabled one, the k-th enabled Noise slot taking the k-th draw (R134). The model's
`EnvAmp` and `Mix` are these values, and no register changes (R148). -/
def Obligations.CleanSampleResponds : Prop :=
  ∀ (d : Word) (s : State), isFinite d = true → SampleClean s d →
    ∃ t, exec (.sample d) s = .next t ∧ t.regs = s.regs ∧ t.freeCount = s.freeCount ∧
      t.rpResp = s.rpResp ++ [outValue s.regs d s.drawAt] ∧
      (numB64.envAmp s.regs d).val = envValue s.regs d ∧
      (numB64.mix s.regs d s.drawAt).mix = mixUpTo s.regs d s.drawAt 4

/-- R152: `SAMPLE` sets `DSAW` exactly when some enabled DigitalSaw slot has `SLOTn_MULT * FREQ <= 0`. -/
def Obligations.DsawIsRaisedExactly : Prop :=
  ∀ (d : Word) (s t : State), isFinite d = true → exec (.sample d) s = .next t →
    (faultBit t.regs .dsaw = true ↔ faultBit s.regs .dsaw = true ∨
      ∃ n : SlotNo, isSawSlot s.regs n = true ∧ le64 (mul64 (s.regs.slot n).mult s.regs.freq) zero64 = true)

/-- R144, R153: under the guard of R175, `SAMPLE` sets `NONFIN` exactly when the value of some operation it performs is
not finite: `t - T_ON`, the ramps, `MULT * FREQ`, the phase `TWO_PI * f * t` and its vibrato term, each oscillator's
operations, `WEIGHT * o`, the running mix, `a * mix`, the clamp and `c * MVOL`. That every value the pseudocode computes
in the branches taken counts, also one not used afterwards, is the model's reading (log entry 20). -/
def Obligations.NonfinIsRaisedExactly : Prop :=
  ∀ (d : Word) (s : State), isFinite d = true → SawGuard s.regs →
    ∃ t, exec (.sample d) s = .next t ∧
      (faultBit t.regs .nonfin = true ↔ faultBit s.regs .nonfin = true ∨
        ∃ v ∈ sampleOps s.regs d s.drawAt, isFinite v = false)

/-- An ill-formed command given to `exec` itself has the effect of an illegal command: `STATUS.ILL`, and for `SAMPLE` the
response 0 and no draw (R85; the model's choice of where the check stands is log entry 14). -/
def Obligations.IllFormedCommandsAreIllegal : Prop :=
  ∀ (i : Instr) (s : State), i.wellFormed = false →
    ∃ t, exec i s = .next t ∧ t.regs.status.getLsbD 0 = true ∧ BitFrame [0] s.regs.status t.regs.status ∧
      RegFrame [.status] s t ∧ t.cpQueue = s.cpQueue ∧ t.rpQueue = s.rpQueue ∧ t.agenda = s.agenda ∧
      t.draws = s.draws ∧ t.drawCount = s.drawCount ∧ t.freeCount = s.freeCount ∧ t.cpResp = s.cpResp ∧
      t.rpResp = (match i with
        | .sample _ => s.rpResp ++ [0#64]
        | _ => s.rpResp)

/-- R59: `NOTE_ON`, `NOTE_OFF`, `SET_FREQ`, `LD_PRESET` and `WR_CFG` are idempotent: executing one twice leaves the
state of executing it once. -/
def Obligations.CommandsAreIdempotent : Prop :=
  ∀ (i : Instr) (s : State), (∀ d, i ≠ .sample d) → (∀ r, i ≠ .rdReg r) →
    ∃ t, exec i s = .next t ∧ exec i t = .next t

/-! ### Whole-machine rules -/

/-- R52: which command writes which register. No legal command changes a register the table gives it no `W` for. -/
def Obligations.OnlyTheTableIsWritten : Prop :=
  ∀ (i : Instr) (s : State) (r : Reg), i.wellFormed = true →
    ∃ t, exec i s = .next t ∧ (regRead t.regs r ≠ regRead s.regs r → mayWrite i r = true)

/-- R170: only a reset clears a `STATUS` bit; every other step keeps the bits that are set. -/
def Obligations.StatusIsSticky : Prop :=
  ∀ (s : State) (j : Nat), (∀ a b, nextTurn s ≠ some (.reset a b)) → s.regs.status.getLsbD j = true →
    ∃ t, step s = .next t ∧ t.regs.status.getLsbD j = true

/-- R47: every step keeps the state invariant: finite values, non-negative durations and multipliers, amplitudes in
[0, 1], legal kinds, `HELD` only with `TRIG`, and the zero bits of the bit-field registers. -/
def Obligations.StepKeepsTheStateInvariant : Prop :=
  ∀ s t : State, s.Inv → step s = .next t → t.Inv

/-- R47: the invariant holds after reset. -/
def Obligations.ResetMeetsTheStateInvariant : Prop := State.reset.Inv

/-- R135: a disabled slot cannot be observed by a `SAMPLE`: whatever its registers hold, the response, the draws, the
faults and every other register are the same. -/
def Obligations.DisabledSlotIsNotObserved : Prop :=
  ∀ (d : Word) (s : State) (n : SlotNo) (sl : SlotRegs Word), (s.regs.slot n).en = false → sl.en = false →
    ∃ t, exec (.sample d) s = .next t ∧
      exec (.sample d) { s with regs := s.regs.setSlot n sl } = .next { t with regs := t.regs.setSlot n sl }

/-- R142: without a fault the output lies in [-MVOL, MVOL], on the hardware and under `NUM_REAL`. -/
def Obligations.OutputWithinMasterVolume : Prop :=
  (∀ (d : Word) (s : State), isFinite d = true → unitOk s.regs.mvol = true → SampleClean s d →
    ∃ t v, exec (.sample d) s = .next t ∧ t.rpResp = s.rpResp ++ [v] ∧ isFinite v = true ∧
      |toRat v| ≤ toRat s.regs.mvol) ∧
  (∀ (undef : ℝ → ℝ → ℝ) (r : Regs ℝ) (t : ℝ) (draw : Nat → ℝ), 0 ≤ r.mvol →
    |((numReal undef).sample r t draw).out| ≤ r.mvol)

/-- R93, R168: while no `NOTE_ON` has executed (`TRIG` = 0) a `SAMPLE` that raises no fault responds with a zero. -/
def Obligations.SilentUntilTriggered : Prop :=
  ∀ (d : Word) (s : State), isFinite d = true → s.regs.flags.getLsbD 1 = false → SampleClean s d →
    ∃ t v, exec (.sample d) s = .next t ∧ t.rpResp = s.rpResp ++ [v] ∧ isFinite v = true ∧ toRat v = 0

/-! ### The envelope (40_envelope.md) -/

/-- R102 (a), (b): `EnvAmp` is 0 or greater than the floor, in both instantiations (where the hardware's is a number). -/
def Obligations.EnvelopeIsZeroOrAboveTheFloor : Prop :=
  (∀ (r : Regs Word) (t : Word), isFinite (numB64.envAmp r t).val = true →
    toRat (numB64.envAmp r t).val = 0 ∨ toRat floor64 < toRat (numB64.envAmp r t).val) ∧
  (∀ (undef : ℝ → ℝ → ℝ) (r : Regs ℝ) (t : ℝ),
    ((numReal undef).envAmp r t).val = 0 ∨ 1 / 10000 < ((numReal undef).envAmp r t).val)

/-- R102 (c): under `NUM_REAL`, with durations not negative and levels in [0, 1], the envelope does not exceed
`max(P, S)` while held, nor `S` from the note-off on. -/
def Obligations.EnvelopeUpperBounds : Prop :=
  ∀ (undef : ℝ → ℝ → ℝ) (r : Regs ℝ) (t : ℝ), 0 ≤ r.envAttack → 0 ≤ r.envDecay → 0 ≤ r.envRelease →
    0 ≤ r.envSustain → r.envSustain ≤ 1 → 0 ≤ r.envStart → r.envStart ≤ 1 →
    (held r = true → ((numReal undef).envAmp r t).val ≤ max r.envStart r.envSustain) ∧
    (held r = false → r.tOff ≤ t → ((numReal undef).envAmp r t).val ≤ r.envSustain)

/-- R95: at the end of the attack the hardware's envelope is exactly `P`, bit for bit. -/
def Obligations.AttackEndsExactlyAtStart : Prop :=
  ∀ (r : Regs Word) (t : Word), trig r = true → held r = true → r.ConfigInv → sub64 t r.tOn = r.envAttack →
    0 < toRat r.envAttack → toRat floor64 < toRat r.envStart → (numB64.envAmp r t).val = r.envStart

/-- R96, R99: the zero-duration attack and release on the hardware, before the floor of R101 is applied. -/
def Obligations.ZeroDurationRamps : Prop :=
  (∀ (r : Regs Word) (t : Word), trig r = true → held r = true → isFinite r.envAttack = true →
    isFinite (sub64 t r.tOn) = true → toRat r.envAttack = 0 →
    (toRat (sub64 t r.tOn) = 0 → (numB64.envAmp r t).val = if le64 r.envStart floor64 then zero64 else r.envStart) ∧
    (toRat (sub64 t r.tOn) < 0 → (numB64.envAmp r t).val = zero64)) ∧
  (∀ (r : Regs Word) (t : Word), trig r = true → held r = false → isFinite r.envRelease = true →
    isFinite t = true → isFinite r.tOff = true → toRat r.envRelease = 0 →
    (toRat t < toRat r.tOff → (numB64.envAmp r t).val = if le64 r.envSustain floor64 then zero64 else r.envSustain) ∧
    (toRat r.tOff ≤ toRat t → (numB64.envAmp r t).val = zero64))

/-- R98, R103 P2: past `A + D` a held note is at `S` exactly, on the hardware (the register's own pattern) and under
`NUM_REAL`, provided `S` exceeds the floor. -/
def Obligations.SustainIsExact : Prop :=
  (∀ (r : Regs Word) (t : Word), trig r = true → held r = true → r.ConfigInv → isFinite (sub64 t r.tOn) = true →
    isFinite (add64 r.envAttack r.envDecay) = true →
    toRat (add64 r.envAttack r.envDecay) < toRat (sub64 t r.tOn) → toRat floor64 < toRat r.envSustain →
    (numB64.envAmp r t).val = r.envSustain) ∧
  (∀ (undef : ℝ → ℝ → ℝ) (r : Regs ℝ) (t : ℝ), trig r = true → held r = true → 0 ≤ r.envDecay →
    r.envAttack + r.envDecay < t - r.tOn → 1 / 10000 < r.envSustain →
    ((numReal undef).envAmp r t).val = r.envSustain)

/-- R95, R97, R103 P1: under `NUM_REAL` the attack is the ramp `((t - T_ON) / A) * P` and the decay the ramp from `P` to
`S`, each where it exceeds the floor, else 0; and the decay reaches exactly `S` at its end. -/
def Obligations.AttackAndDecayAreLinear : Prop :=
  ∀ (undef : ℝ → ℝ → ℝ) (r : Regs ℝ) (t : ℝ), trig r = true → held r = true →
    (0 < r.envAttack → t - r.tOn ≤ r.envAttack →
      ((numReal undef).envAmp r t).val =
        (if (t - r.tOn) / r.envAttack * r.envStart ≤ 1 / 10000 then 0 else (t - r.tOn) / r.envAttack * r.envStart)) ∧
    (r.envAttack < t - r.tOn → t - r.tOn ≤ r.envAttack + r.envDecay →
      ((numReal undef).envAmp r t).val =
        (if (t - r.tOn - r.envAttack) / r.envDecay * (r.envSustain - r.envStart) + r.envStart ≤ 1 / 10000 then 0
          else (t - r.tOn - r.envAttack) / r.envDecay * (r.envSustain - r.envStart) + r.envStart)) ∧
    (0 < r.envDecay → t - r.tOn = r.envAttack + r.envDecay → 1 / 10000 < r.envSustain →
      ((numReal undef).envAmp r t).val = r.envSustain)

/-- R100 (a): at the time of the note-off the hardware's envelope is exactly `S`, bit for bit. -/
def Obligations.ReleaseStartsExactlyAtSustain : Prop :=
  ∀ (r : Regs Word), trig r = true → held r = false → r.ConfigInv → isFinite r.tOff = true →
    0 < toRat r.envRelease → toRat floor64 < toRat r.envSustain → (numB64.envAmp r r.tOff).val = r.envSustain

/-- R100, R103 P3: under `NUM_REAL` the release of duration `R > 0` is the ramp `((t - T_OFF) / R) * (0 - S) + S` where
it exceeds the floor, else 0, at every `t`: it extrapolates above `S` before `T_OFF`, and is silent from `T_OFF + R` on,
for `R = 0` as well and whatever the levels. -/
def Obligations.ReleaseEndsInSilence : Prop :=
  ∀ (undef : ℝ → ℝ → ℝ) (r : Regs ℝ) (t : ℝ), held r = false →
    (trig r = true → 0 < r.envRelease →
      ((numReal undef).envAmp r t).val =
        (if (t - r.tOff) / r.envRelease * (0 - r.envSustain) + r.envSustain ≤ 1 / 10000 then 0
          else (t - r.tOff) / r.envRelease * (0 - r.envSustain) + r.envSustain)) ∧
    (trig r = true → 0 < r.envRelease → 1 / 10000 ≤ r.envSustain → t < r.tOff →
      r.envSustain < ((numReal undef).envAmp r t).val) ∧
    (0 ≤ r.envRelease → 0 ≤ r.envSustain → r.tOff + r.envRelease ≤ t → ((numReal undef).envAmp r t).val = 0)

/-! ### The oscillator (41_oscillator.md) -/

/-- R109: a Square is exactly `+1` or `-1`, for every operand, and it is `+1` exactly where the sine of the phase is
greater than 0: on the hardware wherever the phase is finite, and under `NUM_REAL`. -/
def Obligations.SquareIsPlusOrMinusOne : Prop :=
  (∀ f t vd vr : Word,
    ((numB64.square f t vd vr).val = 0x3FF0000000000000#64 ∨ (numB64.square f t vd vr).val = 0xBFF0000000000000#64) ∧
    (isFinite (numB64.phase f t vd vr).val = true →
      ((numB64.square f t vd vr).val = 0x3FF0000000000000#64 ↔ 0 < toRat (sin64 (numB64.phase f t vd vr).val)))) ∧
  (∀ (undef : ℝ → ℝ → ℝ) (f t vd vr : ℝ),
    (((numReal undef).square f t vd vr).val = 1 ∨ ((numReal undef).square f t vd vr).val = -1) ∧
    (((numReal undef).square f t vd vr).val = 1 ↔
      0 < Real.sin (2 * Real.pi * f * t + vd * f * Real.sin (2 * Real.pi * vr * t))))

/-- R116: on the hardware, where the phase is finite, Sine and Triangle are numbers in [-1, 1]; and so is every draw,
whatever the run prescribes and whatever the generator delivers (R22, R114). -/
def Obligations.HardwareOscillatorRanges : Prop :=
  (∀ f t vd vr : Word, isFinite (numB64.phase f t vd vr).val = true →
    isFinite (numB64.sine f t vd vr).val = true ∧ |toRat (numB64.sine f t vd vr).val| ≤ 1 ∧
    isFinite (numB64.triangle f t vd vr).val = true ∧ |toRat (numB64.triangle f t vd vr).val| ≤ 1) ∧
  ∀ (s : State) (k : Nat), isFinite (s.drawAt k) = true ∧ |toRat (s.drawAt k)| ≤ 1

/-- R108, R110, R111, R116: under `NUM_REAL` the waves and their ranges, with `ph` the phase: Sine is `sin ph`, Triangle
`(2/π) * asin (sin ph)` and Noise the draw, all in [-1, 1]; Square is one of -1 and +1; AnalogSaw is the nine-term series
`(2/π) * Σ sin(n*ph)/n`, in [-G, G] with `G` its value at `ph = π/10`, 1.0773120015895...; DigitalSaw lies in [-1, 1) for
`f > 0`. -/
def Obligations.RealOscillatorRanges : Prop :=
  (∀ (undef : ℝ → ℝ → ℝ) (f t vd vr draw : ℝ), |draw| ≤ 1 →
    ((numReal undef).osc .sine f t vd vr draw).val = Real.sin ((numReal undef).phase f t vd vr).val ∧
    |((numReal undef).osc .sine f t vd vr draw).val| ≤ 1 ∧
    ((numReal undef).osc .triangle f t vd vr draw).val =
      2 / Real.pi * Real.arcsin (Real.sin ((numReal undef).phase f t vd vr).val) ∧
    |((numReal undef).osc .triangle f t vd vr draw).val| ≤ 1 ∧
    |((numReal undef).osc .square f t vd vr draw).val| = 1 ∧
    ((numReal undef).osc .analogSaw f t vd vr draw).val =
      2 / Real.pi * ∑ n ∈ Finset.Icc (1 : ℕ) 9, Real.sin (n * ((numReal undef).phase f t vd vr).val) / n ∧
    |((numReal undef).osc .analogSaw f t vd vr draw).val| ≤ sawPeak ∧
    ((numReal undef).osc .noise f t vd vr draw).val = draw ∧
    |((numReal undef).osc .noise f t vd vr draw).val| ≤ 1 ∧
    (0 < f → -1 ≤ ((numReal undef).osc .digitalSaw f t vd vr draw).val ∧
      ((numReal undef).osc .digitalSaw f t vd vr draw).val < 1)) ∧
  1.0773120015895 ≤ sawPeak ∧ sawPeak < 1.0773120015896

/-- R119: without vibrato every kind but Noise has period `1/f` under `NUM_REAL`; AnalogSaw is 0 at `t = 0`, DigitalSaw
is -1 there and 0 at `t = 1/(2f)`. -/
def Obligations.OscillatorsArePeriodic : Prop :=
  ∀ (undef : ℝ → ℝ → ℝ) (f vr draw : ℝ), 0 < f →
    (∀ (k : Kind) (t : ℝ), k ≠ .noise →
      ((numReal undef).osc k f (t + 1 / f) 0 vr draw).val = ((numReal undef).osc k f t 0 vr draw).val) ∧
    ((numReal undef).osc .analogSaw f 0 0 vr draw).val = 0 ∧
    ((numReal undef).osc .digitalSaw f 0 0 vr draw).val = -1 ∧
    ((numReal undef).osc .digitalSaw f (1 / (2 * f)) 0 vr draw).val = 0

/-- R112: under `NUM_REAL` a DigitalSaw with `f > 0` is `2*f*m - 1` with `m` the floored remainder of `t` by `1/f`. -/
def Obligations.DigitalSawIsTheFlooredRamp : Prop :=
  ∀ (undef : ℝ → ℝ → ℝ) (f t : ℝ), 0 < f →
    ((numReal undef).digitalSaw f t).val = 2 * f * (t - 1 / f * (⌊t * f⌋ : ℝ)) - 1

/-- R117: under `NUM_REAL`, at frequency 0 the phase is 0 whatever the other operands; Sine, Triangle and AnalogSaw are
0, Square is -1, Noise is the draw, and an enabled DigitalSaw slot violates DSAW. -/
def Obligations.FrequencyZero : Prop :=
  ∀ (undef : ℝ → ℝ → ℝ) (t vd vr draw : ℝ),
    ((numReal undef).phase 0 t vd vr).val = 0 ∧ ((numReal undef).osc .sine 0 t vd vr draw).val = 0 ∧
    ((numReal undef).osc .square 0 t vd vr draw).val = -1 ∧ ((numReal undef).osc .triangle 0 t vd vr draw).val = 0 ∧
    ((numReal undef).osc .analogSaw 0 t vd vr draw).val = 0 ∧
    ((numReal undef).osc .noise 0 t vd vr draw).val = draw ∧
    (numReal undef).dsawViolated .digitalSaw 0 = true

/-- R118: under `NUM_REAL`, negating the frequency negates the phase, Sine, Triangle and AnalogSaw, and negates Square
except where the sine is exactly 0, where both are -1. -/
def Obligations.NegativeFrequency : Prop :=
  ∀ (undef : ℝ → ℝ → ℝ) (f t vd vr : ℝ),
    ((numReal undef).phase (-f) t vd vr).val = -((numReal undef).phase f t vd vr).val ∧
    ((numReal undef).sine (-f) t vd vr).val = -((numReal undef).sine f t vd vr).val ∧
    ((numReal undef).triangle (-f) t vd vr).val = -((numReal undef).triangle f t vd vr).val ∧
    ((numReal undef).analogSaw (-f) t vd vr).val = -((numReal undef).analogSaw f t vd vr).val ∧
    (((numReal undef).sine f t vd vr).val ≠ 0 →
      ((numReal undef).square (-f) t vd vr).val = -((numReal undef).square f t vd vr).val) ∧
    (((numReal undef).sine f t vd vr).val = 0 →
      ((numReal undef).square (-f) t vd vr).val = -1 ∧ ((numReal undef).square f t vd vr).val = -1)

/-- R106, R107: the phase is `TWO_PI*f*t + vd*f*sin(TWO_PI*vr*t)`, under `NUM_REAL` for every operand, and on the hardware,
operation by operation, for every depth not 0. With depth 0 it is `(TWO_PI * f) * t` by value, whatever the rate: exactly
under `NUM_REAL`, and on the hardware wherever every value of the phase computed is finite, whether it skips the vibrato
term or not. -/
def Obligations.NoVibratoPhase : Prop :=
  (∀ (undef : ℝ → ℝ → ℝ) (f t vd vr : ℝ),
    ((numReal undef).phase f t vd vr).val = 2 * Real.pi * f * t + vd * f * Real.sin (2 * Real.pi * vr * t)) ∧
  (∀ f t vd vr : Word, isFinite vd = true → toRat vd ≠ 0 →
    (numB64.phase f t vd vr).val = add64 (mul64 (mul64 0x401921FB54442D18#64 f) t)
      (mul64 (mul64 vd f) (sin64 (mul64 (mul64 0x401921FB54442D18#64 vr) t)))) ∧
  (∀ (undef : ℝ → ℝ → ℝ) (f t vr : ℝ), ((numReal undef).phase f t 0 vr).val = 2 * Real.pi * f * t) ∧
  (∀ f t vd vr : Word, isFinite vd = true → toRat vd = 0 → isFinite f = true → isFinite t = true →
    isFinite vr = true → (∀ v ∈ phaseOps f t vd vr, isFinite v = true) →
    toRat (numB64.phase f t vd vr).val = toRat (mul64 (mul64 0x401921FB54442D18#64 f) t))

/-! ### The mix (42_voice_mixer.md) -/

/-- R132: under `NUM_REAL`, when no enabled slot violates DSAW, the mix does not exceed in magnitude the sum over the
enabled slots of `|WEIGHT| * B(kind)`, with `B` = 1 for every kind but AnalogSaw and `G` = 1.0773... for AnalogSaw. -/
def Obligations.MixIsBoundedByTheWeights : Prop :=
  ∀ (undef : ℝ → ℝ → ℝ) (r : Regs ℝ) (t : ℝ) (draw : Nat → ℝ), (∀ k, |draw k| ≤ 1) →
    (∀ sl ∈ r.slotList, sl.en = true → sl.kind = some .digitalSaw → 0 < sl.mult * r.freq) →
    |((numReal undef).mix r t draw).mix| ≤
      ((r.slotList.filter SlotRegs.en).map fun sl => |sl.weight| * kindBound sl.kind).sum

/-! ### The arithmetic (00_scope.md) -/

/-- R11: addition, subtraction, multiplication and division of finite values, where the result is finite, give the value
nearest to the exact result, ties to even. -/
def Obligations.OperationsRoundToNearestEven : Prop :=
  ∀ x y : Word, isFinite x = true → isFinite y = true →
    (isFinite (add64 x y) = true → IsNearestEven (toRat x + toRat y) (add64 x y)) ∧
    (isFinite (sub64 x y) = true → IsNearestEven (toRat x - toRat y) (sub64 x y)) ∧
    (isFinite (mul64 x y) = true → IsNearestEven (toRat x * toRat y) (mul64 x y)) ∧
    (toRat y ≠ 0 → isFinite (div64 x y) = true → IsNearestEven (toRat x / toRat y) (div64 x y))

/-- R11: an operation on finite values overflows exactly when the exact result reaches the midpoint between the largest
finite value and 2^1024 (IEEE 754 round to nearest, ties to even; log entry 1). -/
def Obligations.OverflowThreshold : Prop :=
  ∀ x y : Word, isFinite x = true → isFinite y = true →
    (isFinite (add64 x y) = false ↔ (2 : ℚ) ^ 1024 - 2 ^ 970 ≤ |toRat x + toRat y|) ∧
    (isFinite (sub64 x y) = false ↔ (2 : ℚ) ^ 1024 - 2 ^ 970 ≤ |toRat x - toRat y|) ∧
    (isFinite (mul64 x y) = false ↔ (2 : ℚ) ^ 1024 - 2 ^ 970 ≤ |toRat x * toRat y|) ∧
    (toRat y ≠ 0 → (isFinite (div64 x y) = false ↔ (2 : ℚ) ^ 1024 - 2 ^ 970 ≤ |toRat x / toRat y|))

/-- R9, R11: `fmod(x, p)` is exactly `x - p*trunc(x/p)`, and has the sign of `x`. -/
def Obligations.FmodIsExact : Prop :=
  ∀ x p : Word, isFinite x = true → isFinite p = true → toRat p ≠ 0 →
    isFinite (fmod64 x p) = true ∧ signBit (fmod64 x p) = signBit x ∧
    toRat (fmod64 x p) =
      toRat x - toRat p * (if 0 ≤ toRat x / toRat p then (⌊toRat x / toRat p⌋ : ℚ) else (⌈toRat x / toRat p⌉ : ℚ))

/-- R11, R13: the comparisons are those of the values, and the constants are the patterns the rules name: `FLOOR` is the
binary64 nearest 1e-4, `ONE` and `TWO` are 1 and 2, and the derived constants come out of the operations. -/
def Obligations.ComparisonsAndConstants : Prop :=
  (∀ x y : Word, isFinite x = true → isFinite y = true →
    (le64 x y = true ↔ toRat x ≤ toRat y) ∧ (lt64 x y = true ↔ toRat x < toRat y)) ∧
  numB64.twoPi = 0x401921FB54442D18#64 ∧ numB64.twoOverPi = 0x3FE45F306DC9C883#64 ∧
  numB64.halfPi = 0x3FF921FB54442D18#64 ∧ toRat one64 = 1 ∧ toRat two64 = 2 ∧ IsNearestEven (1 / 10000) floor64

/-- R12: the promises S1, S2, A1 and A2 of the hardware's sine and arcsine. -/
def Obligations.SineAndArcsinePromises : Prop :=
  (∀ x : Word, isFinite x = true → isFinite (sin64 x) = true ∧ |toRat (sin64 x)| ≤ 1) ∧
  sin64 0x0000000000000000#64 = 0x0000000000000000#64 ∧ sin64 0x8000000000000000#64 = 0x8000000000000000#64 ∧
  (∀ y : Word, isFinite y = true → |toRat y| ≤ 1 →
    isFinite (asin64 y) = true ∧ |toRat (asin64 y)| ≤ toRat (div64 pi64 two64)) ∧
  asin64 0x0000000000000000#64 = 0x0000000000000000#64 ∧ asin64 0x8000000000000000#64 = 0x8000000000000000#64 ∧
  asin64 one64 = div64 pi64 two64 ∧ asin64 0xBFF0000000000000#64 = neg64 (div64 pi64 two64)

/-- R88: a decimal literal becomes the nearest binary64, ties to even, wherever it does not overflow. -/
def Obligations.LiteralsAreNearest : Prop :=
  ∀ (neg : Bool) (digits : Nat) (e : Int), isFinite (ofDecimal neg digits e) = true →
    IsNearestEven ((if neg then -1 else 1) * digits * (10 : ℚ) ^ e) (ofDecimal neg digits e)

/-! ### The two instantiations, and the bounds of R144 -/

/-- R10, R55, R70, R130: but for `SAMPLE`, which computes, every command does the same under both instantiations. Reading
the registers as exact real numbers commutes with executing it; `RD_REG` answers one word on CP, which stands for the
reference's answer, the register's value; and every other command answers nothing under either. -/
def Obligations.HardwareRefinesTheReference : Prop :=
  ∀ (fr : RealFree) (i : Instr) (s : State), (∀ d, i ≠ .sample d) →
    ∃ t, exec i s = .next t ∧ (execReal fr i (s.regs.map toReal)).1 = t.regs.map toReal ∧ t.rpResp = s.rpResp ∧
      (∀ r, i = .rdReg r → ∃ w, t.cpResp = s.cpResp ++ [w] ∧
        (execReal fr i (s.regs.map toReal)).2 = some (answerReal r w) ∧
        answerReal r w = (s.regs.map toReal).read r) ∧
      ((∀ r, i ≠ .rdReg r) → t.cpResp = s.cpResp ∧ (execReal fr i (s.regs.map toReal)).2 = none)

/-- R144: within the operand bounds of the rule, and with the guard of R175, no value a `SAMPLE` computes overflows, so
it raises no fault. The rule bounds durations below only; they are times, so they are read as below 1e6 seconds as well
(log entry 21). -/
def Obligations.NoNonfinWithinTheBounds : Prop :=
  ∀ (d : Word) (s : State), s.Inv → WithinBounds s.regs d → SawGuard s.regs →
    ∃ t, exec (.sample d) s = .next t ∧ t.regs.status = s.regs.status
end

