-- ==== Sys2Proof/Laws/AnalogSaw.lean ====
section
/-! SUPPORT. The AnalogSaw series of nine terms over the reals (41_oscillator.md R111, R116): its greatest magnitude is its
value at a phase of pi/10, and that value in decimals. The derivative changes sign at the odd tenths and the even ninths of
pi, so each arch of the series peaks at an odd tenth; the five peaks are compared exactly. -/

namespace Sys2Proof.Laws.AnalogSaw

open Real

/-- The nine-term series, before the scale `2/pi` (R111). -/
noncomputable def sawSeries (x : ℝ) : ℝ := ∑ n ∈ Finset.Icc (1 : ℕ) 9, sin (n * x) / n

theorem sawSeries_expand (x : ℝ) :
    sawSeries x = sin x + sin (2 * x) / 2 + sin (3 * x) / 3 + sin (4 * x) / 4 + sin (5 * x) / 5 + sin (6 * x) / 6 +
      sin (7 * x) / 7 + sin (8 * x) / 8 + sin (9 * x) / 9 := by
  unfold sawSeries
  simp [Finset.sum_Icc_succ_top]

theorem sawSeries_neg (x : ℝ) : sawSeries (-x) = -sawSeries x := by
  unfold sawSeries
  rw [← Finset.sum_neg_distrib]
  exact Finset.sum_congr rfl fun n _ => by rw [mul_neg, Real.sin_neg, neg_div]

theorem sawSeries_sub_turns (x : ℝ) (k : ℤ) : sawSeries (x - k * (2 * π)) = sawSeries x := by
  unfold sawSeries
  refine Finset.sum_congr rfl fun n _ => ?_
  rw [show (n : ℝ) * (x - k * (2 * π)) = n * x - ((n * k : ℤ) : ℝ) * (2 * π) by push_cast; ring,
    Real.sin_sub_int_mul_two_pi]

/-! ### The sign of the derivative -/

theorem hasDerivAt_sawSeries (x : ℝ) : HasDerivAt sawSeries (∑ n ∈ Finset.Icc (1 : ℕ) 9, cos (n * x)) x := by
  unfold sawSeries
  refine HasDerivAt.fun_sum fun n hn => ?_
  have hn0 : (n : ℝ) ≠ 0 := by have := (Finset.mem_Icc.1 hn).1; positivity
  have h := ((hasDerivAt_id x).const_mul (n : ℝ)).sin.div_const (n : ℝ)
  have e : cos (n * x) = cos (n * id x) * (n * 1) / n := by rw [mul_one, mul_div_assoc, div_self hn0, mul_one]; rfl
  rw [e]; exact h

theorem continuousOn_sawSeries (s : Set ℝ) : ContinuousOn sawSeries s :=
  fun x _ => (hasDerivAt_sawSeries x).continuousAt.continuousWithinAt

theorem two_sin_mul_sum_cos (y : ℝ) (m : ℕ) :
    2 * sin y * ∑ n ∈ Finset.Icc 1 m, cos (n * (2 * y)) = sin ((2 * m + 1) * y) - sin y := by
  induction m with
  | zero => simp
  | succ m ih =>
    rw [Finset.sum_Icc_succ_top (by omega), mul_add, ih]
    have h := Real.sin_sub_sin ((2 * (m + 1 : ℕ) + 1) * y) ((2 * m + 1) * y)
    have e1 : ((2 * ((m + 1 : ℕ) : ℝ) + 1) * y - (2 * m + 1) * y) / 2 = y := by push_cast; ring
    have e2 : ((2 * ((m + 1 : ℕ) : ℝ) + 1) * y + (2 * m + 1) * y) / 2 = ((m + 1 : ℕ) : ℝ) * (2 * y) := by
      push_cast; ring
    rw [e1, e2] at h
    linarith

/-- The derivative in closed form. -/
theorem sin_half_mul_sum_cos (x : ℝ) :
    sin (x / 2) * ∑ n ∈ Finset.Icc (1 : ℕ) 9, cos (n * x) = cos (5 * x) * sin (9 * x / 2) := by
  have h := two_sin_mul_sum_cos (x / 2) 9
  have e1 : ((2 * ((9 : ℕ) : ℝ) + 1) * (x / 2) - x / 2) / 2 = 9 * x / 2 := by push_cast; ring
  have e2 : ((2 * ((9 : ℕ) : ℝ) + 1) * (x / 2) + x / 2) / 2 = 5 * x := by push_cast; ring
  rw [Real.sin_sub_sin, e1, e2, mul_div_cancel₀ x (two_ne_zero)] at h
  linarith

/-- Its sign on an arc of quarter turns of `5x` and half turns of `9x/2`. -/
theorem sign_of_deriv {x : ℝ} {j l : ℕ} (h0 : 0 < x) (hp : x < π) (h1 : (j - 1 / 2) * π ≤ 5 * x)
    (h2 : 5 * x ≤ (j + 1 / 2) * π) (h3 : l * π ≤ 9 * x / 2) (h4 : 9 * x / 2 ≤ (l + 1) * π) :
    0 ≤ (-1) ^ (j + l) * ∑ n ∈ Finset.Icc (1 : ℕ) 9, cos (n * x) := by
  have hs : 0 < sin (x / 2) := Real.sin_pos_of_pos_of_lt_pi (by linarith) (by linarith)
  have a := Real.cos_nonneg_of_neg_pi_div_two_le_of_le (x := 5 * x - j * π) (by linarith) (by linarith)
  have b := Real.sin_nonneg_of_nonneg_of_le_pi (x := 9 * x / 2 - l * π) (by linarith) (by linarith)
  rw [Real.cos_sub_nat_mul_pi] at a
  rw [Real.sin_sub_nat_mul_pi] at b
  have key : 0 ≤ sin (x / 2) * ((-1) ^ (j + l) * ∑ n ∈ Finset.Icc (1 : ℕ) 9, cos (n * x)) := by
    rw [mul_left_comm, sin_half_mul_sum_cos, pow_add]
    linarith [mul_nonneg a b]
  exact nonneg_of_mul_nonneg_right key hs

/-! ### The arches, from `2l*pi/9` over `(2l+1)*pi/10` to `2(l+1)*pi/9` -/

theorem sawSeries_rises {l : ℕ} {x y : ℝ} (hl : l ≤ 4) (hx : 2 * l * π / 9 ≤ x) (hxy : x ≤ y)
    (hy : y ≤ (2 * l + 1) * π / 10) : sawSeries x ≤ sawSeries y := by
  have hp := Real.pi_pos
  have hl' : (l : ℝ) ≤ 4 := by exact_mod_cast hl
  have hl0 : 0 ≤ 2 * (l : ℝ) * π / 9 := by positivity
  refine monotoneOn_of_deriv_nonneg (convex_Icc (2 * l * π / 9) ((2 * l + 1) * π / 10)) (continuousOn_sawSeries _)
    (fun z _ => (hasDerivAt_sawSeries z).differentiableAt.differentiableWithinAt) ?_ ⟨hx, hxy.trans hy⟩
    ⟨hx.trans hxy, hy⟩ hxy
  intro z hz
  rw [interior_Icc] at hz
  obtain ⟨ha, hb⟩ := hz
  rw [(hasDerivAt_sawSeries z).deriv]
  have h := sign_of_deriv (x := z) (j := l) (l := l) (by linarith) (by nlinarith) (by nlinarith) (by linarith)
    (by linarith) (by nlinarith)
  rwa [← two_mul, pow_mul, neg_one_sq, one_pow, one_mul] at h

theorem sawSeries_falls {l : ℕ} {x y : ℝ} (hx : (2 * l + 1) * π / 10 ≤ x) (hxy : x ≤ y)
    (hy : y ≤ 2 * (l + 1) * π / 9) (hyp : y ≤ π) : sawSeries y ≤ sawSeries x := by
  have hp := Real.pi_pos
  have hl0 : 0 ≤ (2 * (l : ℝ) + 1) * π / 10 := by positivity
  have hlp : 0 ≤ (l : ℝ) * π := by positivity
  refine antitoneOn_of_deriv_nonpos (convex_Icc ((2 * l + 1) * π / 10) y) (continuousOn_sawSeries _)
    (fun z _ => (hasDerivAt_sawSeries z).differentiableAt.differentiableWithinAt) ?_ ⟨hx, hxy⟩ ⟨hx.trans hxy, le_rfl⟩
    hxy
  intro z hz
  rw [interior_Icc] at hz
  obtain ⟨ha, hb⟩ := hz
  rw [(hasDerivAt_sawSeries z).deriv]
  have h := sign_of_deriv (x := z) (j := l + 1) (l := l) (by linarith) (by linarith) (by push_cast; linarith)
    (by push_cast; nlinarith) (by nlinarith) (by linarith)
  rw [show l + 1 + l = 2 * l + 1 by ring, pow_succ, pow_mul, neg_one_sq, one_pow] at h
  linarith

theorem sawSeries_le_of_arch {l : ℕ} {x : ℝ} (hl : l ≤ 4) (hx : 2 * l * π / 9 ≤ x) (hy : x ≤ 2 * (l + 1) * π / 9)
    (hyp : x ≤ π) : sawSeries x ≤ sawSeries ((2 * l + 1) * π / 10) := by
  rcases le_total x ((2 * l + 1) * π / 10) with h | h
  · exact sawSeries_rises hl hx h le_rfl
  · exact sawSeries_falls le_rfl h hy hyp

/-! ### The sines of the tenths of pi, by those of pi/5 -/

noncomputable def sinFifth : ℝ := sin (π / 5)

noncomputable def cosFifth : ℝ := cos (π / 5)

theorem cosFifth_eq : cosFifth = (1 + √5) / 4 := Real.cos_pi_div_five

theorem cosFifth_bounds : (0.8090169943749474 : ℝ) < cosFifth ∧ cosFifth < 0.80901699437494743 := by
  have h1 : (2.23606797749978969 : ℝ) < √5 := Real.lt_sqrt_of_sq_lt (by norm_num)
  have h2 : √5 < (2.2360679774997897 : ℝ) := (Real.sqrt_lt' (by norm_num)).2 (by norm_num)
  rw [cosFifth_eq]
  constructor <;> linarith

theorem cosFifth_sq : cosFifth ^ 2 = cosFifth / 2 + 1 / 4 := by
  rw [cosFifth_eq]
  have := Real.sq_sqrt (show (0 : ℝ) ≤ 5 by norm_num)
  nlinarith

theorem sinFifth_bounds : (0.58778525229247312 : ℝ) < sinFifth ∧ sinFifth < 0.58778525229247319 := by
  have h : sinFifth ^ 2 = 1 - cosFifth ^ 2 := Real.sin_sq _
  rw [cosFifth_sq] at h
  have := cosFifth_bounds
  have : 0 < sinFifth := Real.sin_pos_of_pos_of_lt_pi (by positivity) (by linarith [Real.pi_pos])
  constructor <;> nlinarith

theorem sin_tenth_one : sin (π / 10) = cosFifth - 1 / 2 := by
  have : cos (2 * (π / 5)) = sin (π / 10) := by rw [← Real.cos_pi_div_two_sub]; ring_nf
  rw [← this, Real.cos_two_mul]
  have := cosFifth_sq
  unfold cosFifth at *
  linarith

theorem sin_tenth_two : sin (2 * (π / 10)) = sinFifth := by rw [sinFifth]; ring_nf

theorem sin_tenth_three : sin (3 * (π / 10)) = cosFifth := by rw [← Real.cos_pi_div_two_sub, cosFifth]; ring_nf

theorem sin_tenth_four : sin (4 * (π / 10)) = 2 * sinFifth * cosFifth := by
  rw [show 4 * (π / 10) = 2 * (π / 5) by ring, Real.sin_two_mul]; rfl

theorem sin_tenth_five : sin (5 * (π / 10)) = 1 := by
  rw [show 5 * (π / 10) = π / 2 by ring, Real.sin_pi_div_two]

theorem sin_tenth_reflect (k m : ℕ) (h : k + m = 10) : sin (k * (π / 10)) = sin (m * (π / 10)) := by
  rw [← Real.sin_pi_sub]
  congr 1
  have : (k : ℝ) + m = 10 := by exact_mod_cast h
  linear_combination -(π / 10) * this

/-- `sin(r*pi/10)` for `r` from 0 to 9. -/
noncomputable def sinTenths : List ℝ :=
  [0, cosFifth - 1 / 2, sinFifth, cosFifth, 2 * sinFifth * cosFifth, 1, 2 * sinFifth * cosFifth, cosFifth, sinFifth,
    cosFifth - 1 / 2]

theorem sin_tenth_table (r : ℕ) (h : r < 10) : sin (r * (π / 10)) = sinTenths.getD r 0 := by
  have h6 := sin_tenth_reflect 6 4 rfl
  have h7 := sin_tenth_reflect 7 3 rfl
  have h8 := sin_tenth_reflect 8 2 rfl
  have h9 := sin_tenth_reflect 9 1 rfl
  push_cast at h6 h7 h8 h9
  rw [sin_tenth_four] at h6
  rw [sin_tenth_three] at h7
  rw [sin_tenth_two] at h8
  rw [one_mul, sin_tenth_one] at h9
  interval_cases r <;>
    simp [sinTenths, sin_tenth_one, sin_tenth_two, sin_tenth_three, sin_tenth_four, sin_tenth_five, h6, h7, h8, h9]

/-- The sine of any number of tenths, by half turns. -/
theorem sin_tenth (k q r : ℕ) (h : k = 10 * q + r) (hr : r < 10) :
    sin (k * (π / 10)) = (-1) ^ q * sinTenths.getD r 0 := by
  rw [h, ← sin_tenth_table r hr, ← Real.sin_add_nat_mul_pi]
  congr 1
  push_cast; ring

theorem sawSeries_tenth (m : ℕ) :
    sawSeries (m * π / 10) = sin (m * (π / 10)) + sin ((2 * m : ℕ) * (π / 10)) / 2 + sin ((3 * m : ℕ) * (π / 10)) / 3 +
      sin ((4 * m : ℕ) * (π / 10)) / 4 + sin ((5 * m : ℕ) * (π / 10)) / 5 + sin ((6 * m : ℕ) * (π / 10)) / 6 +
      sin ((7 * m : ℕ) * (π / 10)) / 7 + sin ((8 * m : ℕ) * (π / 10)) / 8 + sin ((9 * m : ℕ) * (π / 10)) / 9 := by
  rw [sawSeries_expand]
  push_cast
  simp only [mul_div_assoc, mul_assoc]

/-! ### The five peaks -/

theorem sawSeries_peak :
    sawSeries (π / 10) =
      (cosFifth - 1 / 2) * (10 / 9) + sinFifth * (5 / 8) + cosFifth * (10 / 21) + 2 * sinFifth * cosFifth * (5 / 12) +
        1 / 5 := by
  have := sawSeries_tenth 1
  rw [Nat.cast_one, one_mul] at this
  rw [this, one_mul, sin_tenth_one, sin_tenth (2 * 1) 0 2 rfl (by norm_num), sin_tenth (3 * 1) 0 3 rfl (by norm_num),
    sin_tenth (4 * 1) 0 4 rfl (by norm_num), sin_tenth (5 * 1) 0 5 rfl (by norm_num),
    sin_tenth (6 * 1) 0 6 rfl (by norm_num), sin_tenth (7 * 1) 0 7 rfl (by norm_num),
    sin_tenth (8 * 1) 0 8 rfl (by norm_num), sin_tenth (9 * 1) 0 9 rfl (by norm_num)]
  simp [sinTenths]
  ring

theorem sawSeries_peak_gt : 1.5 < sawSeries (π / 10) := by
  rw [sawSeries_peak]
  have := cosFifth_bounds; have := sinFifth_bounds
  nlinarith

theorem sawSeries_peak_one : sawSeries ((3 : ℕ) * π / 10) ≤ sawSeries (π / 10) := by
  rw [sawSeries_peak, sawSeries_tenth, sin_tenth 3 0 3 rfl (by norm_num), sin_tenth (2 * 3) 0 6 rfl (by norm_num),
    sin_tenth (3 * 3) 0 9 rfl (by norm_num), sin_tenth (4 * 3) 1 2 rfl (by norm_num),
    sin_tenth (5 * 3) 1 5 rfl (by norm_num), sin_tenth (6 * 3) 1 8 rfl (by norm_num),
    sin_tenth (7 * 3) 2 1 rfl (by norm_num), sin_tenth (8 * 3) 2 4 rfl (by norm_num),
    sin_tenth (9 * 3) 2 7 rfl (by norm_num)]
  simp [sinTenths]
  have := cosFifth_bounds; have := sinFifth_bounds
  nlinarith

theorem sawSeries_peak_two : sawSeries ((5 : ℕ) * π / 10) ≤ sawSeries (π / 10) := by
  rw [sawSeries_peak, sawSeries_tenth, sin_tenth 5 0 5 rfl (by norm_num), sin_tenth (2 * 5) 1 0 rfl (by norm_num),
    sin_tenth (3 * 5) 1 5 rfl (by norm_num), sin_tenth (4 * 5) 2 0 rfl (by norm_num),
    sin_tenth (5 * 5) 2 5 rfl (by norm_num), sin_tenth (6 * 5) 3 0 rfl (by norm_num),
    sin_tenth (7 * 5) 3 5 rfl (by norm_num), sin_tenth (8 * 5) 4 0 rfl (by norm_num),
    sin_tenth (9 * 5) 4 5 rfl (by norm_num)]
  simp [sinTenths]
  have := cosFifth_bounds; have := sinFifth_bounds
  nlinarith

theorem sawSeries_peak_three : sawSeries ((7 : ℕ) * π / 10) ≤ sawSeries (π / 10) := by
  rw [sawSeries_peak, sawSeries_tenth, sin_tenth 7 0 7 rfl (by norm_num), sin_tenth (2 * 7) 1 4 rfl (by norm_num),
    sin_tenth (3 * 7) 2 1 rfl (by norm_num), sin_tenth (4 * 7) 2 8 rfl (by norm_num),
    sin_tenth (5 * 7) 3 5 rfl (by norm_num), sin_tenth (6 * 7) 4 2 rfl (by norm_num),
    sin_tenth (7 * 7) 4 9 rfl (by norm_num), sin_tenth (8 * 7) 5 6 rfl (by norm_num),
    sin_tenth (9 * 7) 6 3 rfl (by norm_num)]
  simp [sinTenths]
  have := cosFifth_bounds; have := sinFifth_bounds
  nlinarith

theorem sawSeries_peak_four : sawSeries ((9 : ℕ) * π / 10) ≤ sawSeries (π / 10) := by
  rw [sawSeries_peak, sawSeries_tenth, sin_tenth 9 0 9 rfl (by norm_num), sin_tenth (2 * 9) 1 8 rfl (by norm_num),
    sin_tenth (3 * 9) 2 7 rfl (by norm_num), sin_tenth (4 * 9) 3 6 rfl (by norm_num),
    sin_tenth (5 * 9) 4 5 rfl (by norm_num), sin_tenth (6 * 9) 5 4 rfl (by norm_num),
    sin_tenth (7 * 9) 6 3 rfl (by norm_num), sin_tenth (8 * 9) 7 2 rfl (by norm_num),
    sin_tenth (9 * 9) 8 1 rfl (by norm_num)]
  simp [sinTenths]
  have := cosFifth_bounds; have := sinFifth_bounds
  nlinarith

theorem sawSeries_peaks_le {l : ℕ} (hl : l ≤ 4) : sawSeries ((2 * l + 1) * π / 10) ≤ sawSeries (π / 10) := by
  have a := sawSeries_peak_one
  have b := sawSeries_peak_two
  have c := sawSeries_peak_three
  have d := sawSeries_peak_four
  push_cast at a b c d
  interval_cases l
  · norm_num
  · convert a using 2; push_cast; ring
  · convert b using 2; push_cast; ring
  · convert c using 2; push_cast; ring
  · convert d using 2; push_cast; ring

/-! ### The valleys, bounded roughly -/

theorem sin_ninth_mirror (q k m : ℕ) (h : k + m = 9) : sin (m * (2 * q * π / 9)) = -sin (k * (2 * q * π / 9)) := by
  rw [← Real.sin_nat_mul_two_pi_sub _ q]
  congr 1
  have : (k : ℝ) + m = 9 := by exact_mod_cast h
  linear_combination (2 * q * π / 9) * this

theorem neg_peak_le_sawSeries_ninth (q : ℕ) (hq : q ≤ 4) : -sawSeries (π / 10) ≤ sawSeries (2 * q * π / 9) := by
  have h9 := sin_ninth_mirror q 0 9 rfl
  have h8 := sin_ninth_mirror q 1 8 rfl
  have h7 := sin_ninth_mirror q 2 7 rfl
  have h6 := sin_ninth_mirror q 3 6 rfl
  have h5 := sin_ninth_mirror q 4 5 rfl
  push_cast at *
  rw [zero_mul, Real.sin_zero, neg_zero] at h9
  rw [one_mul] at h8
  have hp := Real.pi_pos
  have hq' : (q : ℝ) ≤ 4 := by exact_mod_cast hq
  have : 0 ≤ sin (2 * q * π / 9) := Real.sin_nonneg_of_nonneg_of_le_pi (by positivity) (by nlinarith)
  have a := Real.neg_one_le_sin (2 * (2 * q * π / 9))
  have b := Real.neg_one_le_sin (3 * (2 * q * π / 9))
  have c := Real.neg_one_le_sin (4 * (2 * q * π / 9))
  have := sawSeries_peak_gt
  rw [sawSeries_expand (2 * q * π / 9), h9, h8, h7, h6, h5]
  linarith

/-! ### The range -/

theorem abs_sawSeries_le_of_arch {l : ℕ} {x : ℝ} (hl : l ≤ 4) (h1 : 2 * l * π / 9 ≤ x) (h2 : x ≤ 2 * (l + 1) * π / 9)
    (hp : x ≤ π) : |sawSeries x| ≤ sawSeries (π / 10) := by
  have hpi := Real.pi_pos
  rw [abs_le]
  refine ⟨?_, (sawSeries_le_of_arch hl h1 h2 hp).trans (sawSeries_peaks_le hl)⟩
  rcases le_total x ((2 * l + 1) * π / 10) with h | h
  · exact (neg_peak_le_sawSeries_ninth l hl).trans (sawSeries_rises hl le_rfl h1 h)
  · by_cases h4 : l ≤ 3
    · have h4' : (l : ℝ) ≤ 3 := by exact_mod_cast h4
      have := neg_peak_le_sawSeries_ninth (l + 1) (by omega)
      push_cast at this
      exact this.trans (sawSeries_falls h h2 le_rfl (by nlinarith))
    · obtain rfl : l = 4 := by omega
      have hend : sawSeries π = 0 :=
        Finset.sum_eq_zero fun n _ => by rw [Real.sin_nat_mul_pi, zero_div]
      have := sawSeries_falls h hp (by push_cast; linarith) le_rfl
      linarith [sawSeries_peak_gt]

theorem abs_sawSeries_le_of_le_pi {x : ℝ} (h0 : 0 ≤ x) (hp : x ≤ π) : |sawSeries x| ≤ sawSeries (π / 10) := by
  by_cases c1 : x ≤ 2 * π / 9
  · exact abs_sawSeries_le_of_arch (l := 0) (by norm_num) (by push_cast; linarith) (by push_cast; linarith) hp
  by_cases c2 : x ≤ 4 * π / 9
  · exact abs_sawSeries_le_of_arch (l := 1) (by norm_num) (by push_cast; linarith) (by push_cast; linarith) hp
  by_cases c3 : x ≤ 6 * π / 9
  · exact abs_sawSeries_le_of_arch (l := 2) (by norm_num) (by push_cast; linarith) (by push_cast; linarith) hp
  by_cases c4 : x ≤ 8 * π / 9
  · exact abs_sawSeries_le_of_arch (l := 3) (by norm_num) (by push_cast; linarith) (by push_cast; linarith) hp
  · exact abs_sawSeries_le_of_arch (l := 4) (by norm_num) (by push_cast; linarith) (by push_cast; linarith) hp

/-- The greatest magnitude of the series is its value at pi/10 (R116). -/
theorem abs_sawSeries_le (x : ℝ) : |sawSeries x| ≤ sawSeries (π / 10) := by
  have hpi := Real.pi_pos
  have h1 : (⌊(x + π) / (2 * π)⌋ : ℝ) ≤ (x + π) / (2 * π) := Int.floor_le _
  have h2 : (x + π) / (2 * π) < ⌊(x + π) / (2 * π)⌋ + 1 := Int.lt_floor_add_one _
  rw [le_div_iff₀ (by positivity)] at h1
  rw [div_lt_iff₀ (by positivity)] at h2
  rw [← sawSeries_sub_turns x ⌊(x + π) / (2 * π)⌋]
  rcases le_total 0 (x - ⌊(x + π) / (2 * π)⌋ * (2 * π)) with h | h
  · exact abs_sawSeries_le_of_le_pi h (by linarith)
  · rw [← abs_neg, ← sawSeries_neg]
    exact abs_sawSeries_le_of_le_pi (by linarith) (by linarith)

/-- `G` of R116 in decimals. -/
theorem sawSeries_peak_bounds :
    1.0773120015895 ≤ 2 / π * sawSeries (π / 10) ∧ 2 / π * sawSeries (π / 10) < 1.0773120015896 := by
  have hp := Real.pi_pos
  have := Real.pi_gt_d20
  have := Real.pi_lt_d20
  have := cosFifth_bounds
  have := sinFifth_bounds
  have h : 1.69223773490886 < sawSeries (π / 10) ∧ sawSeries (π / 10) < 1.69223773490892 := by
    rw [sawSeries_peak]
    constructor <;> nlinarith
  rw [div_mul_eq_mul_div, le_div_iff₀ hp, div_lt_iff₀ hp]
  constructor <;> linarith

end Sys2Proof.Laws.AnalogSaw
end

