-- ==== Sys2Proof/Laws/Rounding.lean ====
section
/-! SUPPORT. What `unitsOf` and `roundMag` do, as facts about natural and rational numbers: the patterns are ordered as
the magnitudes they stand for, and rounding gives the nearest pattern, ties to even (00_scope.md R11). -/

namespace Sys2Proof.Machine

/-! ### Magnitude patterns -/

/-- A pattern with significand `m` and last place `2^s` units, for every way a rounded significand can come out. -/
theorem unitsOf_pattern {s m : Nat} (hm : m ≤ 2 ^ 53) (hs : s ≠ 0 → 2 ^ 52 ≤ m) :
    unitsOf (s * 2 ^ 52 + m) = m * 2 ^ s := by
  unfold unitsOf
  rcases Nat.lt_or_ge m (2 ^ 52) with h | h
  · have hs0 : s = 0 := by
      by_contra h'
      exact absurd (hs h') (by omega)
    subst hs0
    simp only [Nat.zero_mul, Nat.zero_add, Nat.pow_zero, Nat.mul_one]
    rw [if_pos (Nat.div_eq_of_lt h)]
  · rcases Nat.lt_or_ge m (2 ^ 53) with h' | h'
    · have hd : (s * 2 ^ 52 + m) / 2 ^ 52 = s + 1 := by omega
      have hr : (s * 2 ^ 52 + m) % 2 ^ 52 = m - 2 ^ 52 := by omega
      rw [if_neg (by omega), hd, hr]
      have h1 : s + 1 - 1 = s := by omega
      have h2 : 2 ^ 52 + (m - 2 ^ 52) = m := by omega
      rw [h1, h2]
    · have hm' : m = 2 ^ 53 := by omega
      have hd : (s * 2 ^ 52 + m) / 2 ^ 52 = s + 2 := by omega
      have hr : (s * 2 ^ 52 + m) % 2 ^ 52 = 0 := by omega
      rw [if_neg (by omega), hd, hr, hm']
      have h1 : s + 2 - 1 = s + 1 := by omega
      rw [h1, Nat.pow_succ 2 s]
      ring

/-- Every pattern has the form of `unitsOf_pattern`. -/
theorem pattern_form (p : Nat) :
    ∃ s m, p = s * 2 ^ 52 + m ∧ m < 2 ^ 53 ∧ (s ≠ 0 → 2 ^ 52 ≤ m) ∧ unitsOf p = m * 2 ^ s := by
  by_cases h : p / 2 ^ 52 = 0
  · refine ⟨0, p, by omega, by omega, fun h => absurd rfl h, ?_⟩
    simp only [unitsOf, if_pos h, Nat.pow_zero, Nat.mul_one]
  · refine ⟨p / 2 ^ 52 - 1, 2 ^ 52 + p % 2 ^ 52, by omega, by omega, fun _ => by omega, ?_⟩
    simp only [unitsOf, if_neg h]

theorem unitsOf_lt_succ (p : Nat) : unitsOf p < unitsOf (p + 1) := by
  obtain ⟨s, m, hp, hm, hs, hu⟩ := pattern_form p
  have h : unitsOf (p + 1) = (m + 1) * 2 ^ s := by
    rw [show p + 1 = s * 2 ^ 52 + (m + 1) by omega]
    exact unitsOf_pattern (by omega) (fun h => by have := hs h; omega)
  rw [hu, h]
  exact Nat.mul_lt_mul_of_pos_right (by omega) (by positivity)

theorem unitsOf_strictMono : StrictMono unitsOf := strictMono_nat_of_lt_succ unitsOf_lt_succ

theorem unitsOf_inj {p q : Nat} : unitsOf p = unitsOf q ↔ p = q := unitsOf_strictMono.injective.eq_iff

theorem unitsOf_lt {p q : Nat} : unitsOf p < unitsOf q ↔ p < q := unitsOf_strictMono.lt_iff_lt

theorem unitsOf_le {p q : Nat} : unitsOf p ≤ unitsOf q ↔ p ≤ q := unitsOf_strictMono.le_iff_le

@[simp] theorem unitsOf_zero : unitsOf 0 = 0 := rfl

theorem unitsOf_eq_zero {p : Nat} : unitsOf p = 0 ↔ p = 0 := by
  have h := unitsOf_inj (p := p) (q := 0)
  rwa [unitsOf_zero] at h

/-- From `2^52 * 2^s` units on, every pattern stands for a multiple of `2^s` units. -/
theorem two_pow_dvd_unitsOf {s p : Nat} (h : 2 ^ 52 * 2 ^ s ≤ unitsOf p) : 2 ^ s ∣ unitsOf p := by
  obtain ⟨e, m, -, hm, -, hu⟩ := pattern_form p
  have hse : s ≤ e := by
    by_contra hc
    have h1 : 2 ^ (e + 1) ≤ 2 ^ s := Nat.pow_le_pow_right (by omega) (by omega)
    have h2 : m * 2 ^ e < 2 ^ 53 * 2 ^ e := Nat.mul_lt_mul_of_pos_right hm (by positivity)
    have h3 : 2 ^ 52 * 2 ^ (e + 1) ≤ 2 ^ 52 * 2 ^ s := Nat.mul_le_mul_left _ h1
    have h4 : 2 ^ 52 * 2 ^ (e + 1) = 2 ^ 53 * 2 ^ e := by rw [Nat.pow_succ 2 e]; ring
    omega
  rw [hu]
  exact Dvd.dvd.mul_left (Nat.pow_dvd_pow 2 hse) m

/-! ### Rounding -/

/-- The pattern `roundMag` gives before it is cut off at infinity. -/
def roundOpen (num den : Nat) : Nat :=
  gridShift (num / den) * 2 ^ 52 +
    roundStep (num / (den * 2 ^ gridShift (num / den))) (num % (den * 2 ^ gridShift (num / den)))
      (den * 2 ^ gridShift (num / den))

theorem roundMag_eq (num den : Nat) : roundMag num den = min infMag (roundOpen num den) := rfl

theorem roundMag_le (num den : Nat) : roundMag num den ≤ infMag := Nat.min_le_left _ _

theorem gridShift_bounds (q : Nat) :
    q / 2 ^ gridShift q < 2 ^ 53 ∧ (gridShift q ≠ 0 → 2 ^ 52 ≤ q / 2 ^ gridShift q) := by
  unfold gridShift
  split_ifs with h
  · exact ⟨by simpa using h, fun h' => absurd rfl h'⟩
  · have hq : q ≠ 0 := by omega
    have hlog : 53 ≤ Nat.log2 q := (Nat.le_log2 hq).2 (by omega)
    have hlo : 2 ^ Nat.log2 q ≤ q := Nat.log2_self_le hq
    have hhi : q < 2 ^ (Nat.log2 q + 1) := Nat.lt_log2_self
    have e1 : 2 ^ 53 * 2 ^ (Nat.log2 q - 52) = 2 ^ (Nat.log2 q + 1) := by
      rw [← Nat.pow_add]; congr 1; omega
    have e2 : 2 ^ 52 * 2 ^ (Nat.log2 q - 52) = 2 ^ Nat.log2 q := by
      rw [← Nat.pow_add]; congr 1; omega
    refine ⟨?_, fun _ => ?_⟩
    · rw [Nat.div_lt_iff_lt_mul (by positivity)]; omega
    · rw [Nat.le_div_iff_mul_le (by positivity)]; omega

theorem roundStep_le (n r d : Nat) : n ≤ roundStep n r d ∧ roundStep n r d ≤ n + 1 := by
  unfold roundStep
  split_ifs <;> omega

/-- The rounded significand, its place, and the magnitude they stand for. -/
theorem unitsOf_roundOpen (num den : Nat) :
    unitsOf (roundOpen num den) =
      roundStep (num / (den * 2 ^ gridShift (num / den))) (num % (den * 2 ^ gridShift (num / den)))
        (den * 2 ^ gridShift (num / den)) * 2 ^ gridShift (num / den) := by
  have hb := gridShift_bounds (num / den)
  rw [Nat.div_div_eq_div_mul] at hb
  have hr := roundStep_le (num / (den * 2 ^ gridShift (num / den))) (num % (den * 2 ^ gridShift (num / den)))
    (den * 2 ^ gridShift (num / den))
  exact unitsOf_pattern (by omega) (fun h => by have := hb.2 h; omega)

/-- No pattern stands strictly between two neighbouring points of the grid a magnitude is rounded on. -/
theorem unitsOf_off_grid (num den p : Nat) :
    unitsOf p ≤ num / (den * 2 ^ gridShift (num / den)) * 2 ^ gridShift (num / den) ∨
      (num / (den * 2 ^ gridShift (num / den)) + 1) * 2 ^ gridShift (num / den) ≤ unitsOf p := by
  have hb := (gridShift_bounds (num / den)).2
  rw [Nat.div_div_eq_div_mul] at hb
  set s := gridShift (num / den)
  set n := num / (den * 2 ^ s)
  rcases Nat.lt_or_ge (n * 2 ^ s) (unitsOf p) with h | h
  · right
    have hdvd : 2 ^ s ∣ unitsOf p := by
      by_cases hs : s = 0
      · simp [hs]
      · refine two_pow_dvd_unitsOf (le_trans ?_ h.le)
        exact Nat.mul_le_mul_right _ (hb hs)
    obtain ⟨k, hk⟩ := hdvd
    rw [hk, Nat.mul_comm (2 ^ s) k] at h ⊢
    exact Nat.mul_le_mul_right _ (Nat.lt_of_mul_lt_mul_right h)
  · exact Or.inl h

/-- Rounding gives a nearest pattern: none is nearer to `num / den` units. -/
theorem roundOpen_nearest (num den : Nat) (hd : 0 < den) (p : Nat) :
    |(unitsOf (roundOpen num den) : ℚ) - (num : ℚ) / den| ≤ |(unitsOf p : ℚ) - (num : ℚ) / den| := by
  have hg := unitsOf_off_grid num den p
  rw [unitsOf_roundOpen num den]
  set s := gridShift (num / den)
  set step := den * 2 ^ s with hstep
  have hstep0 : 0 < step := Nat.mul_pos hd (by positivity)
  have hdiv : step * (num / step) + num % step = num := Nat.div_add_mod num step
  have hr : num % step < step := Nat.mod_lt _ hstep0
  set n := num / step
  set r := num % step
  have hdq : (0 : ℚ) < den := by exact_mod_cast hd
  have hx : (num : ℚ) / den = n * 2 ^ s + (r : ℚ) / den := by
    rw [← hdiv, hstep]; push_cast; field_simp
  have hrq : (r : ℚ) / den < 2 ^ s := by
    rw [div_lt_iff₀ hdq]
    have : r < 2 ^ s * den := by rw [Nat.mul_comm]; exact hr
    exact_mod_cast this
  have hr0 : (0 : ℚ) ≤ (r : ℚ) / den := by positivity
  have hpq : (unitsOf p : ℚ) ≤ n * 2 ^ s ∨ ((n : ℚ) + 1) * 2 ^ s ≤ unitsOf p := by
    rcases hg with h | h
    · exact Or.inl (by exact_mod_cast h)
    · exact Or.inr (by exact_mod_cast h)
  have up : ∀ {k : Nat}, k = n + 1 → step ≤ 2 * r → |((k * 2 ^ s : Nat) : ℚ) - (num : ℚ) / den| ≤
      |(unitsOf p : ℚ) - (num : ℚ) / den| := by
    intro k hk h
    have h2 : (2 : ℚ) ^ s ≤ 2 * (r / den) := by
      have : ((den * 2 ^ s : Nat) : ℚ) ≤ 2 * r := by exact_mod_cast h
      push_cast at this
      rw [mul_div_assoc', le_div_iff₀ hdq]; linarith
    rw [hk, hx]; push_cast
    rw [abs_of_nonneg (by linarith)]
    rcases hpq with h' | h'
    · rw [abs_of_nonpos (by linarith)]; linarith
    · rw [abs_of_nonneg (by linarith)]; linarith
  have down : ∀ {k : Nat}, k = n → 2 * r ≤ step → |((k * 2 ^ s : Nat) : ℚ) - (num : ℚ) / den| ≤
      |(unitsOf p : ℚ) - (num : ℚ) / den| := by
    intro k hk h
    have h2 : (2 : ℚ) * (r / den) ≤ 2 ^ s := by
      have : (2 * r : ℚ) ≤ ((den * 2 ^ s : Nat) : ℚ) := by exact_mod_cast h
      push_cast at this
      rw [mul_div_assoc', div_le_iff₀ hdq]; linarith
    rw [hk, hx]; push_cast
    rw [abs_of_nonpos (by linarith)]
    rcases hpq with h' | h'
    · rw [abs_of_nonpos (by linarith)]; linarith
    · rw [abs_of_nonneg (by linarith)]; linarith
  unfold roundStep
  split_ifs with h1 h2
  · exact down rfl h1.le
  · exact up rfl h2.le
  · rcases Nat.mod_two_eq_zero_or_one n with h | h
    · exact down (by omega) (by omega)
    · exact up (by omega) (by omega)

/-- When two different patterns are equally near, rounding gives an even one. -/
theorem roundOpen_tie_even (num den : Nat) (hd : 0 < den) (p : Nat) (hp : p ≠ roundOpen num den)
    (h : |(unitsOf (roundOpen num den) : ℚ) - (num : ℚ) / den| = |(unitsOf p : ℚ) - (num : ℚ) / den|) :
    roundOpen num den % 2 = 0 := by
  have hne : unitsOf p ≠ unitsOf (roundOpen num den) := fun e => hp (unitsOf_inj.1 e)
  have hg := unitsOf_off_grid num den p
  have hu := unitsOf_roundOpen num den
  have hn := roundStep_le (num / (den * 2 ^ gridShift (num / den))) (num % (den * 2 ^ gridShift (num / den)))
    (den * 2 ^ gridShift (num / den))
  have hR : roundOpen num den = gridShift (num / den) * 2 ^ 52 +
    roundStep (num / (den * 2 ^ gridShift (num / den))) (num % (den * 2 ^ gridShift (num / den)))
      (den * 2 ^ gridShift (num / den)) := rfl
  rw [hu] at h hne
  rw [hR]
  set s := gridShift (num / den)
  set step := den * 2 ^ s with hstep
  have hstep0 : 0 < step := Nat.mul_pos hd (by positivity)
  have hdiv : step * (num / step) + num % step = num := Nat.div_add_mod num step
  have hr : num % step < step := Nat.mod_lt _ hstep0
  set n := num / step
  set r := num % step
  have hdq : (0 : ℚ) < den := by exact_mod_cast hd
  have hsq : (0 : ℚ) < 2 ^ s := by positivity
  have hx : (num : ℚ) / den = n * 2 ^ s + (r : ℚ) / den := by
    rw [← hdiv, hstep]; push_cast; field_simp
  have hr0 : (0 : ℚ) ≤ (r : ℚ) / den := by positivity
  have hrq : (r : ℚ) / den < 2 ^ s := by
    rw [div_lt_iff₀ hdq]
    have : r < 2 ^ s * den := by rw [Nat.mul_comm]; exact hr
    exact_mod_cast this
  have hpq : (unitsOf p : ℚ) ≤ n * 2 ^ s ∨ ((n : ℚ) + 1) * 2 ^ s ≤ unitsOf p := by
    rcases hg with h | h
    · exact Or.inl (by exact_mod_cast h)
    · exact Or.inr (by exact_mod_cast h)
  have hneq : (unitsOf p : ℚ) ≠ ((roundStep n r step * 2 ^ s : Nat) : ℚ) := by exact_mod_cast hne
  have key : 2 * r = step := by
    have hq : (2 : ℚ) * (r / den) = 2 ^ s := by
      rcases (show roundStep n r step = n ∨ roundStep n r step = n + 1 by omega) with e | e
      · rw [e, hx] at h
        rw [e] at hneq
        push_cast at h hneq
        rw [abs_of_nonpos (by linarith)] at h
        have h1 : (2 : ℚ) * (r / den) ≤ 2 ^ s := by
          have hle : 2 * r ≤ step := by
            unfold roundStep at e
            split_ifs at e <;> omega
          have : (2 * r : ℚ) ≤ ((den * 2 ^ s : Nat) : ℚ) := by exact_mod_cast hle
          push_cast at this
          rw [mul_div_assoc', div_le_iff₀ hdq]; linarith
        rcases hpq with h' | h'
        · rw [abs_of_nonpos (by linarith)] at h
          exact absurd (by linarith) hneq
        · rw [abs_of_nonneg (by linarith)] at h; linarith
      · rw [e, hx] at h
        rw [e] at hneq
        push_cast at h hneq
        rw [abs_of_nonneg (by linarith)] at h
        have h1 : (2 : ℚ) ^ s ≤ 2 * (r / den) := by
          have hle : step ≤ 2 * r := by
            unfold roundStep at e
            split_ifs at e <;> omega
          have : ((den * 2 ^ s : Nat) : ℚ) ≤ 2 * r := by exact_mod_cast hle
          push_cast at this
          rw [mul_div_assoc', le_div_iff₀ hdq]; linarith
        rcases hpq with h' | h'
        · rw [abs_of_nonpos (by linarith)] at h; linarith
        · rw [abs_of_nonneg (by linarith)] at h
          exact absurd (by linarith) hneq
    have hq2 : (2 * r : ℚ) = ((den * 2 ^ s : Nat) : ℚ) := by
      push_cast
      rw [mul_div_assoc', div_eq_iff hdq.ne'] at hq
      linarith
    exact_mod_cast hq2
  have hrs : roundStep n r step = n + n % 2 := by
    unfold roundStep
    rw [if_neg (by omega), if_neg (by omega)]
  rw [hrs]
  omega

/-- A magnitude that does not exceed a pattern's is not rounded above it. -/
theorem roundOpen_le_of_le {num den p : Nat} (hd : 0 < den) (h : num ≤ unitsOf p * den) : roundOpen num den ≤ p := by
  by_contra hc
  have h1 : (unitsOf p : ℚ) < unitsOf (roundOpen num den) := by exact_mod_cast unitsOf_lt.2 (by omega)
  have hdq : (0 : ℚ) < den := by exact_mod_cast hd
  have h2 : (num : ℚ) / den ≤ unitsOf p := by
    rw [div_le_iff₀ hdq]; exact_mod_cast h
  have := roundOpen_nearest num den hd p
  rw [abs_of_nonneg (by linarith), abs_of_nonneg (by linarith)] at this
  linarith

/-- A magnitude that reaches a pattern's is not rounded below it. -/
theorem le_roundOpen_of_le {num den p : Nat} (hd : 0 < den) (h : unitsOf p * den ≤ num) : p ≤ roundOpen num den := by
  by_contra hc
  have h1 : (unitsOf (roundOpen num den) : ℚ) < unitsOf p := by exact_mod_cast unitsOf_lt.2 (by omega)
  have hdq : (0 : ℚ) < den := by exact_mod_cast hd
  have h2 : (unitsOf p : ℚ) ≤ (num : ℚ) / den := by
    rw [le_div_iff₀ hdq]; exact_mod_cast h
  have := roundOpen_nearest num den hd p
  rw [abs_of_nonpos (by linarith), abs_of_nonpos (by linarith)] at this
  linarith

theorem roundMag_le_of_le {num den p : Nat} (hd : 0 < den) (h : num ≤ unitsOf p * den) : roundMag num den ≤ p :=
  le_trans (Nat.min_le_right _ _) (roundOpen_le_of_le hd h)

theorem le_roundMag_of_le {num den p : Nat} (hd : 0 < den) (hp : p ≤ infMag) (h : unitsOf p * den ≤ num) :
    p ≤ roundMag num den := le_min hp (le_roundOpen_of_le hd h)

/-- A magnitude that is a pattern's own is not changed by rounding. -/
theorem roundMag_exact {num den p : Nat} (hd : 0 < den) (hp : p ≤ infMag) (h : num = unitsOf p * den) :
    roundMag num den = p :=
  le_antisymm (roundMag_le_of_le hd h.le) (le_roundMag_of_le hd hp h.ge)

/-- Rounding is monotone: a smaller exact magnitude has no larger pattern. -/
theorem roundOpen_mono {num den num' den' : Nat} (hd : 0 < den) (hd' : 0 < den') (h : num * den' ≤ num' * den) :
    roundOpen num den ≤ roundOpen num' den' := by
  by_contra hc
  rw [not_le] at hc
  have hq : (num : ℚ) / den ≤ (num' : ℚ) / den' := by
    rw [div_le_div_iff₀ (by exact_mod_cast hd) (by exact_mod_cast hd')]; exact_mod_cast h
  have n := roundOpen_nearest num den hd
  have n' := roundOpen_nearest num' den' hd'
  have hu : (unitsOf (roundOpen num' den') : ℚ) < unitsOf (roundOpen num den) := by exact_mod_cast unitsOf_lt.2 hc
  have e := roundOpen_tie_even num den hd
  have e' := roundOpen_tie_even num' den' hd'
  generalize (num : ℚ) / den = q at *
  generalize (num' : ℚ) / den' = q' at *
  have h1 := n (roundOpen num' den')
  have h2 := n' (roundOpen num den)
  have m1 : (unitsOf (roundOpen num den) : ℚ) + unitsOf (roundOpen num' den') ≤ 2 * q := by
    rcases abs_cases ((unitsOf (roundOpen num den) : ℚ) - q) with ⟨a, as⟩ | ⟨a, as⟩ <;>
      rcases abs_cases ((unitsOf (roundOpen num' den') : ℚ) - q) with ⟨b, bs⟩ | ⟨b, bs⟩ <;> linarith
  have m2 : 2 * q' ≤ (unitsOf (roundOpen num den) : ℚ) + unitsOf (roundOpen num' den') := by
    rcases abs_cases ((unitsOf (roundOpen num den) : ℚ) - q') with ⟨a, as⟩ | ⟨a, as⟩ <;>
      rcases abs_cases ((unitsOf (roundOpen num' den') : ℚ) - q') with ⟨b, bs⟩ | ⟨b, bs⟩ <;> linarith
  have hqq : q = q' := by linarith
  subst hqq
  have hm : q = ((unitsOf (roundOpen num den) : ℚ) + unitsOf (roundOpen num' den')) / 2 := by linarith
  have hs : roundOpen num den = roundOpen num' den' + 1 := by
    by_contra hne
    have h3 := n (roundOpen num' den' + 1)
    have l1 : (unitsOf (roundOpen num' den') : ℚ) < unitsOf (roundOpen num' den' + 1) := by
      exact_mod_cast unitsOf_lt.2 (Nat.lt_succ_self _)
    have l2 : (unitsOf (roundOpen num' den' + 1) : ℚ) < unitsOf (roundOpen num den) := by
      exact_mod_cast unitsOf_lt.2 (by omega)
    rw [abs_of_nonneg (by linarith)] at h3
    rcases abs_cases ((unitsOf (roundOpen num' den' + 1) : ℚ) - q) with ⟨h4, -⟩ | ⟨h4, -⟩ <;> linarith
  have p1 := e (roundOpen num' den') hc.ne (by
    rw [abs_of_nonneg (by linarith), abs_of_nonpos (by linarith)]; linarith)
  have p2 := e' (roundOpen num den) hc.ne' (by
    rw [abs_of_nonpos (by linarith), abs_of_nonneg (by linarith)]; linarith)
  omega

/-- The same for the pattern a rounded result has. -/
theorem roundMag_mono {num den num' den' : Nat} (hd : 0 < den) (hd' : 0 < den') (h : num * den' ≤ num' * den) :
    roundMag num den ≤ roundMag num' den' :=
  min_le_min le_rfl (roundOpen_mono hd hd' h)

end Sys2Proof.Machine
end

