-- ==== Sys2Proof/Laws/Binary64.lean ====
section
/-! SUPPORT. What the binary64 operations do on patterns (00_scope.md R11): the parts of a pattern, its value, the
comparisons by value, and each operation as the rounding of the exact result. -/

namespace Sys2Proof.Machine

/-! ### The parts of a pattern -/

theorem infMag_eq : infMag = 2047 * 2 ^ 52 := rfl

theorem magBits_lt (d : Word) : magBits d < 2 ^ 63 := Nat.mod_lt _ (by norm_num)

theorem expField_toNat (d : Word) : (expField d).toNat = magBits d / 2 ^ 52 := by
  have := d.isLt
  simp only [expField, magBits, BitVec.extractLsb'_toNat, Nat.shiftRight_eq_div_pow]
  omega

theorem fracField_toNat (d : Word) : (fracField d).toNat = magBits d % 2 ^ 52 := by
  simp only [fracField, magBits, BitVec.extractLsb'_toNat, Nat.shiftRight_zero]
  omega

theorem expField_eq_max (d : Word) : expField d = 0x7FF#11 ↔ magBits d / 2 ^ 52 = 2047 := by
  rw [← BitVec.toNat_inj, expField_toNat]; rfl

theorem fracField_eq_zero (d : Word) : fracField d = 0#52 ↔ magBits d % 2 ^ 52 = 0 := by
  rw [← BitVec.toNat_inj, fracField_toNat]; rfl

theorem isFinite_iff (d : Word) : isFinite d = true ↔ magBits d < infMag := by
  have := magBits_lt d
  rw [isFinite, bne_iff_ne, ne_eq, expField_eq_max, infMag_eq]
  omega

theorem isInf_iff (d : Word) : isInf d = true ↔ magBits d = infMag := by
  have := magBits_lt d
  rw [isInf, Bool.and_eq_true, beq_iff_eq, beq_iff_eq, expField_eq_max, fracField_eq_zero, infMag_eq]
  omega

theorem isNaN_iff (d : Word) : isNaN d = true ↔ infMag < magBits d := by
  have := magBits_lt d
  rw [isNaN, Bool.and_eq_true, beq_iff_eq, bne_iff_ne, ne_eq, expField_eq_max, fracField_eq_zero, infMag_eq]
  omega

theorem isNaN_of_isFinite {d : Word} (h : isFinite d = true) : isNaN d = false := by
  rw [isFinite_iff] at h
  rw [← Bool.not_eq_true, isNaN_iff]; omega

theorem isInf_of_isFinite {d : Word} (h : isFinite d = true) : isInf d = false := by
  rw [isFinite_iff] at h
  rw [← Bool.not_eq_true, isInf_iff]; omega

theorem signBit_iff (d : Word) : signBit d = true ↔ 2 ^ 63 ≤ d.toNat := by
  rw [signBit, BitVec.msb_eq_decide, decide_eq_true_iff]

theorem toNat_pack {neg : Bool} {p : Nat} (hp : p < 2 ^ 63) :
    (pack neg p).toNat = if neg then 2 ^ 63 + p else p := by
  unfold pack
  rw [BitVec.toNat_ofNat]
  refine Nat.mod_eq_of_lt ?_
  cases neg
  · exact lt_trans hp (by norm_num)
  · show 2 ^ 63 + p < 2 ^ 64
    omega

@[simp] theorem magBits_pack {neg : Bool} {p : Nat} (hp : p < 2 ^ 63) : magBits (pack neg p) = p := by
  rw [magBits, toNat_pack hp]
  cases neg
  · exact Nat.mod_eq_of_lt hp
  · show (2 ^ 63 + p) % 2 ^ 63 = p
    omega

@[simp] theorem signBit_pack {neg : Bool} {p : Nat} (hp : p < 2 ^ 63) : signBit (pack neg p) = neg := by
  rw [Bool.eq_iff_iff, signBit_iff, toNat_pack hp]
  cases neg
  · exact iff_of_false (Nat.not_le.2 hp) Bool.false_ne_true
  · exact iff_of_true (Nat.le_add_right _ _) rfl

/-- A pattern is its sign and its magnitude. -/
theorem pack_parts (d : Word) : pack (signBit d) (magBits d) = d := by
  apply BitVec.eq_of_toNat_eq
  have := d.isLt
  rw [toNat_pack (magBits_lt d), magBits]
  rcases h : signBit d with _ | _
  · have : ¬ 2 ^ 63 ≤ d.toNat := fun h' => by rw [(signBit_iff d).2 h'] at h; cases h
    simp only [Bool.false_eq_true, reduceIte]; omega
  · have := (signBit_iff d).1 h
    simp only [reduceIte]; omega

theorem eq_of_parts {x y : Word} (hs : signBit x = signBit y) (hm : magBits x = magBits y) : x = y := by
  rw [← pack_parts x, ← pack_parts y, hs, hm]

theorem infMag_lt : infMag < 2 ^ 63 := by decide

theorem isFinite_pack {neg : Bool} {p : Nat} (hp : p < 2 ^ 63) : isFinite (pack neg p) = true ↔ p < infMag := by
  rw [isFinite_iff, magBits_pack hp]

/-! ### Values -/

/-- The sign as a factor. -/
def signFactor (neg : Bool) : ℚ := if neg then -1 else 1

theorem scaled_eq (d : Word) : (scaled d : ℚ) = signFactor (signBit d) * unitsOf (magBits d) := by
  rw [scaled, magUnits, signFactor]
  split_ifs <;> push_cast <;> ring

theorem toRat_eq (d : Word) : toRat d = signFactor (signBit d) * unitsOf (magBits d) / 2 ^ 1074 := by
  rw [toRat, scaled_eq]

theorem toRat_pack {neg : Bool} {p : Nat} (hp : p < 2 ^ 63) :
    toRat (pack neg p) = signFactor neg * unitsOf p / 2 ^ 1074 := by
  rw [toRat_eq, signBit_pack hp, magBits_pack hp]

theorem abs_toRat (d : Word) : |toRat d| = unitsOf (magBits d) / 2 ^ 1074 := by
  rw [toRat_eq, abs_div, abs_mul, signFactor]
  split_ifs <;> simp

theorem toRat_eq_zero_iff (d : Word) : toRat d = 0 ↔ magBits d = 0 := by
  rw [← abs_eq_zero, abs_toRat, div_eq_zero_iff]
  simp [unitsOf_eq_zero]

/-- Two finite patterns have the same value exactly when they are equal or both zero. -/
theorem toRat_inj_iff (x y : Word) : toRat x = toRat y ↔ x = y ∨ (magBits x = 0 ∧ magBits y = 0) := by
  constructor
  · intro h
    have hm : magBits x = magBits y := by
      have h' : |toRat x| = |toRat y| := by rw [h]
      rw [abs_toRat, abs_toRat, div_left_inj' (by positivity)] at h'
      exact unitsOf_inj.1 (by exact_mod_cast h')
    by_cases h0 : magBits x = 0
    · exact Or.inr ⟨h0, hm ▸ h0⟩
    · left
      refine eq_of_parts ?_ hm
      rw [toRat_eq, toRat_eq, hm, div_left_inj' (by positivity)] at h
      have hu : (unitsOf (magBits y) : ℚ) ≠ 0 := by
        exact_mod_cast fun h' => h0 (hm ▸ unitsOf_eq_zero.1 h')
      have := mul_right_cancel₀ hu h
      revert this
      cases signBit x <;> cases signBit y <;> simp [signFactor] <;> norm_num
  · rintro (rfl | ⟨h1, h2⟩)
    · rfl
    · rw [(toRat_eq_zero_iff x).2 h1, (toRat_eq_zero_iff y).2 h2]

theorem scaled_le_iff (x y : Word) : scaled x ≤ scaled y ↔ toRat x ≤ toRat y := by
  rw [toRat, toRat, div_le_div_iff_of_pos_right (by positivity)]
  exact_mod_cast Iff.rfl

theorem scaled_lt_iff (x y : Word) : scaled x < scaled y ↔ toRat x < toRat y := by
  rw [toRat, toRat, div_lt_div_iff_of_pos_right (by positivity)]
  exact_mod_cast Iff.rfl

/-- `<=` compares values (R11). -/
theorem le64_iff {x y : Word} (hx : isFinite x = true) (hy : isFinite y = true) :
    le64 x y = true ↔ toRat x ≤ toRat y := by
  rw [le64, isNaN_of_isFinite hx, isNaN_of_isFinite hy, ← scaled_le_iff]
  simp

/-- `<` compares values (R11). -/
theorem lt64_iff {x y : Word} (hx : isFinite x = true) (hy : isFinite y = true) :
    lt64 x y = true ↔ toRat x < toRat y := by
  rw [lt64, isNaN_of_isFinite hx, isNaN_of_isFinite hy, ← scaled_lt_iff]
  simp

@[simp] theorem signBit_neg64 (d : Word) : signBit (neg64 d) = !signBit d := by
  have h : (0x8000000000000000#64 : Word).msb = true := by decide
  rw [neg64, signBit, signBit, BitVec.msb_xor, h, Bool.xor_true]

@[simp] theorem magBits_neg64 (d : Word) : magBits (neg64 d) = magBits d := by
  have h : (0x8000000000000000#64 : Word).toNat % 2 ^ 63 = 0 := by decide
  rw [neg64, magBits, magBits, BitVec.toNat_xor, Nat.xor_mod_two_pow, h, Nat.xor_zero]

@[simp] theorem isFinite_neg64 (d : Word) : isFinite (neg64 d) = isFinite d := by
  rw [Bool.eq_iff_iff, isFinite_iff, isFinite_iff, magBits_neg64]

@[simp] theorem toRat_neg64 (d : Word) : toRat (neg64 d) = -toRat d := by
  have h : signFactor (!signBit d) = -signFactor (signBit d) := by cases signBit d <;> simp [signFactor]
  rw [toRat_eq, toRat_eq, signBit_neg64, magBits_neg64, h, neg_mul, neg_div]

/-! ### Rounding of a signed magnitude -/

theorem roundMag_lt (num den : Nat) : roundMag num den < 2 ^ 63 :=
  lt_of_le_of_lt (roundMag_le num den) infMag_lt

theorem magBits_roundTo (neg : Bool) (num den : Nat) : magBits (roundTo neg num den) = roundMag num den :=
  magBits_pack (roundMag_lt num den)

theorem signBit_roundTo (neg : Bool) (num den : Nat) : signBit (roundTo neg num den) = neg :=
  signBit_pack (roundMag_lt num den)

theorem isNaN_roundTo (neg : Bool) (num den : Nat) : isNaN (roundTo neg num den) = false := by
  rw [← Bool.not_eq_true, isNaN_iff, magBits_roundTo]
  have := roundMag_le num den
  omega

theorem isFinite_roundTo (neg : Bool) (num den : Nat) :
    isFinite (roundTo neg num den) = true ↔ roundOpen num den < infMag := by
  rw [isFinite_iff, magBits_roundTo, roundMag_eq]
  omega

/-- The value a sign, a magnitude and a denominator stand for, in the units of `unitsOf`. -/
def exactValue (neg : Bool) (num den : Nat) : ℚ := signFactor neg * ((num : ℚ) / den) / 2 ^ 1074

theorem roundTo_nearest {neg : Bool} {num den : Nat} (hd : 0 < den)
    (hf : isFinite (roundTo neg num den) = true) (v : Word) :
    |toRat (roundTo neg num den) - exactValue neg num den| ≤ |toRat v - exactValue neg num den| := by
  have hR : roundMag num den = roundOpen num den := by
    rw [isFinite_roundTo] at hf
    rw [roundMag_eq]; omega
  rw [toRat_eq (roundTo _ _ _), signBit_roundTo, magBits_roundTo, hR, toRat_eq v, exactValue, ← sub_div, ← sub_div,
    abs_div, abs_div, div_le_div_iff_of_pos_right (by positivity), ← mul_sub, abs_mul]
  have hx : (0 : ℚ) ≤ (num : ℚ) / den := by positivity
  have hs : |signFactor neg| = 1 := by cases neg <;> simp [signFactor]
  rw [hs, one_mul]
  have hn := roundOpen_nearest num den hd
  have h0 : |(unitsOf (roundOpen num den) : ℚ) - (num : ℚ) / den| ≤ (num : ℚ) / den := by
    have := hn 0
    rw [unitsOf_zero, Nat.cast_zero, zero_sub, abs_neg, abs_of_nonneg hx] at this
    exact this
  by_cases he : signBit v = neg
  · rw [he, ← mul_sub, abs_mul, hs, one_mul]
    exact hn _
  · have hne : signFactor (signBit v) = -signFactor neg := by
      revert he
      cases signBit v <;> cases neg <;> simp [signFactor]
    have hv : (0 : ℚ) ≤ unitsOf (magBits v) := by positivity
    rw [hne, neg_mul, ← neg_add', abs_neg, ← mul_add, abs_mul, hs, one_mul,
      abs_of_nonneg (a := (unitsOf (magBits v) : ℚ) + _) (by linarith)]
    linarith

theorem getLsbD_zero_roundTo {neg : Bool} {num den : Nat} (h : roundMag num den % 2 = 0) :
    (roundTo neg num den).getLsbD 0 = false := by
  have hp := roundMag_lt num den
  rw [roundTo, BitVec.getLsbD, toNat_pack hp, Nat.testBit_zero, decide_eq_false_iff_not]
  cases neg <;> simp only [Bool.false_eq_true, reduceIte] <;> omega

/-- Rounding a signed magnitude gives the nearest pattern, ties to even. -/
theorem roundTo_isNearestEven {neg : Bool} {num den : Nat} (hd : 0 < den)
    (hf : isFinite (roundTo neg num den) = true) :
    IsNearestEven (exactValue neg num den) (roundTo neg num den) := by
  refine ⟨fun v _ => roundTo_nearest hd hf v, fun v hv hne heq => ?_⟩
  have hR : roundMag num den = roundOpen num den := by
    rw [isFinite_roundTo] at hf
    rw [roundMag_eq]; omega
  apply getLsbD_zero_roundTo
  rw [hR]
  have hs : |signFactor neg| = 1 := by cases neg <;> simp [signFactor]
  have hx : (0 : ℚ) ≤ (num : ℚ) / den := by positivity
  by_cases he : signBit v = neg
  · refine roundOpen_tie_even num den hd (magBits v) ?_ ?_
    · intro hm
      apply hne
      rw [toRat_eq, toRat_eq, signBit_roundTo, magBits_roundTo, hR, hm, he]
    · rw [toRat_eq (roundTo _ _ _), signBit_roundTo, magBits_roundTo, hR, toRat_eq v, exactValue, ← sub_div, ← sub_div,
        abs_div, abs_div, div_left_inj' (by positivity), ← mul_sub, he, ← mul_sub, abs_mul, abs_mul, hs, one_mul,
        one_mul] at heq
      exact heq
  · -- a value of the other sign can only be equally near when it is zero
    have hne' : signFactor (signBit v) = -signFactor neg := by
      revert he
      cases signBit v <;> cases neg <;> simp [signFactor]
    have hv0 : (0 : ℚ) ≤ unitsOf (magBits v) := by positivity
    rw [toRat_eq (roundTo _ _ _), signBit_roundTo, magBits_roundTo, hR, toRat_eq v, exactValue, ← sub_div, ← sub_div,
      abs_div, abs_div, div_left_inj' (by positivity), ← mul_sub, hne', neg_mul, ← neg_add', abs_neg, ← mul_add,
      abs_mul, abs_mul, hs, one_mul, one_mul, abs_of_nonneg (a := (unitsOf (magBits v) : ℚ) + _) (by linarith)] at heq
    have h0 := roundOpen_nearest num den hd 0
    rw [unitsOf_zero, Nat.cast_zero, zero_sub, abs_neg, abs_of_nonneg hx, heq] at h0
    have hv : (unitsOf (magBits v) : ℚ) = 0 := by linarith
    have hvm : magBits v = 0 := unitsOf_eq_zero.1 (by exact_mod_cast hv)
    refine roundOpen_tie_even num den hd 0 ?_ ?_
    · intro hz
      apply hne
      rw [(toRat_eq_zero_iff v).2 hvm, (toRat_eq_zero_iff _).2 (by rw [magBits_roundTo, hR, ← hz])]
    · rw [heq, hv, unitsOf_zero, Nat.cast_zero, zero_sub, abs_neg, abs_of_nonneg hx, zero_add]

end Sys2Proof.Machine
end

