-- ==== Sys2Proof/Laws/Arithmetic.lean ====
section
/-! SUPPORT. One lemma per binary64 operation (00_scope.md R11): on finite operands it is the rounding of the exact
result, and it is finite when the exact result does not exceed some finite value in magnitude. -/

namespace Sys2Proof.Machine

/-! ### What rounding to nearest implies -/

/-- A rounded value does not pass a representable bound above the exact one. -/
theorem IsNearestEven.le_of_le {q : ℚ} {d v : Word} (h : IsNearestEven q d) (hv : isFinite v = true)
    (hq : q ≤ toRat v) : toRat d ≤ toRat v := by
  by_contra hc
  have := h.1 v hv
  rw [abs_of_nonneg (by linarith), abs_of_nonneg (by linarith)] at this
  linarith

/-- A rounded value does not pass a representable bound below the exact one. -/
theorem IsNearestEven.ge_of_ge {q : ℚ} {d v : Word} (h : IsNearestEven q d) (hv : isFinite v = true)
    (hq : toRat v ≤ q) : toRat v ≤ toRat d := by
  by_contra hc
  have := h.1 v hv
  rw [abs_of_nonpos (by linarith), abs_of_nonpos (by linarith)] at this
  linarith

/-- A representable exact result is not changed by rounding. -/
theorem IsNearestEven.eq_of_eq {q : ℚ} {d v : Word} (h : IsNearestEven q d) (hv : isFinite v = true)
    (hq : q = toRat v) : toRat d = toRat v :=
  le_antisymm (h.le_of_le hv hq.le) (h.ge_of_ge hv hq.ge)

/-- A rounded value does not pass a representable bound on the magnitude. -/
theorem IsNearestEven.abs_toRat_le {q : ℚ} {d v : Word} (h : IsNearestEven q d) (hv : isFinite v = true)
    (hq : |q| ≤ toRat v) : |toRat d| ≤ toRat v := by
  have hq' := abs_le.1 hq
  refine abs_le.2 ⟨?_, h.le_of_le hv hq'.2⟩
  have := h.ge_of_ge (v := neg64 v) (by rwa [isFinite_neg64]) (by rw [toRat_neg64]; exact hq'.1)
  rwa [toRat_neg64] at this

theorem isNearestEven_zero (neg : Bool) : IsNearestEven 0 (pack neg 0) := by
  have h0 : toRat (pack neg 0) = 0 := by
    rw [toRat_eq_zero_iff, magBits_pack (by norm_num)]
  refine ⟨fun v _ => by simp [h0], fun v _ hne heq => ?_⟩
  rw [h0] at hne heq
  rw [sub_zero, sub_zero, abs_zero, eq_comm, abs_eq_zero] at heq
  exact absurd heq hne

theorem isFinite_zero (neg : Bool) : isFinite (pack neg 0) = true :=
  (isFinite_pack (by norm_num)).2 (by decide)

/-! ### When a rounded result is finite -/

theorem abs_signFactor (neg : Bool) : |signFactor neg| = 1 := by cases neg <;> simp [signFactor]

theorem abs_exactValue (neg : Bool) (num den : Nat) :
    |exactValue neg num den| = ((num : ℚ) / den) / 2 ^ 1074 := by
  rw [exactValue, abs_div, abs_mul, abs_signFactor, one_mul, abs_of_nonneg (by positivity),
    abs_of_nonneg (by positivity)]

theorem isFinite_roundTo_of_abs_le {neg : Bool} {num den : Nat} (hd : 0 < den) {v : Word} (hv : isFinite v = true)
    (h : |exactValue neg num den| ≤ |toRat v|) : isFinite (roundTo neg num den) = true := by
  rw [isFinite_roundTo]
  rw [isFinite_iff] at hv
  refine lt_of_le_of_lt (roundOpen_le_of_le hd ?_) hv
  rw [abs_exactValue, abs_toRat, div_le_div_iff_of_pos_right (by positivity),
    div_le_iff₀ (by exact_mod_cast hd)] at h
  exact_mod_cast h

/-! ### Addition and subtraction -/

theorem add_exact (x y : Word) : toRat x + toRat y = ((scaled x + scaled y : Int) : ℚ) / 2 ^ 1074 := by
  rw [toRat, toRat, ← add_div]; push_cast; ring

theorem exactValue_int (z : Int) : exactValue (decide (z < 0)) z.natAbs 1 = (z : ℚ) / 2 ^ 1074 := by
  rw [exactValue, Nat.cast_one, div_one]
  congr 1
  rcases lt_or_ge z 0 with h | h
  · have hz : ((z.natAbs : Nat) : ℚ) = -(z : ℚ) := by
      rw [Nat.cast_natAbs, abs_of_neg h]; push_cast; ring
    rw [decide_eq_true h, hz, signFactor]; simp
  · have hz : ((z.natAbs : Nat) : ℚ) = (z : ℚ) := by
      rw [Nat.cast_natAbs, abs_of_nonneg h]
    rw [decide_eq_false (by omega), hz, signFactor]; simp

/-- A finite sum, as its rounding or as a zero. -/
theorem add64_cases {x y : Word} (hx : isFinite x = true) (hy : isFinite y = true) :
    (toRat x + toRat y = 0 ∧ add64 x y = pack (signBit x && signBit y) 0) ∨
      (exactValue (decide (scaled x + scaled y < 0)) (scaled x + scaled y).natAbs 1 = toRat x + toRat y ∧
        add64 x y = roundTo (decide (scaled x + scaled y < 0)) (scaled x + scaled y).natAbs 1) := by
  have hu : add64 x y = if scaled x + scaled y = 0 then pack (signBit x && signBit y) 0
      else roundTo (decide (scaled x + scaled y < 0)) (scaled x + scaled y).natAbs 1 := by
    rw [add64, isNaN_of_isFinite hx, isNaN_of_isFinite hy, isInf_of_isFinite hx, isInf_of_isFinite hy]
    simp
  rcases Decidable.em (scaled x + scaled y = 0) with h | h
  · left
    rw [hu, if_pos h, add_exact, h]
    simp
  · right
    rw [hu, if_neg h, exactValue_int, add_exact]
    exact ⟨rfl, rfl⟩

theorem add64_nearest {x y : Word} (hx : isFinite x = true) (hy : isFinite y = true)
    (hf : isFinite (add64 x y) = true) : IsNearestEven (toRat x + toRat y) (add64 x y) := by
  rcases add64_cases hx hy with ⟨h0, h⟩ | ⟨h0, h⟩
  · rw [h0, h]; exact isNearestEven_zero _
  · rw [← h0, h]
    exact roundTo_isNearestEven Nat.one_pos (h ▸ hf)

theorem add64_isFinite {x y v : Word} (hx : isFinite x = true) (hy : isFinite y = true) (hv : isFinite v = true)
    (h : |toRat x + toRat y| ≤ |toRat v|) : isFinite (add64 x y) = true := by
  rcases add64_cases hx hy with ⟨-, h'⟩ | ⟨h0, h'⟩
  · rw [h']; exact isFinite_zero _
  · rw [h']; exact isFinite_roundTo_of_abs_le Nat.one_pos hv (h0 ▸ h)

theorem sub64_nearest {x y : Word} (hx : isFinite x = true) (hy : isFinite y = true)
    (hf : isFinite (sub64 x y) = true) : IsNearestEven (toRat x - toRat y) (sub64 x y) := by
  have h := add64_nearest hx ((isFinite_neg64 y).trans hy) hf
  rwa [toRat_neg64, ← sub_eq_add_neg] at h

theorem sub64_isFinite {x y v : Word} (hx : isFinite x = true) (hy : isFinite y = true) (hv : isFinite v = true)
    (h : |toRat x - toRat y| ≤ |toRat v|) : isFinite (sub64 x y) = true :=
  add64_isFinite hx ((isFinite_neg64 y).trans hy) hv (by rwa [toRat_neg64, ← sub_eq_add_neg])

/-! ### Multiplication -/

theorem signFactor_xor (a b : Bool) : signFactor (a != b) = signFactor a * signFactor b := by
  cases a <;> cases b <;> simp [signFactor]

theorem signFactor_div (a b : Bool) : signFactor (a != b) = signFactor a / signFactor b := by
  cases a <;> cases b <;> simp [signFactor]

theorem mul_exact (x y : Word) :
    exactValue (signBit x != signBit y) (magUnits x * magUnits y) (2 ^ 1074) = toRat x * toRat y := by
  rw [exactValue, toRat_eq, toRat_eq, signFactor_xor, magUnits, magUnits]
  push_cast
  ring

theorem mul64_eq {x y : Word} (hx : isFinite x = true) (hy : isFinite y = true) :
    mul64 x y = roundTo (signBit x != signBit y) (magUnits x * magUnits y) (2 ^ 1074) := by
  rw [mul64, isNaN_of_isFinite hx, isNaN_of_isFinite hy, isInf_of_isFinite hx, isInf_of_isFinite hy]
  rfl

theorem mul64_nearest {x y : Word} (hx : isFinite x = true) (hy : isFinite y = true)
    (hf : isFinite (mul64 x y) = true) : IsNearestEven (toRat x * toRat y) (mul64 x y) := by
  rw [mul64_eq hx hy] at hf ⊢
  rw [← mul_exact]
  exact roundTo_isNearestEven (by positivity) hf

theorem mul64_isFinite {x y v : Word} (hx : isFinite x = true) (hy : isFinite y = true) (hv : isFinite v = true)
    (h : |toRat x * toRat y| ≤ |toRat v|) : isFinite (mul64 x y) = true := by
  rw [mul64_eq hx hy]
  exact isFinite_roundTo_of_abs_le (by positivity) hv (by rwa [mul_exact])

/-! ### Division -/

theorem magUnits_pos {y : Word} (h : toRat y ≠ 0) : 0 < magUnits y := by
  rw [ne_eq, toRat_eq_zero_iff] at h
  exact Nat.pos_of_ne_zero fun h' => h (unitsOf_eq_zero.1 h')

theorem div_exact (x y : Word) :
    exactValue (signBit x != signBit y) (magUnits x * 2 ^ 1074) (magUnits y) = toRat x / toRat y := by
  rw [exactValue, toRat_eq, toRat_eq, signFactor_div, magUnits, magUnits]
  push_cast
  rcases eq_or_ne (unitsOf (magBits y) : ℚ) 0 with h | h
  · simp [h]
  · have hs : signFactor (signBit y) ≠ 0 := by cases signBit y <;> simp [signFactor]
    field_simp

theorem div64_eq {x y : Word} (hx : isFinite x = true) (hy : isFinite y = true) (h0 : toRat y ≠ 0) :
    div64 x y = roundTo (signBit x != signBit y) (magUnits x * 2 ^ 1074) (magUnits y) := by
  have h := (magUnits_pos h0).ne'
  rw [div64, isNaN_of_isFinite hx, isNaN_of_isFinite hy, isInf_of_isFinite hx, isInf_of_isFinite hy, if_neg h]
  rfl

theorem div64_nearest {x y : Word} (hx : isFinite x = true) (hy : isFinite y = true) (h0 : toRat y ≠ 0)
    (hf : isFinite (div64 x y) = true) : IsNearestEven (toRat x / toRat y) (div64 x y) := by
  rw [div64_eq hx hy h0] at hf ⊢
  rw [← div_exact]
  exact roundTo_isNearestEven (magUnits_pos h0) hf

theorem div64_isFinite {x y v : Word} (hx : isFinite x = true) (hy : isFinite y = true) (h0 : toRat y ≠ 0)
    (hv : isFinite v = true) (h : |toRat x / toRat y| ≤ |toRat v|) : isFinite (div64 x y) = true := by
  rw [div64_eq hx hy h0]
  exact isFinite_roundTo_of_abs_le (magUnits_pos h0) hv (by rwa [div_exact])

/-! ### The truncated remainder -/

/-- Every magnitude that is a whole number of units below a pattern's and a multiple of its last place is a pattern's
own; in particular a remainder of two magnitudes is. -/
theorem exists_pattern_of_mod (p q : Nat) (hq : q ≠ 0) :
    ∃ r, r ≤ p ∧ unitsOf r = unitsOf p % unitsOf q := by
  obtain ⟨sp, mp, hpe, hmp, -, hpu⟩ := pattern_form p
  obtain ⟨sq, mq, hqe, hmq, hq52, hqu⟩ := pattern_form q
  have hq0 : 0 < unitsOf q := Nat.pos_of_ne_zero fun h => hq (unitsOf_eq_zero.1 h)
  rcases Nat.lt_or_ge (unitsOf p) (unitsOf q) with hlt | hge
  · exact ⟨p, le_rfl, (Nat.mod_eq_of_lt hlt).symm⟩
  · -- the remainder is a multiple of the divisor's last place, with a significand below 2^53
    have hs : sq ≤ sp ∨ sq = 0 := by
      by_contra hc
      have hqp : q ≤ p := unitsOf_le.1 hge
      have := hq52 (by omega)
      omega
    have hdvd : 2 ^ sq ∣ unitsOf p := by
      rcases hs with h | h
      · rw [hpu]; exact Dvd.dvd.mul_left (Nat.pow_dvd_pow 2 h) mp
      · simp [h]
    obtain ⟨k, hk⟩ := hdvd
    have hr : unitsOf p % unitsOf q = (k % mq) * 2 ^ sq := by
      rw [hk, hqu, Nat.mul_comm mq, Nat.mul_mod_mul_left, Nat.mul_comm]
    have hmq0 : 0 < mq := Nat.pos_of_ne_zero fun h => hq0.ne' (by rw [hqu, h, Nat.zero_mul])
    have hk53 : k % mq < 2 ^ 53 := lt_trans (Nat.mod_lt _ hmq0) hmq
    -- shift the significand up until it is normal, or the place is 0
    have hshift : ∀ (s m : Nat), m < 2 ^ 53 → ∃ r, unitsOf r = m * 2 ^ s := by
      intro s
      induction s with
      | zero => exact fun m hm => ⟨m, by simpa using unitsOf_pattern (s := 0) hm.le (fun h => absurd rfl h)⟩
      | succ s ih =>
        intro m hm
        rcases Nat.lt_or_ge m (2 ^ 52) with h | h
        · obtain ⟨r, hr⟩ := ih (m * 2) (by omega)
          exact ⟨r, by rw [hr, Nat.pow_succ]; ring⟩
        · exact ⟨_, unitsOf_pattern (s := s + 1) hm.le (fun _ => h)⟩
    obtain ⟨r, hr'⟩ := hshift sq (k % mq) hk53
    refine ⟨r, ?_, hr'.trans hr.symm⟩
    rw [← unitsOf_le, hr', ← hr]
    exact Nat.mod_le _ _

/-- `fmod` is exact: its magnitude is the remainder of the magnitudes, its sign that of the first operand. -/
theorem fmod64_parts {x p : Word} (hx : isFinite x = true) (hp : isFinite p = true) (h0 : toRat p ≠ 0) :
    magUnits (fmod64 x p) = magUnits x % magUnits p ∧ signBit (fmod64 x p) = signBit x ∧
      isFinite (fmod64 x p) = true := by
  have hpos := magUnits_pos h0
  have hu : fmod64 x p = roundTo (signBit x) (magUnits x % magUnits p) 1 := by
    rw [fmod64, isNaN_of_isFinite hx, isNaN_of_isFinite hp, isInf_of_isFinite hx, isInf_of_isFinite hp]
    simp [hpos.ne']
  have hxf := (isFinite_iff x).1 hx
  have hp0 : magBits p ≠ 0 := fun h => h0 ((toRat_eq_zero_iff p).2 h)
  obtain ⟨r, hrle, hr⟩ := exists_pattern_of_mod (magBits x) (magBits p) hp0
  have hrm : roundMag (magUnits x % magUnits p) 1 = r :=
    roundMag_exact Nat.one_pos (by omega) (by rw [Nat.mul_one, hr]; rfl)
  rw [hu]
  refine ⟨?_, signBit_roundTo _ _ _, ?_⟩
  · rw [magUnits, magBits_roundTo, hrm, hr]; rfl
  · rw [isFinite_iff, magBits_roundTo, hrm]; omega

/-! ### Magnitudes -/

theorem abs_toRat_le_iff (x y : Word) : |toRat x| ≤ |toRat y| ↔ magBits x ≤ magBits y := by
  rw [abs_toRat, abs_toRat, div_le_div_iff_of_pos_right (pow_pos two_pos _), Nat.cast_le, unitsOf_le]

/-- A product of smaller factors has no larger magnitude after rounding. -/
theorem abs_mul64_mono {x y x' y' : Word} (hx : isFinite x = true) (hy : isFinite y = true)
    (hx' : isFinite x' = true) (hy' : isFinite y' = true) (h1 : magBits x ≤ magBits x') (h2 : magBits y ≤ magBits y') :
    magBits (mul64 x y) ≤ magBits (mul64 x' y') := by
  rw [mul64_eq hx hy, mul64_eq hx' hy', magBits_roundTo, magBits_roundTo]
  exact roundMag_mono (by positivity) (by positivity)
    (Nat.mul_le_mul_right _ (Nat.mul_le_mul (unitsOf_le.2 h1) (unitsOf_le.2 h2)))

end Sys2Proof.Machine
end

