-- ==== Sys2Proof/Laws/Decode.lean ====
section
/-! SUPPORT. The fields of a word, and the number tables in both directions. -/

namespace Sys2Proof

/-! ### Fields (R69) -/

theorem getLsbD_mkWord (op idx : BitVec 8) (d : Word) (j : Nat) :
    (mkWord op idx d).getLsbD j =
      if j < 64 then d.getLsbD j else if j - 64 < 8 then idx.getLsbD (j - 64) else op.getLsbD (j - 64 - 8) := by
  have h : (mkWord op idx d).getLsbD j = if j < 64 then d.getLsbD j else (op ++ idx).getLsbD (j - 64) :=
    BitVec.getLsbD_append
  rw [h, BitVec.getLsbD_append]

@[simp] theorem opField_mkWord (op idx : BitVec 8) (d : Word) : opField (mkWord op idx d) = op := by
  apply BitVec.eq_of_getLsbD_eq
  intro j hj
  rw [opField, BitVec.getLsbD_extractLsb', getLsbD_mkWord, if_neg (by omega), if_neg (by omega),
    show 72 + j - 64 - 8 = j by omega]
  simp [hj]

@[simp] theorem idxField_mkWord (op idx : BitVec 8) (d : Word) : idxField (mkWord op idx d) = idx := by
  apply BitVec.eq_of_getLsbD_eq
  intro j hj
  rw [idxField, BitVec.getLsbD_extractLsb', getLsbD_mkWord, if_neg (by omega), if_pos (by omega),
    show 64 + j - 64 = j by omega]
  simp [hj]

@[simp] theorem dataField_mkWord (op idx : BitVec 8) (d : Word) : dataField (mkWord op idx d) = d := by
  apply BitVec.eq_of_getLsbD_eq
  intro j hj
  rw [dataField, BitVec.getLsbD_extractLsb', getLsbD_mkWord, if_pos (by omega), Nat.zero_add]
  simp [hj]

/-- A word is its three fields. -/
theorem mkWord_fields (w : CmdWord) : mkWord (opField w) (idxField w) (dataField w) = w := by
  apply BitVec.eq_of_getLsbD_eq
  intro j hj
  rw [getLsbD_mkWord]
  simp only [opField, idxField, dataField, BitVec.getLsbD_extractLsb']
  by_cases h1 : j < 64
  · simp [h1]
  · by_cases h2 : j - 64 < 8
    · simp [h1, h2, show 64 + (j - 64) = j by omega]
    · simp [h1, h2, show 72 + (j - 64 - 8) = j by omega, show j - 64 - 8 < 8 by omega]

/-- A word is known from its fields. -/
theorem eq_mkWord {w : CmdWord} {op idx : BitVec 8} {d : Word} (ho : opField w = op) (hi : idxField w = idx)
    (hd : dataField w = d) : w = mkWord op idx d := by rw [← ho, ← hi, ← hd, mkWord_fields]

/-! ### Numbers -/

theorem regOfNumber_numberOfReg (r : Reg) : regOfNumber (numberOfReg r) = some r := by
  cases r with
  | slot n k => cases n <;> cases k <;> rfl
  | _ => rfl

theorem numberOfReg_of_regOfNumber : ∀ i : BitVec 8, ∀ r, regOfNumber i = some r → numberOfReg r = i := by
  have h : ∀ i : BitVec 8, (regOfNumber i).map numberOfReg = some i ∨ regOfNumber i = none := by decide +kernel
  intro i r hr
  rcases h i with h | h
  · rw [hr] at h; exact Option.some.inj h
  · rw [hr] at h; cases h

theorem presetOfNumber_numberOfPreset (p : Preset) : presetOfNumber (numberOfPreset p) = some p := by
  cases p <;> rfl

theorem numberOfPreset_of_presetOfNumber : ∀ i : BitVec 8, ∀ p, presetOfNumber i = some p → numberOfPreset p = i := by
  have h : ∀ i : BitVec 8, (presetOfNumber i).map numberOfPreset = some i ∨ presetOfNumber i = none := by decide +kernel
  intro i r hr
  rcases h i with h | h
  · rw [hr] at h; exact Option.some.inj h
  · rw [hr] at h; cases h

theorem opOfCode_codeOfOp (o : Op) : opOfCode (codeOfOp o) = some o := by cases o <;> rfl

theorem codeOfOp_of_opOfCode : ∀ c : BitVec 8, ∀ o, opOfCode c = some o → codeOfOp o = c := by
  have h : ∀ i : BitVec 8, (opOfCode i).map codeOfOp = some i ∨ opOfCode i = none := by decide +kernel
  intro i r hr
  rcases h i with h | h
  · rw [hr] at h; exact Option.some.inj h
  · rw [hr] at h; cases h

/-- What decoding does once the opcode is known (R79). -/
theorem decode_of_op {p : Port} {w : CmdWord} {o : Op} (h : opOfCode (opField w) = some o) :
    decode p w =
      if opAdmittedOn o p then
        (if zeroFieldsOk o (idxField w) (dataField w) then decodeOperands o (idxField w) (dataField w)
         else .error .mustBeZero)
      else .error .wrongPort := by
  rw [decode, h]

/-- What a word that decodes has passed (R79). -/
theorem decode_ok {p : Port} {w : CmdWord} {i : Instr} (h : decode p w = .ok i) :
    ∃ o, opOfCode (opField w) = some o ∧ opAdmittedOn o p = true ∧
      zeroFieldsOk o (idxField w) (dataField w) = true ∧ decodeOperands o (idxField w) (dataField w) = .ok i := by
  unfold decode at h
  split at h
  · cases h
  · rename_i o ho
    split at h
    · split at h
      · exact ⟨o, ho, ‹_›, ‹_›, h⟩
      · cases h
    · cases h

/-- A word that does not decode is illegal (R78). -/
theorem decode_error_or_ok (p : Port) (w : CmdWord) : (∃ e, decode p w = .error e) ∨ ∃ i, decode p w = .ok i := by
  cases h : decode p w
  · exact .inl ⟨_, rfl⟩
  · exact .inr ⟨_, rfl⟩

/-- A command that decodes is well-formed and admitted on its port. -/
theorem legal_of_decode {p : Port} {w : CmdWord} {i : Instr} (h : decode p w = .ok i) : i.Legal p := by
  obtain ⟨o, -, hp, -, hd⟩ := decode_ok h
  cases o <;> simp only [decodeOperands, valueCommand, decodeWrCfg] at hd
  all_goals repeat' split at hd
  all_goals first
    | cases hd; done
    | (cases hd; exact ⟨by simp_all [Instr.wellFormed], hp⟩)

end Sys2Proof
end

