-- ==== Sys2Proof/Laws/State.lean ====
section
/-! SUPPORT. One lemma per field per update: what each named update of the state and of the registers does to each
field. Later proofs cite these and unfold no record update. -/

namespace Sys2Proof.Machine

/-! ### Faults and responses -/

@[simp] theorem State.raise_regs (s : State) (f : FaultBit) :
    (s.raise f).regs = s.regs.raise f := rfl
@[simp] theorem State.raise_cpQueue (s : State) (f : FaultBit) :
    (s.raise f).cpQueue = s.cpQueue := rfl
@[simp] theorem State.raise_rpQueue (s : State) (f : FaultBit) :
    (s.raise f).rpQueue = s.rpQueue := rfl
@[simp] theorem State.raise_agenda (s : State) (f : FaultBit) :
    (s.raise f).agenda = s.agenda := rfl
@[simp] theorem State.raise_cpResp (s : State) (f : FaultBit) :
    (s.raise f).cpResp = s.cpResp := rfl
@[simp] theorem State.raise_rpResp (s : State) (f : FaultBit) :
    (s.raise f).rpResp = s.rpResp := rfl
@[simp] theorem State.raise_draws (s : State) (f : FaultBit) :
    (s.raise f).draws = s.draws := rfl
@[simp] theorem State.raise_drawCount (s : State) (f : FaultBit) :
    (s.raise f).drawCount = s.drawCount := rfl
@[simp] theorem State.raise_freeCount (s : State) (f : FaultBit) :
    (s.raise f).freeCount = s.freeCount := rfl

@[simp] theorem State.illegal_regs (s : State) :
    (s.illegal).regs = s.regs.raise .ill := rfl
@[simp] theorem State.illegal_cpQueue (s : State) :
    (s.illegal).cpQueue = s.cpQueue := rfl
@[simp] theorem State.illegal_rpQueue (s : State) :
    (s.illegal).rpQueue = s.rpQueue := rfl
@[simp] theorem State.illegal_agenda (s : State) :
    (s.illegal).agenda = s.agenda := rfl
@[simp] theorem State.illegal_cpResp (s : State) :
    (s.illegal).cpResp = s.cpResp := rfl
@[simp] theorem State.illegal_rpResp (s : State) :
    (s.illegal).rpResp = s.rpResp := rfl
@[simp] theorem State.illegal_draws (s : State) :
    (s.illegal).draws = s.draws := rfl
@[simp] theorem State.illegal_drawCount (s : State) :
    (s.illegal).drawCount = s.drawCount := rfl
@[simp] theorem State.illegal_freeCount (s : State) :
    (s.illegal).freeCount = s.freeCount := rfl

@[simp] theorem State.respond_regs (s : State) (p : Port) (v : Word) :
    (s.respond p v).regs = s.regs := by cases p <;> rfl
@[simp] theorem State.respond_cpQueue (s : State) (p : Port) (v : Word) :
    (s.respond p v).cpQueue = s.cpQueue := by cases p <;> rfl
@[simp] theorem State.respond_rpQueue (s : State) (p : Port) (v : Word) :
    (s.respond p v).rpQueue = s.rpQueue := by cases p <;> rfl
@[simp] theorem State.respond_agenda (s : State) (p : Port) (v : Word) :
    (s.respond p v).agenda = s.agenda := by cases p <;> rfl
@[simp] theorem State.respond_cpResp (s : State) (p : Port) (v : Word) :
    (s.respond p v).cpResp = if p = .cp then s.cpResp ++ [v] else s.cpResp := by cases p <;> rfl
@[simp] theorem State.respond_rpResp (s : State) (p : Port) (v : Word) :
    (s.respond p v).rpResp = if p = .rp then s.rpResp ++ [v] else s.rpResp := by cases p <;> rfl
@[simp] theorem State.respond_draws (s : State) (p : Port) (v : Word) :
    (s.respond p v).draws = s.draws := by cases p <;> rfl
@[simp] theorem State.respond_drawCount (s : State) (p : Port) (v : Word) :
    (s.respond p v).drawCount = s.drawCount := by cases p <;> rfl
@[simp] theorem State.respond_freeCount (s : State) (p : Port) (v : Word) :
    (s.respond p v).freeCount = s.freeCount := by cases p <;> rfl

@[simp] theorem State.illegalAnswered_regs (s : State) (p : Port) :
    (s.illegalAnswered p).regs = s.regs.raise .ill := by cases p <;> rfl
@[simp] theorem State.illegalAnswered_cpQueue (s : State) (p : Port) :
    (s.illegalAnswered p).cpQueue = s.cpQueue := by cases p <;> rfl
@[simp] theorem State.illegalAnswered_rpQueue (s : State) (p : Port) :
    (s.illegalAnswered p).rpQueue = s.rpQueue := by cases p <;> rfl
@[simp] theorem State.illegalAnswered_agenda (s : State) (p : Port) :
    (s.illegalAnswered p).agenda = s.agenda := by cases p <;> rfl
@[simp] theorem State.illegalAnswered_cpResp (s : State) (p : Port) :
    (s.illegalAnswered p).cpResp = if p = .cp then s.cpResp ++ [0#64] else s.cpResp := by cases p <;> rfl
@[simp] theorem State.illegalAnswered_rpResp (s : State) (p : Port) :
    (s.illegalAnswered p).rpResp = if p = .rp then s.rpResp ++ [0#64] else s.rpResp := by cases p <;> rfl
@[simp] theorem State.illegalAnswered_draws (s : State) (p : Port) :
    (s.illegalAnswered p).draws = s.draws := by cases p <;> rfl
@[simp] theorem State.illegalAnswered_drawCount (s : State) (p : Port) :
    (s.illegalAnswered p).drawCount = s.drawCount := by cases p <;> rfl
@[simp] theorem State.illegalAnswered_freeCount (s : State) (p : Port) :
    (s.illegalAnswered p).freeCount = s.freeCount := by cases p <;> rfl

/-! ### Queues, draws, turns, reset -/

@[simp] theorem State.setQueue_regs (s : State) (p : Port) (q : List CmdWord) :
    (s.setQueue p q).regs = s.regs := by cases p <;> rfl
@[simp] theorem State.setQueue_cpQueue (s : State) (p : Port) (q : List CmdWord) :
    (s.setQueue p q).cpQueue = if p = .cp then q else s.cpQueue := by cases p <;> rfl
@[simp] theorem State.setQueue_rpQueue (s : State) (p : Port) (q : List CmdWord) :
    (s.setQueue p q).rpQueue = if p = .rp then q else s.rpQueue := by cases p <;> rfl
@[simp] theorem State.setQueue_agenda (s : State) (p : Port) (q : List CmdWord) :
    (s.setQueue p q).agenda = s.agenda := by cases p <;> rfl
@[simp] theorem State.setQueue_cpResp (s : State) (p : Port) (q : List CmdWord) :
    (s.setQueue p q).cpResp = s.cpResp := by cases p <;> rfl
@[simp] theorem State.setQueue_rpResp (s : State) (p : Port) (q : List CmdWord) :
    (s.setQueue p q).rpResp = s.rpResp := by cases p <;> rfl
@[simp] theorem State.setQueue_draws (s : State) (p : Port) (q : List CmdWord) :
    (s.setQueue p q).draws = s.draws := by cases p <;> rfl
@[simp] theorem State.setQueue_drawCount (s : State) (p : Port) (q : List CmdWord) :
    (s.setQueue p q).drawCount = s.drawCount := by cases p <;> rfl
@[simp] theorem State.setQueue_freeCount (s : State) (p : Port) (q : List CmdWord) :
    (s.setQueue p q).freeCount = s.freeCount := by cases p <;> rfl

@[simp] theorem State.takeDraws_regs (s : State) (k : Nat) :
    (s.takeDraws k).regs = s.regs := rfl
@[simp] theorem State.takeDraws_cpQueue (s : State) (k : Nat) :
    (s.takeDraws k).cpQueue = s.cpQueue := rfl
@[simp] theorem State.takeDraws_rpQueue (s : State) (k : Nat) :
    (s.takeDraws k).rpQueue = s.rpQueue := rfl
@[simp] theorem State.takeDraws_agenda (s : State) (k : Nat) :
    (s.takeDraws k).agenda = s.agenda := rfl
@[simp] theorem State.takeDraws_cpResp (s : State) (k : Nat) :
    (s.takeDraws k).cpResp = s.cpResp := rfl
@[simp] theorem State.takeDraws_rpResp (s : State) (k : Nat) :
    (s.takeDraws k).rpResp = s.rpResp := rfl
@[simp] theorem State.takeDraws_draws (s : State) (k : Nat) :
    (s.takeDraws k).draws = s.draws.drop k := rfl
@[simp] theorem State.takeDraws_drawCount (s : State) (k : Nat) :
    (s.takeDraws k).drawCount = s.drawCount + k := rfl
@[simp] theorem State.takeDraws_freeCount (s : State) (k : Nat) :
    (s.takeDraws k).freeCount = s.freeCount := rfl

@[simp] theorem takeTurn_regs (s : State) :
    (takeTurn s).regs = s.regs := rfl
@[simp] theorem takeTurn_cpQueue (s : State) :
    (takeTurn s).cpQueue = s.cpQueue := rfl
@[simp] theorem takeTurn_rpQueue (s : State) :
    (takeTurn s).rpQueue = s.rpQueue := rfl
@[simp] theorem takeTurn_agenda (s : State) :
    (takeTurn s).agenda = s.agenda.tail := rfl
@[simp] theorem takeTurn_cpResp (s : State) :
    (takeTurn s).cpResp = s.cpResp := rfl
@[simp] theorem takeTurn_rpResp (s : State) :
    (takeTurn s).rpResp = s.rpResp := rfl
@[simp] theorem takeTurn_draws (s : State) :
    (takeTurn s).draws = s.draws := rfl
@[simp] theorem takeTurn_drawCount (s : State) :
    (takeTurn s).drawCount = s.drawCount := rfl
@[simp] theorem takeTurn_freeCount (s : State) :
    (takeTurn s).freeCount = if choiceIsFree s then s.freeCount + 1 else s.freeCount := rfl

@[simp] theorem State.afterReset_regs (s : State) (a b : Nat) :
    (s.afterReset a b).regs = Regs.reset := rfl
@[simp] theorem State.afterReset_cpQueue (s : State) (a b : Nat) :
    (s.afterReset a b).cpQueue = s.cpQueue.drop a := rfl
@[simp] theorem State.afterReset_rpQueue (s : State) (a b : Nat) :
    (s.afterReset a b).rpQueue = s.rpQueue.drop b := rfl
@[simp] theorem State.afterReset_agenda (s : State) (a b : Nat) :
    (s.afterReset a b).agenda = s.agenda := rfl
@[simp] theorem State.afterReset_cpResp (s : State) (a b : Nat) :
    (s.afterReset a b).cpResp = s.cpResp := rfl
@[simp] theorem State.afterReset_rpResp (s : State) (a b : Nat) :
    (s.afterReset a b).rpResp = s.rpResp := rfl
@[simp] theorem State.afterReset_draws (s : State) (a b : Nat) :
    (s.afterReset a b).draws = s.draws := rfl
@[simp] theorem State.afterReset_drawCount (s : State) (a b : Nat) :
    (s.afterReset a b).drawCount = s.drawCount := rfl
@[simp] theorem State.afterReset_freeCount (s : State) (a b : Nat) :
    (s.afterReset a b).freeCount = s.freeCount := rfl

@[simp] theorem State.withCommand_regs (s : State) (p : Port) (w : CmdWord) :
    (s.withCommand p w).regs = s.regs := by cases p <;> rfl
@[simp] theorem State.withCommand_cpQueue (s : State) (p : Port) (w : CmdWord) :
    (s.withCommand p w).cpQueue = if p = .cp then w :: s.cpQueue else s.cpQueue := by cases p <;> rfl
@[simp] theorem State.withCommand_rpQueue (s : State) (p : Port) (w : CmdWord) :
    (s.withCommand p w).rpQueue = if p = .rp then w :: s.rpQueue else s.rpQueue := by cases p <;> rfl
@[simp] theorem State.withCommand_agenda (s : State) (p : Port) (w : CmdWord) :
    (s.withCommand p w).agenda = .port p :: s.agenda := by cases p <;> rfl
@[simp] theorem State.withCommand_cpResp (s : State) (p : Port) (w : CmdWord) :
    (s.withCommand p w).cpResp = s.cpResp := by cases p <;> rfl
@[simp] theorem State.withCommand_rpResp (s : State) (p : Port) (w : CmdWord) :
    (s.withCommand p w).rpResp = s.rpResp := by cases p <;> rfl
@[simp] theorem State.withCommand_draws (s : State) (p : Port) (w : CmdWord) :
    (s.withCommand p w).draws = s.draws := by cases p <;> rfl
@[simp] theorem State.withCommand_drawCount (s : State) (p : Port) (w : CmdWord) :
    (s.withCommand p w).drawCount = s.drawCount := by cases p <;> rfl
@[simp] theorem State.withCommand_freeCount (s : State) (p : Port) (w : CmdWord) :
    (s.withCommand p w).freeCount = s.freeCount := by cases p <;> rfl

/-! ### A meaning that replaces only the registers -/

@[simp] theorem Regs.raise_envAttack {V : Type} (r : Regs V) (x : FaultBit) :
    (r.raise x).envAttack = r.envAttack := rfl
@[simp] theorem Regs.raise_envDecay {V : Type} (r : Regs V) (x : FaultBit) :
    (r.raise x).envDecay = r.envDecay := rfl
@[simp] theorem Regs.raise_envSustain {V : Type} (r : Regs V) (x : FaultBit) :
    (r.raise x).envSustain = r.envSustain := rfl
@[simp] theorem Regs.raise_envRelease {V : Type} (r : Regs V) (x : FaultBit) :
    (r.raise x).envRelease = r.envRelease := rfl
@[simp] theorem Regs.raise_envStart {V : Type} (r : Regs V) (x : FaultBit) :
    (r.raise x).envStart = r.envStart := rfl
@[simp] theorem Regs.raise_mvol {V : Type} (r : Regs V) (x : FaultBit) :
    (r.raise x).mvol = r.mvol := rfl
@[simp] theorem Regs.raise_tOn {V : Type} (r : Regs V) (x : FaultBit) :
    (r.raise x).tOn = r.tOn := rfl
@[simp] theorem Regs.raise_tOff {V : Type} (r : Regs V) (x : FaultBit) :
    (r.raise x).tOff = r.tOff := rfl
@[simp] theorem Regs.raise_freq {V : Type} (r : Regs V) (x : FaultBit) :
    (r.raise x).freq = r.freq := rfl
@[simp] theorem Regs.raise_flags {V : Type} (r : Regs V) (x : FaultBit) :
    (r.raise x).flags = r.flags := rfl
@[simp] theorem Regs.raise_status {V : Type} (r : Regs V) (x : FaultBit) :
    (r.raise x).status = r.status ||| faultMask x := rfl
@[simp] theorem Regs.raise_slot0 {V : Type} (r : Regs V) (x : FaultBit) :
    (r.raise x).slot0 = r.slot0 := rfl
@[simp] theorem Regs.raise_slot1 {V : Type} (r : Regs V) (x : FaultBit) :
    (r.raise x).slot1 = r.slot1 := rfl
@[simp] theorem Regs.raise_slot2 {V : Type} (r : Regs V) (x : FaultBit) :
    (r.raise x).slot2 = r.slot2 := rfl
@[simp] theorem Regs.raise_slot3 {V : Type} (r : Regs V) (x : FaultBit) :
    (r.raise x).slot3 = r.slot3 := rfl

@[simp] theorem Regs.raiseIf_envAttack {V : Type} (r : Regs V) (c : Bool) (x : FaultBit) :
    (r.raiseIf c x).envAttack = r.envAttack := by cases c <;> rfl
@[simp] theorem Regs.raiseIf_envDecay {V : Type} (r : Regs V) (c : Bool) (x : FaultBit) :
    (r.raiseIf c x).envDecay = r.envDecay := by cases c <;> rfl
@[simp] theorem Regs.raiseIf_envSustain {V : Type} (r : Regs V) (c : Bool) (x : FaultBit) :
    (r.raiseIf c x).envSustain = r.envSustain := by cases c <;> rfl
@[simp] theorem Regs.raiseIf_envRelease {V : Type} (r : Regs V) (c : Bool) (x : FaultBit) :
    (r.raiseIf c x).envRelease = r.envRelease := by cases c <;> rfl
@[simp] theorem Regs.raiseIf_envStart {V : Type} (r : Regs V) (c : Bool) (x : FaultBit) :
    (r.raiseIf c x).envStart = r.envStart := by cases c <;> rfl
@[simp] theorem Regs.raiseIf_mvol {V : Type} (r : Regs V) (c : Bool) (x : FaultBit) :
    (r.raiseIf c x).mvol = r.mvol := by cases c <;> rfl
@[simp] theorem Regs.raiseIf_tOn {V : Type} (r : Regs V) (c : Bool) (x : FaultBit) :
    (r.raiseIf c x).tOn = r.tOn := by cases c <;> rfl
@[simp] theorem Regs.raiseIf_tOff {V : Type} (r : Regs V) (c : Bool) (x : FaultBit) :
    (r.raiseIf c x).tOff = r.tOff := by cases c <;> rfl
@[simp] theorem Regs.raiseIf_freq {V : Type} (r : Regs V) (c : Bool) (x : FaultBit) :
    (r.raiseIf c x).freq = r.freq := by cases c <;> rfl
@[simp] theorem Regs.raiseIf_flags {V : Type} (r : Regs V) (c : Bool) (x : FaultBit) :
    (r.raiseIf c x).flags = r.flags := by cases c <;> rfl
@[simp] theorem Regs.raiseIf_status {V : Type} (r : Regs V) (c : Bool) (x : FaultBit) :
    (r.raiseIf c x).status = if c then r.status ||| faultMask x else r.status := by cases c <;> rfl
@[simp] theorem Regs.raiseIf_slot0 {V : Type} (r : Regs V) (c : Bool) (x : FaultBit) :
    (r.raiseIf c x).slot0 = r.slot0 := by cases c <;> rfl
@[simp] theorem Regs.raiseIf_slot1 {V : Type} (r : Regs V) (c : Bool) (x : FaultBit) :
    (r.raiseIf c x).slot1 = r.slot1 := by cases c <;> rfl
@[simp] theorem Regs.raiseIf_slot2 {V : Type} (r : Regs V) (c : Bool) (x : FaultBit) :
    (r.raiseIf c x).slot2 = r.slot2 := by cases c <;> rfl
@[simp] theorem Regs.raiseIf_slot3 {V : Type} (r : Regs V) (c : Bool) (x : FaultBit) :
    (r.raiseIf c x).slot3 = r.slot3 := by cases c <;> rfl

@[simp] theorem Regs.afterSample_envAttack {V : Type} (r : Regs V) (d n : Bool) :
    (r.afterSample d n).envAttack = r.envAttack := by cases d <;> cases n <;> rfl
@[simp] theorem Regs.afterSample_envDecay {V : Type} (r : Regs V) (d n : Bool) :
    (r.afterSample d n).envDecay = r.envDecay := by cases d <;> cases n <;> rfl
@[simp] theorem Regs.afterSample_envSustain {V : Type} (r : Regs V) (d n : Bool) :
    (r.afterSample d n).envSustain = r.envSustain := by cases d <;> cases n <;> rfl
@[simp] theorem Regs.afterSample_envRelease {V : Type} (r : Regs V) (d n : Bool) :
    (r.afterSample d n).envRelease = r.envRelease := by cases d <;> cases n <;> rfl
@[simp] theorem Regs.afterSample_envStart {V : Type} (r : Regs V) (d n : Bool) :
    (r.afterSample d n).envStart = r.envStart := by cases d <;> cases n <;> rfl
@[simp] theorem Regs.afterSample_mvol {V : Type} (r : Regs V) (d n : Bool) :
    (r.afterSample d n).mvol = r.mvol := by cases d <;> cases n <;> rfl
@[simp] theorem Regs.afterSample_tOn {V : Type} (r : Regs V) (d n : Bool) :
    (r.afterSample d n).tOn = r.tOn := by cases d <;> cases n <;> rfl
@[simp] theorem Regs.afterSample_tOff {V : Type} (r : Regs V) (d n : Bool) :
    (r.afterSample d n).tOff = r.tOff := by cases d <;> cases n <;> rfl
@[simp] theorem Regs.afterSample_freq {V : Type} (r : Regs V) (d n : Bool) :
    (r.afterSample d n).freq = r.freq := by cases d <;> cases n <;> rfl
@[simp] theorem Regs.afterSample_flags {V : Type} (r : Regs V) (d n : Bool) :
    (r.afterSample d n).flags = r.flags := by cases d <;> cases n <;> rfl
@[simp] theorem Regs.afterSample_status {V : Type} (r : Regs V) (d n : Bool) :
    (r.afterSample d n).status = if n then (if d then r.status ||| 0x2#64 else r.status) ||| 0x4#64
      else if d then r.status ||| 0x2#64 else r.status := by cases d <;> cases n <;> rfl
@[simp] theorem Regs.afterSample_slot0 {V : Type} (r : Regs V) (d n : Bool) :
    (r.afterSample d n).slot0 = r.slot0 := by cases d <;> cases n <;> rfl
@[simp] theorem Regs.afterSample_slot1 {V : Type} (r : Regs V) (d n : Bool) :
    (r.afterSample d n).slot1 = r.slot1 := by cases d <;> cases n <;> rfl
@[simp] theorem Regs.afterSample_slot2 {V : Type} (r : Regs V) (d n : Bool) :
    (r.afterSample d n).slot2 = r.slot2 := by cases d <;> cases n <;> rfl
@[simp] theorem Regs.afterSample_slot3 {V : Type} (r : Regs V) (d n : Bool) :
    (r.afterSample d n).slot3 = r.slot3 := by cases d <;> cases n <;> rfl

@[simp] theorem Regs.noteOn_envAttack {V : Type} (r : Regs V) (t : V) :
    (r.noteOn t).envAttack = r.envAttack := rfl
@[simp] theorem Regs.noteOn_envDecay {V : Type} (r : Regs V) (t : V) :
    (r.noteOn t).envDecay = r.envDecay := rfl
@[simp] theorem Regs.noteOn_envSustain {V : Type} (r : Regs V) (t : V) :
    (r.noteOn t).envSustain = r.envSustain := rfl
@[simp] theorem Regs.noteOn_envRelease {V : Type} (r : Regs V) (t : V) :
    (r.noteOn t).envRelease = r.envRelease := rfl
@[simp] theorem Regs.noteOn_envStart {V : Type} (r : Regs V) (t : V) :
    (r.noteOn t).envStart = r.envStart := rfl
@[simp] theorem Regs.noteOn_mvol {V : Type} (r : Regs V) (t : V) :
    (r.noteOn t).mvol = r.mvol := rfl
@[simp] theorem Regs.noteOn_tOn {V : Type} (r : Regs V) (t : V) :
    (r.noteOn t).tOn = t := rfl
@[simp] theorem Regs.noteOn_tOff {V : Type} (r : Regs V) (t : V) :
    (r.noteOn t).tOff = r.tOff := rfl
@[simp] theorem Regs.noteOn_freq {V : Type} (r : Regs V) (t : V) :
    (r.noteOn t).freq = r.freq := rfl
@[simp] theorem Regs.noteOn_flags {V : Type} (r : Regs V) (t : V) :
    (r.noteOn t).flags = flagsNoteOn r.flags := rfl
@[simp] theorem Regs.noteOn_status {V : Type} (r : Regs V) (t : V) :
    (r.noteOn t).status = r.status := rfl
@[simp] theorem Regs.noteOn_slot0 {V : Type} (r : Regs V) (t : V) :
    (r.noteOn t).slot0 = r.slot0 := rfl
@[simp] theorem Regs.noteOn_slot1 {V : Type} (r : Regs V) (t : V) :
    (r.noteOn t).slot1 = r.slot1 := rfl
@[simp] theorem Regs.noteOn_slot2 {V : Type} (r : Regs V) (t : V) :
    (r.noteOn t).slot2 = r.slot2 := rfl
@[simp] theorem Regs.noteOn_slot3 {V : Type} (r : Regs V) (t : V) :
    (r.noteOn t).slot3 = r.slot3 := rfl

@[simp] theorem Regs.noteOff_envAttack {V : Type} (r : Regs V) (t : V) :
    (r.noteOff t).envAttack = r.envAttack := rfl
@[simp] theorem Regs.noteOff_envDecay {V : Type} (r : Regs V) (t : V) :
    (r.noteOff t).envDecay = r.envDecay := rfl
@[simp] theorem Regs.noteOff_envSustain {V : Type} (r : Regs V) (t : V) :
    (r.noteOff t).envSustain = r.envSustain := rfl
@[simp] theorem Regs.noteOff_envRelease {V : Type} (r : Regs V) (t : V) :
    (r.noteOff t).envRelease = r.envRelease := rfl
@[simp] theorem Regs.noteOff_envStart {V : Type} (r : Regs V) (t : V) :
    (r.noteOff t).envStart = r.envStart := rfl
@[simp] theorem Regs.noteOff_mvol {V : Type} (r : Regs V) (t : V) :
    (r.noteOff t).mvol = r.mvol := rfl
@[simp] theorem Regs.noteOff_tOn {V : Type} (r : Regs V) (t : V) :
    (r.noteOff t).tOn = r.tOn := rfl
@[simp] theorem Regs.noteOff_tOff {V : Type} (r : Regs V) (t : V) :
    (r.noteOff t).tOff = t := rfl
@[simp] theorem Regs.noteOff_freq {V : Type} (r : Regs V) (t : V) :
    (r.noteOff t).freq = r.freq := rfl
@[simp] theorem Regs.noteOff_flags {V : Type} (r : Regs V) (t : V) :
    (r.noteOff t).flags = flagsNoteOff r.flags := rfl
@[simp] theorem Regs.noteOff_status {V : Type} (r : Regs V) (t : V) :
    (r.noteOff t).status = r.status := rfl
@[simp] theorem Regs.noteOff_slot0 {V : Type} (r : Regs V) (t : V) :
    (r.noteOff t).slot0 = r.slot0 := rfl
@[simp] theorem Regs.noteOff_slot1 {V : Type} (r : Regs V) (t : V) :
    (r.noteOff t).slot1 = r.slot1 := rfl
@[simp] theorem Regs.noteOff_slot2 {V : Type} (r : Regs V) (t : V) :
    (r.noteOff t).slot2 = r.slot2 := rfl
@[simp] theorem Regs.noteOff_slot3 {V : Type} (r : Regs V) (t : V) :
    (r.noteOff t).slot3 = r.slot3 := rfl

@[simp] theorem Arith.loadVoice_envAttack {V : Type} (ar : Arith V) (r : Regs V) (v : Voice) :
    (ar.loadVoice r v).envAttack = ar.val v.attack := rfl
@[simp] theorem Arith.loadVoice_envDecay {V : Type} (ar : Arith V) (r : Regs V) (v : Voice) :
    (ar.loadVoice r v).envDecay = ar.val v.decay := rfl
@[simp] theorem Arith.loadVoice_envSustain {V : Type} (ar : Arith V) (r : Regs V) (v : Voice) :
    (ar.loadVoice r v).envSustain = ar.val v.sustain := rfl
@[simp] theorem Arith.loadVoice_envRelease {V : Type} (ar : Arith V) (r : Regs V) (v : Voice) :
    (ar.loadVoice r v).envRelease = ar.val v.release := rfl
@[simp] theorem Arith.loadVoice_envStart {V : Type} (ar : Arith V) (r : Regs V) (v : Voice) :
    (ar.loadVoice r v).envStart = ar.val v.start := rfl
@[simp] theorem Arith.loadVoice_mvol {V : Type} (ar : Arith V) (r : Regs V) (v : Voice) :
    (ar.loadVoice r v).mvol = r.mvol := rfl
@[simp] theorem Arith.loadVoice_tOn {V : Type} (ar : Arith V) (r : Regs V) (v : Voice) :
    (ar.loadVoice r v).tOn = ar.zero := rfl
@[simp] theorem Arith.loadVoice_tOff {V : Type} (ar : Arith V) (r : Regs V) (v : Voice) :
    (ar.loadVoice r v).tOff = ar.zero := rfl
@[simp] theorem Arith.loadVoice_freq {V : Type} (ar : Arith V) (r : Regs V) (v : Voice) :
    (ar.loadVoice r v).freq = r.freq := rfl
@[simp] theorem Arith.loadVoice_flags {V : Type} (ar : Arith V) (r : Regs V) (v : Voice) :
    (ar.loadVoice r v).flags = flagsClear r.flags := rfl
@[simp] theorem Arith.loadVoice_status {V : Type} (ar : Arith V) (r : Regs V) (v : Voice) :
    (ar.loadVoice r v).status = r.status := rfl
@[simp] theorem Arith.loadVoice_slot0 {V : Type} (ar : Arith V) (r : Regs V) (v : Voice) :
    (ar.loadVoice r v).slot0 = v.slot0.map ar.val := rfl
@[simp] theorem Arith.loadVoice_slot1 {V : Type} (ar : Arith V) (r : Regs V) (v : Voice) :
    (ar.loadVoice r v).slot1 = v.slot1.map ar.val := rfl
@[simp] theorem Arith.loadVoice_slot2 {V : Type} (ar : Arith V) (r : Regs V) (v : Voice) :
    (ar.loadVoice r v).slot2 = v.slot2.map ar.val := rfl
@[simp] theorem Arith.loadVoice_slot3 {V : Type} (ar : Arith V) (r : Regs V) (v : Voice) :
    (ar.loadVoice r v).slot3 = v.slot3.map ar.val := rfl

end Sys2Proof.Machine
end

