-- ==== Sys2Proof/Laws/Registers.lean ====
section
/-! SUPPORT. What a register reads as after each update, and what the legal data of a register are. -/

namespace Sys2Proof.Machine

/-! ### Bits of the bit-field registers -/

theorem getLsbD_flagsNoteOn (f : Word) (j : Nat) :
    (flagsNoteOn f).getLsbD j = (f.getLsbD j || decide (j < 2)) := by
  have h : (0x3#64 : Word) = BitVec.ofNat 64 (2 ^ 2 - 1) := rfl
  rw [flagsNoteOn, BitVec.getLsbD_or, h, BitVec.getLsbD_ofNat, Nat.testBit_two_pow_sub_one]
  rcases Nat.lt_or_ge j 2 with hj | hj
  · simp [hj, show j < 64 by omega]
  · simp [show ¬j ≤ 1 by omega]

theorem getLsbD_flagsNoteOff (f : Word) (j : Nat) :
    (flagsNoteOff f).getLsbD j = (f.getLsbD j && decide (j ≠ 0)) := by
  have h : (0x1#64 : Word) = BitVec.ofNat 64 (2 ^ 1 - 1) := rfl
  rw [flagsNoteOff, BitVec.getLsbD_and, BitVec.getLsbD_not, h, BitVec.getLsbD_ofNat, Nat.testBit_two_pow_sub_one]
  rcases Nat.lt_or_ge j 64 with hj | hj
  · simp [hj]
  · simp [hj]

theorem getLsbD_flagsClear (f : Word) (j : Nat) :
    (flagsClear f).getLsbD j = (f.getLsbD j && decide (2 ≤ j)) := by
  have h : (0x3#64 : Word) = BitVec.ofNat 64 (2 ^ 2 - 1) := rfl
  rw [flagsClear, BitVec.getLsbD_and, BitVec.getLsbD_not, h, BitVec.getLsbD_ofNat, Nat.testBit_two_pow_sub_one]
  rcases Nat.lt_or_ge j 64 with hj | hj
  · have e : decide (2 ≤ j) = !decide (j ≤ 1) := by rw [← decide_not]; exact decide_eq_decide.2 (by omega)
    simp [hj, e]
  · simp [hj]

theorem getLsbD_faultMask (x : FaultBit) (j : Nat) : (faultMask x).getLsbD j = decide (j = faultCode x) := by
  have h : faultMask x = BitVec.twoPow 64 (faultCode x) := by cases x <;> decide
  have hc : faultCode x < 64 := by cases x <;> decide
  rw [h, BitVec.getLsbD_twoPow]
  simp [hc, eq_comm]

/-- Raising a fault sets its bit and no other (R150). -/
theorem getLsbD_raise {V : Type} (r : Regs V) (x : FaultBit) (j : Nat) :
    (r.raise x).status.getLsbD j = (r.status.getLsbD j || decide (j = faultCode x)) := by
  rw [Regs.raise_status, BitVec.getLsbD_or, getLsbD_faultMask]

/-- What `SAMPLE` does to `STATUS`, bit by bit (R148). -/
theorem getLsbD_afterSample {V : Type} (r : Regs V) (d n : Bool) (j : Nat) :
    (r.afterSample d n).status.getLsbD j =
      (r.status.getLsbD j || (d && decide (j = 1)) || (n && decide (j = 2))) := by
  cases d <;> cases n <;>
    simp only [Regs.afterSample, Regs.raiseIf, if_true, if_false, Bool.false_eq_true, getLsbD_raise, faultCode,
      Bool.true_and, Bool.false_and, Bool.or_false] <;> rfl

/-! ### Reading -/

@[simp] theorem Regs.slot_raise {V : Type} (r : Regs V) (x : FaultBit) (n : SlotNo) :
    (r.raise x).slot n = r.slot n := by cases n <;> rfl

@[simp] theorem Regs.slot_afterSample {V : Type} (r : Regs V) (d e : Bool) (n : SlotNo) :
    (r.afterSample d e).slot n = r.slot n := by cases n <;> simp [Regs.slot]

theorem Regs.slot_setSlot {V : Type} (r : Regs V) (n m : SlotNo) (sl : SlotRegs V) :
    (r.setSlot n sl).slot m = if m = n then sl else r.slot m := by cases n <;> cases m <;> rfl

/-- The registers `STATUS` is not: each is a field another fault cannot reach. -/
theorem regRead_raise (r : Regs Word) (x : FaultBit) (i : Reg) (h : i ≠ .status) :
    regRead (r.raise x) i = regRead r i := by
  cases i <;> first | rfl | exact absurd rfl h

theorem regRead_afterSample (r : Regs Word) (d e : Bool) (i : Reg) (h : i ≠ .status) :
    regRead (r.afterSample d e) i = regRead r i := by
  cases i <;> first | exact absurd rfl h | simp [regRead, Regs.read]

/-- Registers that read alike everywhere are alike. -/
theorem Regs.ext_read {r r' : Regs Word} (h : ∀ i, regRead r i = regRead r' i) : r = r' := by
  have hs : ∀ n, r.slot n = r'.slot n := by
    intro n
    have e := fun k => h (.slot n k)
    have h0 := e .ctrl; have h1 := e .mult; have h2 := e .weight; have h3 := e .vdepth; have h4 := e .vrate
    simp only [regRead, Regs.read, SlotRegs.read, RegVal.word] at h0 h1 h2 h3 h4
    revert h0 h1 h2 h3 h4
    cases r.slot n; cases r'.slot n
    simp only [SlotRegs.mk.injEq]
    exact fun a b c d e => ⟨a, b, c, d, e⟩
  cases r; cases r'
  simp only [Regs.mk.injEq]
  exact ⟨h .envAttack, h .envDecay, h .envSustain, h .envRelease, h .envStart, h .mvol, h .tOn, h .tOff, h .freq,
    h .flags, h .status, hs .s0, hs .s1, hs .s2, hs .s3⟩

/-! ### Legal data and writing -/

/-- The value of a finite pattern is the pattern, on the hardware (R11). -/
theorem val_of_isFinite {d : Word} (h : isFinite d = true) : numB64.val d = d := by
  show ((if isFinite d then some d else none).getD zero64 : Word) = d
  rw [if_pos h]; rfl

theorem nonNegOk_iff (d : Word) : nonNegOk d = true ↔ isFinite d = true ∧ 0 ≤ toRat d := by
  have hz : isFinite zero64 = true := by decide
  have h0 : toRat zero64 = 0 := (toRat_eq_zero_iff _).2 (by decide)
  rw [nonNegOk, Bool.and_eq_true]
  exact and_congr_right fun h => by rw [le64_iff hz h, h0]

theorem toRat_one64 : toRat one64 = 1 := by
  have hm : magBits one64 = 1022 * 2 ^ 52 + 2 ^ 52 := by decide
  have h := unitsOf_pattern (s := 1022) (m := 2 ^ 52) (by norm_num) (fun _ => le_rfl)
  rw [toRat_eq, hm, h, show signBit one64 = false from rfl, signFactor, Nat.cast_mul, Nat.cast_pow, Nat.cast_pow,
    Nat.cast_ofNat, ← pow_add]
  exact (congrArg (· / _) (one_mul _)).trans (div_self (by positivity))

theorem unitOk_iff (d : Word) : unitOk d = true ↔ isFinite d = true ∧ 0 ≤ toRat d ∧ toRat d ≤ 1 := by
  have h1 : isFinite one64 = true := by decide
  have hn := nonNegOk_iff d
  rw [nonNegOk] at hn
  rw [unitOk, Bool.and_eq_true, hn, and_assoc]
  exact and_congr_right fun h => and_congr_right fun _ => by rw [le64_iff h h1, toRat_one64]

/-- A legal slot control word is stored as it was sent (R76). -/
theorem ctrlStored_of_ctrlOk {d : Word} (h : ctrlOk d = true) : ctrlStored d = d := by
  rw [ctrlOk, Bool.and_eq_true, beq_iff_eq, ← BitVec.toNat_inj] at h
  have h1 := h.1
  have hd := d.isLt
  simp only [BitVec.extractLsb'_toNat, Nat.shiftRight_eq_div_pow, BitVec.toNat_ofNat] at h1
  apply BitVec.eq_of_toNat_eq
  simp only [ctrlStored, BitVec.toNat_setWidth, BitVec.extractLsb'_toNat, Nat.shiftRight_zero]
  omega

/-- The legal data of every value register are finite. -/
theorem isFinite_of_legalData {i : Reg} {d : Word} (h : legalData i d = true) (hc : ∀ n, i ≠ .slot n .ctrl) :
    isFinite d = true := by
  cases i with
  | slot n k =>
    cases k
    · exact absurd rfl (hc n)
    · exact ((nonNegOk_iff d).1 h).1
    all_goals exact h
  | envAttack => exact ((nonNegOk_iff d).1 h).1
  | envDecay => exact ((nonNegOk_iff d).1 h).1
  | envRelease => exact ((nonNegOk_iff d).1 h).1
  | envSustain => exact ((unitOk_iff d).1 h).1
  | envStart => exact ((unitOk_iff d).1 h).1
  | mvol => exact ((unitOk_iff d).1 h).1
  | _ => exact absurd h Bool.false_ne_true

/-- A register that was written reads as what was sent (R56, R128). -/
theorem regRead_write_same (r : Regs Word) {i : Reg} {d : Word} (h : legalData i d = true) :
    regRead (r.write numB64.val i d) i = d := by
  have hv : (∀ n, i ≠ .slot n .ctrl) → numB64.val d = d := fun hc => val_of_isFinite (isFinite_of_legalData h hc)
  cases i with
  | slot n k =>
    rw [regRead, Regs.read, Regs.write, Regs.slot_setSlot, if_pos rfl]
    cases k with
    | ctrl => exact ctrlStored_of_ctrlOk h
    | _ => exact hv (by simp)
  | tOn => exact absurd h Bool.false_ne_true
  | tOff => exact absurd h Bool.false_ne_true
  | freq => exact absurd h Bool.false_ne_true
  | flags => exact absurd h Bool.false_ne_true
  | status => exact absurd h Bool.false_ne_true
  | _ => exact hv (by simp)

theorem Regs.read_setSlot_of_not_slot {V : Type} (r : Regs V) (n : SlotNo) (sl : SlotRegs V) {j : Reg}
    (h : ∀ m k, j ≠ .slot m k) : (r.setSlot n sl).read j = r.read j := by
  cases j <;> cases n <;> first | rfl | exact absurd rfl (h _ _)

/-- A write leaves every other register alone (R26). -/
theorem regRead_write_of_ne {V : Type} (f : Word → V) (r : Regs V) {i j : Reg} (d : Word) (h : j ≠ i) :
    (r.write f i d).read j = r.read j := by
  cases i with
  | slot n k =>
    cases j with
    | slot m l =>
      rw [Regs.read, Regs.read, Regs.write, Regs.slot_setSlot]
      split
      · rename_i e
        subst e
        cases k <;> cases l <;> first | rfl | exact absurd rfl h
      · rfl
    | _ => exact Regs.read_setSlot_of_not_slot _ _ _ (by simp)
  | _ => cases j <;> first | rfl | exact absurd rfl h

end Sys2Proof.Machine
end

