-- ==== Sys2Proof/Laws/Exec.lean ====
section
/-! SUPPORT. What each meaning answers, and what a step does, said once: later proofs cite these and unfold neither
`exec` nor `step`. -/

namespace Sys2Proof.Machine

/-! ### The meanings -/

@[simp] theorem exec_nop (s : State) : exec .nop s = .next s := rfl

theorem exec_noteOn {d : Word} (h : isFinite d = true) (s : State) :
    exec (.noteOn d) s = .next { s with regs := s.regs.noteOn d } := by
  show execNoteOn d s = _
  rw [execNoteOn, if_pos h, val_of_isFinite h]

theorem exec_noteOff {d : Word} (h : isFinite d = true) (s : State) :
    exec (.noteOff d) s = .next { s with regs := s.regs.noteOff d } := by
  show execNoteOff d s = _
  rw [execNoteOff, if_pos h, val_of_isFinite h]

theorem exec_setFreq {d : Word} (h : isFinite d = true) (s : State) :
    exec (.setFreq d) s = .next { s with regs := { s.regs with freq := d } } := by
  show execSetFreq d s = _
  rw [execSetFreq, if_pos h, val_of_isFinite h]

theorem exec_sample {d : Word} (h : isFinite d = true) (s : State) :
    exec (.sample d) s = .next (sampleLegal d s) := by
  show execSample d s = _
  rw [execSample, if_pos h, val_of_isFinite h]

@[simp] theorem exec_ldPreset (p : Preset) (s : State) :
    exec (.ldPreset p) s = .next { s with regs := numB64.loadVoice s.regs (presetVoice p) } := rfl

theorem exec_wrCfg {i : Reg} {d : Word} (hw : writable i = true) (hd : legalData i d = true) (s : State) :
    exec (.wrCfg i d) s = .next { s with regs := s.regs.write numB64.val i d } := by
  show execWrCfg i d s = _
  rw [execWrCfg, hw, hd]; rfl

@[simp] theorem exec_rdReg (i : Reg) (s : State) :
    exec (.rdReg i) s = .next (s.respond .cp (regRead s.regs i)) := rfl

/-- An ill-formed command has the effect of an illegal one (R85, log entry 14). -/
theorem exec_of_not_wellFormed {i : Instr} (h : i.wellFormed = false) (s : State) :
    exec i s = .next (match i with
      | .sample _ => s.illegalAnswered .rp
      | _ => s.illegal) := by
  cases i with
  | noteOn d => show execNoteOn d s = _; rw [execNoteOn, if_neg (by rw [show isFinite d = false from h]; decide)]
  | noteOff d => show execNoteOff d s = _; rw [execNoteOff, if_neg (by rw [show isFinite d = false from h]; decide)]
  | setFreq d => show execSetFreq d s = _; rw [execSetFreq, if_neg (by rw [show isFinite d = false from h]; decide)]
  | sample d => show execSample d s = _; rw [execSample, if_neg (by rw [show isFinite d = false from h]; decide)]
  | wrCfg i d =>
    show execWrCfg i d s = _
    rw [execWrCfg, if_neg (by rw [show (writable i && legalData i d) = false from h]; decide)]
  | nop => cases h
  | ldPreset p => cases h
  | rdReg i => cases h

/-- No command stops the block (R150). -/
theorem exec_next (i : Instr) (s : State) : ∃ t, exec i s = .next t := by
  cases i <;> exact ⟨_, rfl⟩

/-! ### SAMPLE -/

/-- The result of a `SAMPLE` and its faults, named. -/
abbrev sampleCalc (d : Word) (s : State) : SampleCalc Word := numB64.sample s.regs d s.drawAt

/-- Whether the `SAMPLE` sets NONFIN (R144, R156). -/
abbrev sampleNonfin (d : Word) (s : State) : Bool :=
  numB64.raisesNonfin (sampleCalc d s) (Config.unspecifiedNonfin s.freeCount)

/-- The word the `SAMPLE` answers. -/
abbrev sampleAnswer (d : Word) (s : State) : Word :=
  if (sampleCalc d s).dsaw || sampleNonfin d s then Config.unspecifiedSample s.freeCount else (sampleCalc d s).out

@[simp] theorem sampleLegal_regs (d : Word) (s : State) :
    (sampleLegal d s).regs = s.regs.afterSample (sampleCalc d s).dsaw (sampleNonfin d s) := rfl
@[simp] theorem sampleLegal_cpQueue (d : Word) (s : State) : (sampleLegal d s).cpQueue = s.cpQueue := rfl
@[simp] theorem sampleLegal_rpQueue (d : Word) (s : State) : (sampleLegal d s).rpQueue = s.rpQueue := rfl
@[simp] theorem sampleLegal_agenda (d : Word) (s : State) : (sampleLegal d s).agenda = s.agenda := rfl
@[simp] theorem sampleLegal_cpResp (d : Word) (s : State) : (sampleLegal d s).cpResp = s.cpResp := rfl
@[simp] theorem sampleLegal_rpResp (d : Word) (s : State) :
    (sampleLegal d s).rpResp = s.rpResp ++ [sampleAnswer d s] := rfl
@[simp] theorem sampleLegal_draws (d : Word) (s : State) :
    (sampleLegal d s).draws = s.draws.drop (sampleCalc d s).drawn := rfl
@[simp] theorem sampleLegal_drawCount (d : Word) (s : State) :
    (sampleLegal d s).drawCount = s.drawCount + (sampleCalc d s).drawn := rfl
@[simp] theorem sampleLegal_freeCount (d : Word) (s : State) :
    (sampleLegal d s).freeCount =
      if (sampleCalc d s).dsaw || sampleNonfin d s then s.freeCount + 1 else s.freeCount := rfl

/-! ### The mix, slot by slot -/

/-- A slot takes a draw exactly when it is an enabled Noise slot (R134). -/
theorem mixSlot_drawn {V : Type} (ar : Arith V) (r : Regs V) (t : V) (draw : Nat → V) (acc : MixAcc V)
    (sl : SlotRegs V) :
    (ar.mixSlot r t draw acc sl).drawn = acc.drawn + if sl.en && sl.kind == some .noise then 1 else 0 := by
  unfold Arith.mixSlot
  cases sl.en <;> simp only [Bool.false_and, Bool.true_and, if_true, if_false, Bool.false_eq_true, Nat.add_zero]
  cases sl.kind with
  | none => rfl
  | some k => cases k <;> rfl

/-- A slot violates DSAW exactly when it is an enabled DigitalSaw slot whose frequency is not above 0 (R152). -/
theorem mixSlot_dsaw {V : Type} (ar : Arith V) (r : Regs V) (t : V) (draw : Nat → V) (acc : MixAcc V)
    (sl : SlotRegs V) :
    (ar.mixSlot r t draw acc sl).dsaw =
      (acc.dsaw || (sl.en && sl.kind == some .digitalSaw && ar.le (ar.mul sl.mult r.freq) ar.zero)) := by
  unfold Arith.mixSlot
  cases sl.en <;> simp only [Bool.false_and, Bool.true_and, if_true, if_false, Bool.false_eq_true, Bool.or_false]
  cases sl.kind with
  | none => simp
  | some k => cases k <;> rfl

theorem sample_drawn (r : Regs Word) (t : Word) (draw : Nat → Word) :
    (numB64.sample r t draw).drawn = noiseSlots r := by
  show (numB64.mix r t draw).drawn = _
  simp only [Arith.mix, Regs.slotList, List.foldl_cons, List.foldl_nil, mixSlot_drawn, noiseSlots, isNoiseSlot,
    List.countP_cons, List.countP_nil]
  have e : ∀ a b c d : Nat, 0 + a + b + c + d = 0 + d + c + b + a := by omega
  exact e _ _ _ _

theorem sample_dsaw (r : Regs Word) (t : Word) (draw : Nat → Word) :
    (numB64.sample r t draw).dsaw = true ↔
      ∃ n : SlotNo, isSawSlot r n = true ∧ le64 (slotFreq r n) zero64 = true := by
  show (numB64.mix r t draw).dsaw = true ↔ _
  simp only [Arith.mix, Regs.slotList, List.foldl_cons, List.foldl_nil, mixSlot_dsaw, Bool.false_or, Bool.or_eq_true]
  constructor
  · rintro (((h | h) | h) | h)
    · exact ⟨.s0, (Bool.and_eq_true_iff).1 h⟩
    · exact ⟨.s1, (Bool.and_eq_true_iff).1 h⟩
    · exact ⟨.s2, (Bool.and_eq_true_iff).1 h⟩
    · exact ⟨.s3, (Bool.and_eq_true_iff).1 h⟩
  · rintro ⟨n, h⟩
    have h' := (Bool.and_eq_true_iff).2 h
    cases n
    · exact .inl (.inl (.inl h'))
    · exact .inl (.inl (.inr h'))
    · exact .inl (.inr h')
    · exact .inr h'

/-- Not both below and not above: the guard of R175 excludes DSAW. -/
theorem sample_dsaw_of_guard {r : Regs Word} (h : SawGuard r) (t : Word) (draw : Nat → Word) :
    (numB64.sample r t draw).dsaw = false := by
  rw [← Bool.not_eq_true, sample_dsaw]
  rintro ⟨n, hn, hle⟩
  have hlt := h n hn
  simp only [lt64, le64, Bool.and_eq_true, decide_eq_true_eq] at hlt hle
  omega

/-- What a `SAMPLE` without a fault answers with, and that it sets nothing (R138). -/
theorem sample_faults_of_clean {d : Word} {s : State} (h : SampleClean s d) :
    (sampleCalc d s).dsaw = false ∧ sampleNonfin d s = false := by
  have h1 : (sampleCalc d s).dsaw = false := sample_dsaw_of_guard h.1 d s.drawAt
  refine ⟨h1, ?_⟩
  rw [sampleNonfin, Arith.raisesNonfin, h1]
  exact h.2

theorem sample_out {V : Type} (ar : Arith V) (r : Regs V) (t : V) (draw : Nat → V) :
    (ar.sample r t draw).out = ar.mul (ar.clamp (ar.mul (ar.envAmp r t).val (ar.mix r t draw).mix)) r.mvol := rfl

theorem numB64_negOne : numB64.negOne = negOne64 := by decide +kernel

theorem numB64_clamp (v : Word) :
    numB64.clamp v = if lt64 v negOne64 then negOne64 else if lt64 one64 v then one64 else v := by
  rw [Arith.clamp, numB64_negOne]
  rfl

/-- `DSAW` after a `SAMPLE` (R148). -/
theorem dsaw_afterSample {V : Type} (r : Regs V) (d n : Bool) :
    faultBit (r.afterSample d n) .dsaw = (faultBit r .dsaw || d) := by
  have h := getLsbD_afterSample r d n 1
  rw [faultBit, faultBit, show faultCode .dsaw = 1 from rfl, h]
  simp

/-- `NONFIN` after a `SAMPLE` (R148). -/
theorem nonfin_afterSample {V : Type} (r : Regs V) (d n : Bool) :
    faultBit (r.afterSample d n) .nonfin = (faultBit r .nonfin || n) := by
  have h := getLsbD_afterSample r d n 2
  rw [faultBit, faultBit, show faultCode .nonfin = 2 from rfl, h]
  simp

/-! ### Words, turns and steps -/

theorem runWord_ok {p : Port} {w : CmdWord} {i : Instr} (h : decode p w = .ok i) (s : State) :
    runWord p w s = exec i s := by rw [runWord, h]

theorem runWord_error {p : Port} {w : CmdWord} {e : Illegal} (h : decode p w = .error e) (s : State) :
    runWord p w s = .next (illegalWord p w s) := by rw [runWord, h]

theorem runWord_next (p : Port) (w : CmdWord) (s : State) : ∃ t, runWord p w s = .next t := by
  unfold runWord
  split
  · exact exec_next _ _
  · exact ⟨_, rfl⟩

theorem step_of_none {s : State} (h : nextTurn s = none) : step s = .next s := by rw [step, h]

theorem step_of_reset {s : State} {a b : Nat} (h : nextTurn s = some (.reset a b)) :
    step s = .next ((takeTurn s).afterReset a b) := by rw [step, h]; rfl

@[simp] theorem queue_takeTurn (s : State) (p : Port) : (takeTurn s).queue p = s.queue p := by cases p <;> rfl

theorem step_of_port {s : State} {p : Port} {w : CmdWord} {rest : List CmdWord} (h : nextTurn s = some (.port p))
    (hq : s.queue p = w :: rest) : step s = runWord p w ((takeTurn s).setQueue p rest) := by
  rw [step, h]
  show runPort p (takeTurn s) = _
  rw [runPort, queue_takeTurn, hq]

theorem step_of_port_nil {s : State} {p : Port} (h : nextTurn s = some (.port p)) (hq : s.queue p = []) :
    step s = .next (takeTurn s) := by
  rw [step, h]
  show runPort p (takeTurn s) = _
  rw [runPort, queue_takeTurn, hq]

/-- What a step can be: idle, a reset, a turn with nothing to do, or one word. -/
theorem step_cases (s : State) :
    (nextTurn s = none ∧ step s = .next s) ∨
    (∃ a b, nextTurn s = some (.reset a b) ∧ step s = .next ((takeTurn s).afterReset a b)) ∨
    (∃ p, nextTurn s = some (.port p) ∧ s.queue p = [] ∧ step s = .next (takeTurn s)) ∨
    (∃ p w rest, nextTurn s = some (.port p) ∧ s.queue p = w :: rest ∧
      step s = runWord p w ((takeTurn s).setQueue p rest)) := by
  cases h : nextTurn s with
  | none => exact .inl ⟨rfl, step_of_none h⟩
  | some a =>
    cases a with
    | reset a b => exact .inr (.inl ⟨a, b, rfl, step_of_reset h⟩)
    | port p =>
      cases hq : s.queue p with
      | nil => exact .inr (.inr (.inl ⟨p, rfl, hq, step_of_port_nil h hq⟩))
      | cons w rest => exact .inr (.inr (.inr ⟨p, w, rest, rfl, hq, step_of_port h hq⟩))

/-- The very next step runs the command put in front (the host's interface). -/
theorem step_withCommand (s : State) (p : Port) (w : CmdWord) :
    step (s.withCommand p w) = runWord p w ((takeTurn (s.withCommand p w)).setQueue p (s.queue p)) :=
  step_of_port (by cases p <;> rfl) (by cases p <;> rfl)

end Sys2Proof.Machine
end

