-- ==== Sys2Proof/Laws/Hardware.lean ====
section
/-! SUPPORT. The hardware's instantiation of the record: its projections, its constants by value, and the facts about
infinities and NaNs that the fault rule of R144 needs. -/

namespace Sys2Proof.Machine

/-! ### The record's fields -/

@[simp] theorem numB64_add (x y : Word) : numB64.add x y = add64 x y := rfl
@[simp] theorem numB64_sub (x y : Word) : numB64.sub x y = sub64 x y := rfl
@[simp] theorem numB64_mul (x y : Word) : numB64.mul x y = mul64 x y := rfl
@[simp] theorem numB64_div (x y : Word) : numB64.div x y = div64 x y := rfl
@[simp] theorem numB64_le (x y : Word) : numB64.le x y = le64 x y := rfl
@[simp] theorem numB64_lt (x y : Word) : numB64.lt x y = lt64 x y := rfl
@[simp] theorem numB64_sin (x : Word) : numB64.sin x = sin64 x := rfl
@[simp] theorem numB64_asin (x : Word) : numB64.asin x = asin64 x := rfl
@[simp] theorem numB64_fmod (x y : Word) : numB64.fmod x y = fmod64 x y := rfl
@[simp] theorem numB64_zero : numB64.zero = zero64 := rfl
@[simp] theorem numB64_one : numB64.one = one64 := rfl
@[simp] theorem numB64_two : numB64.two = two64 := rfl
@[simp] theorem numB64_pi : numB64.pi = pi64 := rfl
@[simp] theorem numB64_floor : numB64.floor = floor64 := rfl
@[simp] theorem numB64_finite : numB64.finite = isFinite := rfl

/-! ### Constants by value -/

theorem isFinite_zero64 : isFinite zero64 = true := by decide
theorem isFinite_one64 : isFinite one64 = true := by decide
theorem isFinite_negOne64 : isFinite negOne64 = true := by decide
theorem isFinite_floor64 : isFinite floor64 = true := by decide

theorem toRat_zero64 : toRat zero64 = 0 := (toRat_eq_zero_iff _).2 (by decide)

theorem toRat_negOne64 : toRat negOne64 = -1 := by
  rw [show negOne64 = neg64 one64 by decide, toRat_neg64, toRat_one64]

theorem toRat_nonneg_of_signBit {d : Word} (h : signBit d = false) : 0 ≤ toRat d := by
  rw [toRat_eq, h, signFactor]
  simp only [Bool.false_eq_true, if_false, one_mul]
  exact div_nonneg (Nat.cast_nonneg _) (pow_nonneg (by norm_num) _)

theorem toRat_floor64_pos : 0 < toRat floor64 :=
  lt_of_le_of_ne (toRat_nonneg_of_signBit (by decide))
    (Ne.symm (mt (toRat_eq_zero_iff _).1 (by decide)))

/-! ### What is not finite -/

theorem isFinite_nan64 : isFinite nan64 = false := by decide

theorem isFinite_inf64 (neg : Bool) : isFinite (inf64 neg) = false := by cases neg <;> decide

theorem isFinite_or_nan_or_inf (x : Word) : isFinite x = true ∨ isNaN x = true ∨ isInf x = true := by
  rw [isFinite_iff, isNaN_iff, isInf_iff]; omega

theorem isFinite_of_not {x : Word} (hn : ¬isNaN x = true) (hi : ¬isInf x = true) : isFinite x = true :=
  (isFinite_or_nan_or_inf x).resolve_right fun h => h.elim hn hi

/-- A product is finite only for finite factors: a non-finite value does not vanish in a product. -/
theorem isFinite_of_mul64 {x y : Word} (h : isFinite (mul64 x y) = true) : isFinite x = true ∧ isFinite y = true := by
  unfold mul64 at h
  split_ifs at h with h1 h2 h3
  · rw [isFinite_nan64] at h; cases h
  · rw [isFinite_nan64] at h; cases h
  · rw [isFinite_inf64] at h; cases h
  · rw [Bool.or_eq_true, not_or] at h1 h2
    exact ⟨isFinite_of_not h1.1 h2.1, isFinite_of_not h1.2 h2.2⟩

/-- A sum is finite only for finite terms. -/
theorem isFinite_of_add64 {x y : Word} (h : isFinite (add64 x y) = true) : isFinite x = true ∧ isFinite y = true := by
  unfold add64 at h
  rw [isFinite_iff] at h
  split_ifs at h with h1 h2 h3 h4
  · exact absurd h (by decide)
  · exact absurd h (by decide)
  · rw [isInf_iff] at h2; omega
  · rw [isInf_iff] at h4; omega
  all_goals
    rw [Bool.or_eq_true, not_or] at h1
    exact ⟨isFinite_of_not h1.1 h2, isFinite_of_not h1.2 h4⟩

/-- Values that are equal and not zero have one pattern. -/
theorem eq_of_toRat_eq {x y : Word} (h : toRat x = toRat y) (h0 : toRat x ≠ 0) : x = y := by
  rcases (toRat_inj_iff x y).1 h with h | ⟨h, -⟩
  · exact h
  · exact absurd ((toRat_eq_zero_iff x).2 h) h0

theorem eq64_iff {x y : Word} (hx : isFinite x = true) (hy : isFinite y = true) :
    numB64.eq x y = true ↔ toRat x = toRat y := by
  rw [Arith.eq, numB64_le, numB64_le, Bool.and_eq_true, le64_iff hx hy, le64_iff hy hx]
  exact ⟨fun h => le_antisymm h.1 h.2, fun h => ⟨h.le, h.ge⟩⟩

/-! ### The clamp, the floor and the values of a sample -/

/-- The clamp answers a number in [-1, 1] (R140). -/
theorem clamp_bounds {v : Word} (h : isFinite v = true) :
    isFinite (numB64.clamp v) = true ∧ |toRat (numB64.clamp v)| ≤ 1 := by
  rw [numB64_clamp]
  split_ifs with h1 h2
  · exact ⟨isFinite_negOne64, by rw [toRat_negOne64]; norm_num⟩
  · exact ⟨isFinite_one64, by rw [toRat_one64]; norm_num⟩
  · rw [lt64_iff h isFinite_negOne64, toRat_negOne64] at h1
    rw [lt64_iff isFinite_one64 h, toRat_one64] at h2
    exact ⟨h, abs_le.2 ⟨not_lt.1 h1, not_lt.1 h2⟩⟩

/-- A number in [-1, 1] is not changed by the clamp. -/
theorem clamp_of_abs_le {v : Word} (h : isFinite v = true) (hv : |toRat v| ≤ 1) : numB64.clamp v = v := by
  have hv' := abs_le.1 hv
  rw [numB64_clamp, if_neg, if_neg]
  · rw [lt64_iff isFinite_one64 h, toRat_one64]; exact not_lt.2 hv'.2
  · rw [lt64_iff h isFinite_negOne64, toRat_negOne64]; exact not_lt.2 hv'.1

theorem snap_of_floor_lt {x : Word} (hx : isFinite x = true) (h : toRat floor64 < toRat x) : numB64.snap x = x := by
  rw [Arith.snap, numB64_le, numB64_floor, if_neg]
  rw [le64_iff hx isFinite_floor64]; exact not_le.2 h

theorem snap_zero64 : numB64.snap zero64 = zero64 := by rw [Arith.snap]; split_ifs <;> rfl

theorem envAmp_of_held {V : Type} (ar : Arith V) (r : Regs V) (t : V) (h : trig r = true) (hh : held r = true) :
    (ar.envAmp r t).val = ar.snap (ar.heldAmp r (ar.sub t r.tOn)).val := by
  rw [Arith.envAmp, if_pos h, hh]; rfl

theorem envAmp_of_released {V : Type} (ar : Arith V) (r : Regs V) (t : V) (h : trig r = true) (hh : held r = false) :
    (ar.envAmp r t).val = ar.snap (ar.releasedAmp r t).val := by
  rw [Arith.envAmp, if_pos h, hh]; rfl

theorem envAmp_of_not_trig {V : Type} (ar : Arith V) (r : Regs V) (t : V) (h : trig r = false) :
    (ar.envAmp r t).val = ar.zero := by
  rw [Arith.envAmp, h]; rfl

theorem mixSlot_of_disabled {V : Type} (ar : Arith V) (r : Regs V) (t : V) (draw : Nat → V) (acc : MixAcc V)
    (sl : SlotRegs V) (h : sl.en = false) : ar.mixSlot r t draw acc sl = acc := by
  rw [Arith.mixSlot, h]; rfl

theorem sample_seen {V : Type} (ar : Arith V) (r : Regs V) (t : V) (draw : Nat → V) :
    (ar.sample r t draw).seen = (ar.envAmp r t).seen ++ (ar.mix r t draw).seen ++
      [ar.mul (ar.envAmp r t).val (ar.mix r t draw).mix,
       ar.clamp (ar.mul (ar.envAmp r t).val (ar.mix r t draw).mix), (ar.sample r t draw).out] := rfl

/-- Where a sample has no non-finite value, each value it computed is finite (R144). -/
theorem isFinite_of_seen {s : State} {d v : Word} (h : SampleFinite s d) (hv : v ∈ (sampleCalc d s).seen) :
    isFinite v = true := by
  rw [SampleFinite, Arith.overflowed, List.any_eq_false] at h
  have h' := h v hv
  rwa [numB64_finite, Bool.not_eq_true', Bool.not_eq_false] at h'

theorem sampleAnswer_of_clean {d : Word} {s : State} (h : SampleClean s d) :
    sampleAnswer d s = (sampleCalc d s).out := by
  obtain ⟨h1, h2⟩ := sample_faults_of_clean h
  rw [sampleAnswer, h1, h2]
  rfl

end Sys2Proof.Machine
end

