-- ==== Sys2Proof/Laws/Bounds.lean ====
section
/-! SUPPORT. Bounds by powers of two, which rounding cannot exceed: what the no-overflow argument of 43_sample_scaler.md
R144 needs of each operation. -/

namespace Sys2Proof.Machine

/-- A finite value of magnitude at most `2^k`. -/
def Within (k : Nat) (v : Word) : Prop := isFinite v = true ∧ |toRat v| ≤ 2 ^ k

theorem Within.mono {k l : Nat} {v : Word} (h : Within k v) (hkl : k ≤ l) : Within l v :=
  ⟨h.1, h.2.trans (pow_le_pow_right₀ (by norm_num) hkl)⟩

theorem magBits_powerOfTwo {k : Nat} (hk : k ≤ 1023) : (1022 + k) * 2 ^ 52 + 2 ^ 52 < infMag := by
  rw [infMag_eq]; omega

/-- Every power of two in range is a value. -/
theorem exists_powerOfTwo {k : Nat} (hk : k ≤ 1023) : ∃ v : Word, isFinite v = true ∧ toRat v = 2 ^ k := by
  have hlt := magBits_powerOfTwo hk
  have h63 := lt_trans hlt infMag_lt
  refine ⟨pack false ((1022 + k) * 2 ^ 52 + 2 ^ 52), (isFinite_pack h63).2 hlt, ?_⟩
  rw [toRat_pack h63, unitsOf_pattern (by norm_num) (fun _ => le_rfl), signFactor, Nat.cast_mul, Nat.cast_pow,
    Nat.cast_pow, Nat.cast_ofNat, ← pow_add, show 52 + (1022 + k) = k + 1074 by omega, pow_add]
  simp only [Bool.false_eq_true, if_false, one_mul]
  exact mul_div_cancel_right₀ _ (pow_ne_zero _ two_ne_zero)

theorem within_mul64 {a b : Nat} {x y : Word} (hx : Within a x) (hy : Within b y) (h : a + b ≤ 1023) :
    Within (a + b) (mul64 x y) := by
  obtain ⟨v, hv, hv2⟩ := exists_powerOfTwo h
  have hq : |toRat x * toRat y| ≤ toRat v := by
    rw [hv2, abs_mul, pow_add]
    exact mul_le_mul hx.2 hy.2 (abs_nonneg _) (pow_nonneg (by norm_num) _)
  have hf := mul64_isFinite hx.1 hy.1 hv (hq.trans (le_abs_self _))
  exact ⟨hf, hv2 ▸ (mul64_nearest hx.1 hy.1 hf).abs_toRat_le hv hq⟩

theorem within_add64 {a : Nat} {x y : Word} (hx : Within a x) (hy : Within a y) (h : a + 1 ≤ 1023) :
    Within (a + 1) (add64 x y) := by
  obtain ⟨v, hv, hv2⟩ := exists_powerOfTwo h
  have hq : |toRat x + toRat y| ≤ toRat v := by
    rw [hv2, pow_succ, mul_two]
    exact (abs_add_le _ _).trans (add_le_add hx.2 hy.2)
  have hf := add64_isFinite hx.1 hy.1 hv (hq.trans (le_abs_self _))
  exact ⟨hf, hv2 ▸ (add64_nearest hx.1 hy.1 hf).abs_toRat_le hv hq⟩

theorem within_neg64 {a : Nat} {x : Word} (hx : Within a x) : Within a (neg64 x) :=
  ⟨(isFinite_neg64 x).trans hx.1, by rw [toRat_neg64, abs_neg]; exact hx.2⟩

theorem within_sub64 {a : Nat} {x y : Word} (hx : Within a x) (hy : Within a y) (h : a + 1 ≤ 1023) :
    Within (a + 1) (sub64 x y) := within_add64 hx (within_neg64 hy) h

theorem within_div64 {a b : Nat} {x y : Word} (hx : Within a x) (hy : isFinite y = true)
    (hb : 1 / 2 ^ b ≤ |toRat y|) (h : a + b ≤ 1023) : Within (a + b) (div64 x y) := by
  obtain ⟨v, hv, hv2⟩ := exists_powerOfTwo h
  have hpos : 0 < |toRat y| := lt_of_lt_of_le (div_pos one_pos (pow_pos two_pos _)) hb
  have h0 : toRat y ≠ 0 := abs_pos.1 hpos
  have hq : |toRat x / toRat y| ≤ toRat v := by
    rw [hv2, abs_div, div_le_iff₀ hpos, pow_add, mul_assoc]
    refine hx.2.trans (le_mul_of_one_le_right (pow_nonneg (by norm_num) _) ?_)
    rw [div_le_iff₀ (pow_pos two_pos _)] at hb
    rw [mul_comm]; exact hb
  have hf := div64_isFinite hx.1 hy h0 hv (hq.trans (le_abs_self _))
  exact ⟨hf, hv2 ▸ (div64_nearest hx.1 hy h0 hf).abs_toRat_le hv hq⟩

theorem within_zero64 : Within 0 zero64 := ⟨isFinite_zero64, by rw [toRat_zero64]; norm_num⟩

theorem within_one64 : Within 0 one64 := ⟨isFinite_one64, by rw [toRat_one64]; norm_num⟩

end Sys2Proof.Machine
end

