-- ==== Sys2Proof/Laws/Invariant.lean ====
section
/-! SUPPORT. What the named updates do to the state invariant of 10_state.md R47, one lemma per update. -/

namespace Sys2Proof.Machine

theorem statusInv_iff (w : Word) : StatusInv w ↔ ∀ j, 3 ≤ j → w.getLsbD j = false := by
  constructor
  · intro h j hj
    have h' := congrArg (fun x : BitVec 61 => x.getLsbD (j - 3)) (show w.extractLsb' 3 61 = 0#61 from h)
    simp only [BitVec.getLsbD_extractLsb', BitVec.getLsbD_zero] at h'
    rw [show 3 + (j - 3) = j by omega] at h'
    by_cases h2 : j - 3 < 61
    · simpa [h2] using h'
    · exact BitVec.getLsbD_of_ge _ _ (by omega)
  · intro h
    apply BitVec.eq_of_getLsbD_eq
    intro j hj
    rw [BitVec.getLsbD_extractLsb', h (3 + j) (by omega), BitVec.getLsbD_zero, Bool.and_false]

theorem faultCode_le (x : FaultBit) : faultCode x ≤ 2 := by cases x <;> decide

/-- Raising a fault keeps the invariant. -/
theorem Regs.Inv.raise {r : Regs Word} (h : r.Inv) (x : FaultBit) : (r.raise x).Inv := by
  obtain ⟨a, b, c, d, e⟩ := h
  refine ⟨a, b, c, (statusInv_iff _).2 fun j hj => ?_, e⟩
  have hx := faultCode_le x
  rw [getLsbD_raise, (statusInv_iff _).1 d j hj, decide_eq_false (by omega)]
  rfl

theorem Regs.Inv.raiseIf {r : Regs Word} (h : r.Inv) (c : Bool) (x : FaultBit) : (r.raiseIf c x).Inv := by
  unfold Regs.raiseIf
  split
  · exact h.raise x
  · exact h

theorem flagsInv_noteOn {f : Word} (h : FlagsInv f) : FlagsInv (flagsNoteOn f) := by
  rcases h with rfl | rfl | rfl <;> decide

theorem flagsInv_noteOff {f : Word} (h : FlagsInv f) : FlagsInv (flagsNoteOff f) := by
  rcases h with rfl | rfl | rfl <;> decide

theorem flagsInv_clear {f : Word} (h : FlagsInv f) : FlagsInv (flagsClear f) := by
  rcases h with rfl | rfl | rfl <;> decide

/-- Loading a preset keeps the invariant. -/
theorem Regs.Inv.loadVoice {r : Regs Word} (h : r.Inv) (p : Preset) : (numB64.loadVoice r (presetVoice p)).Inv := by
  obtain ⟨a, b, c, d, e⟩ := h
  have key : ∀ p, (numB64.loadVoice Regs.reset (presetVoice p)).Inv := by intro p; cases p <;> decide +kernel
  obtain ⟨a', b', c', d', e'⟩ := key p
  exact ⟨⟨a'.1, a'.2.1, a'.2.2.1, a'.2.2.2.1, a'.2.2.2.2.1, a.2.2.2.2.2⟩, ⟨b'.1, b'.2.1, b.2.2⟩,
    flagsInv_clear c, d, e'⟩

theorem slot_write_inv {sl : SlotRegs Word} (h : sl.Inv) {n : SlotNo} {k : SlotField} {d : Word}
    (hl : legalData (.slot n k) d = true) : (sl.write numB64.val k d).Inv := by
  obtain ⟨a, b, c, e, f⟩ := h
  have hv : k ≠ .ctrl → legalData (.slot n k) (numB64.val d) = true := fun hk => by
    rw [val_of_isFinite (isFinite_of_legalData hl (by intro m hm; cases hm; exact hk rfl))]; exact hl
  cases k with
  | ctrl => exact ⟨(congrArg ctrlOk (ctrlStored_of_ctrlOk hl)).trans hl, b, c, e, f⟩
  | mult => exact ⟨a, hv (by simp), c, e, f⟩
  | weight => exact ⟨a, b, hv (by simp), e, f⟩
  | vdepth => exact ⟨a, b, c, hv (by simp), f⟩
  | vrate => exact ⟨a, b, c, e, hv (by simp)⟩

/-- A legal write keeps the invariant (R129). -/
theorem Regs.Inv.write {r : Regs Word} (h : r.Inv) {i : Reg} {d : Word} (hl : legalData i d = true) :
    (r.write numB64.val i d).Inv := by
  have h' := h
  obtain ⟨⟨a1, a2, a3, a4, a5, a6⟩, b, c, e, s0, s1, s2, s3⟩ := h
  have hv : (∀ n, i ≠ .slot n .ctrl) → legalData i (numB64.val d) = true := fun hk => by
    rw [val_of_isFinite (isFinite_of_legalData hl hk)]; exact hl
  cases i with
  | envAttack => exact ⟨⟨hv (by simp), a2, a3, a4, a5, a6⟩, b, c, e, s0, s1, s2, s3⟩
  | envDecay => exact ⟨⟨a1, hv (by simp), a3, a4, a5, a6⟩, b, c, e, s0, s1, s2, s3⟩
  | envSustain => exact ⟨⟨a1, a2, hv (by simp), a4, a5, a6⟩, b, c, e, s0, s1, s2, s3⟩
  | envRelease => exact ⟨⟨a1, a2, a3, hv (by simp), a5, a6⟩, b, c, e, s0, s1, s2, s3⟩
  | envStart => exact ⟨⟨a1, a2, a3, a4, hv (by simp), a6⟩, b, c, e, s0, s1, s2, s3⟩
  | mvol => exact ⟨⟨a1, a2, a3, a4, a5, hv (by simp)⟩, b, c, e, s0, s1, s2, s3⟩
  | slot n k =>
    cases n
    · exact ⟨⟨a1, a2, a3, a4, a5, a6⟩, b, c, e, slot_write_inv s0 hl, s1, s2, s3⟩
    · exact ⟨⟨a1, a2, a3, a4, a5, a6⟩, b, c, e, s0, slot_write_inv s1 hl, s2, s3⟩
    · exact ⟨⟨a1, a2, a3, a4, a5, a6⟩, b, c, e, s0, s1, slot_write_inv s2 hl, s3⟩
    · exact ⟨⟨a1, a2, a3, a4, a5, a6⟩, b, c, e, s0, s1, s2, slot_write_inv s3 hl⟩
  | _ => exact h'

end Sys2Proof.Machine
end

