-- ==== Sys2Proof/Laws/PerInstr.lean ====
section
/-! SUPPORT. Statements made per instruction. `TableMatch`: the word the encoder makes has the fixed bits of its row of
the opcode table (30_encoding.md R71, spec/opcode_table.json `mask` and `match`). -/

namespace Sys2Proof.Laws.TableMatch

open Sys2Proof

/-- The fixed bits of a command's row, and their values. -/
def fixedBits : Instr → CmdWord × CmdWord
  | .nop => (0xFFFFFFFFFFFFFFFFFFFF#80, 0x00000000000000000000#80)
  | .noteOn _ => (0xFFFF0000000000000000#80, 0x01000000000000000000#80)
  | .noteOff _ => (0xFFFF0000000000000000#80, 0x02000000000000000000#80)
  | .setFreq _ => (0xFFFF0000000000000000#80, 0x03000000000000000000#80)
  | .sample _ => (0xFFFF0000000000000000#80, 0x04000000000000000000#80)
  | .ldPreset _ => (0xFF00FFFFFFFFFFFFFFFF#80, 0x05000000000000000000#80)
  | .wrCfg _ _ => (0xFF000000000000000000#80, 0x06000000000000000000#80)
  | .rdReg _ => (0xFF00FFFFFFFFFFFFFFFF#80, 0x07000000000000000000#80)

/-- The word of `i` agrees with its row. -/
def Statement (i : Instr) : Prop := encode i &&& (fixedBits i).1 = (fixedBits i).2

/-- A word masked field by field. -/
theorem and_mkWord (op op' idx idx' : BitVec 8) (d d' : Word) :
    mkWord op idx d &&& mkWord op' idx' d' = mkWord (op &&& op') (idx &&& idx') (d &&& d') := by
  apply BitVec.eq_of_getLsbD_eq
  intro j hj
  rw [BitVec.getLsbD_and]
  simp only [getLsbD_mkWord, BitVec.getLsbD_and]
  split_ifs <;> rfl

theorem of_value (op : BitVec 8) (d : Word) :
    mkWord op 0 d &&& mkWord 0xFF 0xFF 0 = mkWord op 0 0 := by
  rw [and_mkWord, show (0xFF : BitVec 8) = BitVec.allOnes 8 from rfl, BitVec.and_allOnes, BitVec.and_allOnes,
    show (0 : Word) = 0#64 from rfl, BitVec.and_zero]

theorem of_index (op i : BitVec 8) :
    mkWord op i 0 &&& mkWord 0xFF 0 0xFFFFFFFFFFFFFFFF = mkWord op 0 0 := by
  rw [and_mkWord, show (0xFF : BitVec 8) = BitVec.allOnes 8 from rfl,
    show (0xFFFFFFFFFFFFFFFF : Word) = BitVec.allOnes 64 from rfl, BitVec.and_allOnes, BitVec.and_allOnes,
    show (0 : BitVec 8) = 0#8 from rfl, BitVec.and_zero]

theorem nop : Statement .nop := by unfold Statement; decide
theorem noteOn (d : Word) : Statement (.noteOn d) := of_value 0x01 d
theorem noteOff (d : Word) : Statement (.noteOff d) := of_value 0x02 d
theorem setFreq (d : Word) : Statement (.setFreq d) := of_value 0x03 d
theorem sample (d : Word) : Statement (.sample d) := of_value 0x04 d
theorem ldPreset (p : Preset) : Statement (.ldPreset p) := of_index 0x05 (numberOfPreset p)

theorem wrCfg (r : Reg) (d : Word) : Statement (.wrCfg r d) := by
  show mkWord 0x06 (numberOfReg r) d &&& mkWord 0xFF 0 0 = mkWord 0x06 0 0
  rw [and_mkWord, show (0xFF : BitVec 8) = BitVec.allOnes 8 from rfl, BitVec.and_allOnes,
    show (0 : BitVec 8) = 0#8 from rfl, show (0 : Word) = 0#64 from rfl, BitVec.and_zero, BitVec.and_zero]

theorem rdReg (r : Reg) : Statement (.rdReg r) := of_index 0x07 (numberOfReg r)

end Sys2Proof.Laws.TableMatch
end

