-- ==== Sys2Proof/Laws/Pseudocode.lean ====
section
/-! SUPPORT. The meanings on the hardware against the pseudocode of Safety.lean: each function's value, and the values it
computes on the way. -/

namespace Sys2Proof.Machine

/-! ### Constants -/

theorem numB64_twoPi : numB64.twoPi = twoPi64 := by decide +kernel
theorem numB64_twoOverPi : numB64.twoOverPi = twoOverPi64 := by decide +kernel
theorem numB64_halfPi : numB64.halfPi = halfPi64 := by decide +kernel
theorem numB64_eq_zero64 (d : Word) : numB64.eq d zero64 = isZero64 d := rfl

/-! ### The oscillator (R105 to R114) -/

/-- The phase, and the values it computes (R106, R107). -/
theorem numB64_phase (f t vd vr : Word) :
    (numB64.phase f t vd vr).val = phaseValue f t vd vr ∧ (numB64.phase f t vd vr).seen = phaseOps f t vd vr := by
  have hs : (numB64.eq vd zero64 && numB64.skipsVibrato f t vd vr) = skipsTerm f t vd vr := rfl
  unfold Arith.phase phaseOps
  simp only [numB64_twoPi, numB64_zero, hs, numB64_mul, numB64_add, numB64_sin, phaseValue, vibratoTerm]
  by_cases h : skipsTerm f t vd vr = true
  · simp only [h, if_true, List.append_nil, and_self]
  · simp only [h, Bool.false_eq_true, if_false, List.cons_append, List.nil_append, and_self]

/-- One term of the series (R111). -/
theorem sawTerm_sawSum (ph : Word) (seen : List Word) (n : Nat) :
    numB64.sawTerm ph ⟨sawSum ph n, seen⟩ (n + 1) = ⟨sawSum ph (n + 1), seen ++ sawTermOps ph (n + 1)⟩ := rfl

/-- The nine terms (R111). -/
theorem foldl_sawTerm (ph : Word) (seen : List Word) :
    (sawIndices.foldl (numB64.sawTerm ph) ⟨zero64, seen⟩ : Calc Word) =
      ⟨sawSum ph 9, seen ++ [1, 2, 3, 4, 5, 6, 7, 8, 9].flatMap (sawTermOps ph)⟩ := by
  rw [show zero64 = sawSum ph 0 from rfl, sawIndices]
  simp only [List.foldl_cons, List.foldl_nil]
  rw [sawTerm_sawSum ph _ 0, sawTerm_sawSum ph _ 1, sawTerm_sawSum ph _ 2, sawTerm_sawSum ph _ 3, sawTerm_sawSum ph _ 4,
    sawTerm_sawSum ph _ 5, sawTerm_sawSum ph _ 6, sawTerm_sawSum ph _ 7, sawTerm_sawSum ph _ 8]
  simp only [List.flatMap_cons, List.flatMap_nil, List.append_nil, List.append_assoc, Nat.reduceAdd]

theorem numB64_analogSaw (f t vd vr : Word) :
    numB64.analogSaw f t vd vr = ⟨mul64 (sawSum (phaseValue f t vd vr) 9) twoOverPi64, oscOps .analogSaw f t vd vr⟩ := by
  obtain ⟨p1, p2⟩ := numB64_phase f t vd vr
  unfold Arith.analogSaw
  simp only [numB64_zero, p1, p2, foldl_sawTerm, numB64_twoOverPi, numB64_mul, oscOps]

/-- DigitalSaw, and the values it computes: the correction of a negative remainder is one of them, or the remainder is
counted once more (R112). -/
theorem numB64_digitalSaw (f t : Word) :
    (numB64.digitalSaw f t).val = digitalSawValue f t ∧
      ∀ v, v ∈ (numB64.digitalSaw f t).seen ↔ v ∈ digitalSawOps f t := by
  unfold Arith.digitalSaw digitalSawOps digitalSawValue sawRemainder
  simp only [numB64_twoOverPi, numB64_halfPi, numB64_div, numB64_one, numB64_fmod, numB64_zero, numB64_lt, numB64_mul,
    numB64_sub, numB64_pi, numB64_add]
  by_cases h : lt64 (fmod64 t (div64 one64 f)) zero64 = true
  · simp [h]
  · simp only [h, if_false, Bool.false_eq_true, List.append_nil, List.cons_append, List.nil_append, List.mem_cons,
      List.mem_nil_iff, or_false, true_and]
    tauto

/-- `Osc`, and the values it computes, for a DigitalSaw where its result is specified (R105, R113). -/
theorem numB64_osc (k : Kind) (f t vd vr draw : Word) (h : k = .digitalSaw → le64 f zero64 = false) :
    (numB64.osc k f t vd vr draw).val = oscValue k f t vd vr draw ∧
      ∀ v, v ∈ (numB64.osc k f t vd vr draw).seen ↔ v ∈ oscOps k f t vd vr := by
  obtain ⟨p1, p2⟩ := numB64_phase f t vd vr
  cases k with
  | noise => exact ⟨rfl, fun v => Iff.rfl⟩
  | analogSaw =>
    rw [show numB64.osc .analogSaw f t vd vr draw = numB64.analogSaw f t vd vr from rfl, numB64_analogSaw]
    exact ⟨rfl, fun v => Iff.rfl⟩
  | digitalSaw =>
    have e : numB64.osc .digitalSaw f t vd vr draw = numB64.digitalSaw f t := by
      show (if le64 f zero64 = true then _ else _ : Calc Word) = _
      rw [h rfl]; rfl
    rw [e]
    exact numB64_digitalSaw f t
  | _ =>
    unfold oscValue oscOps Arith.osc Arith.sine Arith.square Arith.triangle
    simp only [p1, p2, numB64_sin, numB64_asin, numB64_mul, numB64_twoOverPi, numB64_lt, numB64_zero, numB64_one,
      numB64_negOne, implies_true, and_self]

/-! ### The mix (R122, R123, R134) -/

/-- The sum under way after `n` slots is the pseudocode's. -/
def MixAccOk (r : Regs Word) (t : Word) (draw : Nat → Word) (n : Nat) (acc : MixAcc Word) : Prop :=
  acc.mix = mixUpTo r t draw n ∧
    acc.drawn = (r.slotList.take n).countP (fun sl => enabledKind sl == some .noise) ∧
    ∀ v, v ∈ acc.seen ↔ v ∈ (List.range n).flatMap (slotOps r t draw)

theorem mixSlot_of_enabledKind (r : Regs Word) (t : Word) (draw : Nat → Word) (acc : MixAcc Word) (sl : SlotRegs Word) :
    numB64.mixSlot r t draw acc sl =
      match enabledKind sl with
      | some k => numB64.mixKind r t draw acc sl k
      | none => acc := by
  unfold Arith.mixSlot enabledKind SlotRegs.en SlotRegs.kind
  by_cases h : sl.ctrl.getLsbD 3 = true <;> simp only [h] <;> rfl

/-- A slot keeps it so. -/
theorem mixAccOk_mixSlot {r : Regs Word} {t : Word} {draw : Nat → Word} {n : Nat} {acc : MixAcc Word}
    {sl : SlotRegs Word} (h : MixAccOk r t draw n acc) (hs : r.slotList[n]? = some sl)
    (hg : enabledKind sl = some .digitalSaw → le64 (mul64 sl.mult r.freq) zero64 = false) :
    MixAccOk r t draw (n + 1) (numB64.mixSlot r t draw acc sl) := by
  obtain ⟨h1, h2, h3⟩ := h
  have htake : r.slotList.take (n + 1) = r.slotList.take n ++ [sl] := by rw [List.take_add_one, hs]; rfl
  rw [mixSlot_of_enabledKind]
  unfold MixAccOk
  rw [htake, List.countP_append, List.countP_singleton, List.range_succ, List.flatMap_append, List.flatMap_singleton,
    mixUpTo, slotOps, hs]
  simp only
  rw [mixUpTo, hs]
  simp only
  cases hk : enabledKind sl with
  | none => simp only [List.append_nil]; exact ⟨h1, by rw [h2]; simp, h3⟩
  | some k =>
    have hd : draw acc.drawn = slotDraw r draw n := by rw [h2]; rfl
    obtain ⟨o1, o2⟩ := numB64_osc k (mul64 sl.mult r.freq) t sl.vdepth sl.vrate (draw acc.drawn)
      (fun e => hg (by rw [hk, e]))
    rw [hd] at o1 o2
    unfold Arith.mixKind
    simp only [numB64_mul, numB64_add, h1, hd, o1, slotTerm]
    refine ⟨trivial, ?_, fun v => ?_⟩
    · rw [h2]; cases k <;> rfl
    · simp only [List.mem_append, List.mem_cons, List.mem_nil_iff, or_false, h3, o2]
      tauto

/-- `Mix`, and the values it computes, under the guard of R175. -/
theorem numB64_mix {r : Regs Word} {t : Word} {draw : Nat → Word} (hg : SawGuard r) :
    (numB64.mix r t draw).mix = mixUpTo r t draw 4 ∧
      ∀ v, v ∈ (numB64.mix r t draw).seen ↔ v ∈ [0, 1, 2, 3].flatMap (slotOps r t draw) := by
  have key : ∀ n : SlotNo, enabledKind (r.slot n) = some .digitalSaw →
      le64 (mul64 (r.slot n).mult r.freq) zero64 = false := by
    intro n hn
    have hs : isSawSlot r n = true := by
      unfold enabledKind at hn
      split_ifs at hn with he
      rw [isSawSlot, SlotRegs.en, SlotRegs.kind, he, hn]; rfl
    have := hg n hs
    rw [slotFreq, lt64, Bool.and_eq_true, decide_eq_true_eq] at this
    rw [← Bool.not_eq_true, le64, Bool.and_eq_true, decide_eq_true_eq]; omega
  have a0 : MixAccOk r t draw 0 ⟨zero64, [], false, 0⟩ := ⟨rfl, rfl, fun v => Iff.rfl⟩
  have a4 := mixAccOk_mixSlot (mixAccOk_mixSlot (mixAccOk_mixSlot (mixAccOk_mixSlot a0 rfl (key .s0)) rfl (key .s1))
    rfl (key .s2)) rfl (key .s3)
  exact ⟨a4.1, a4.2.2⟩

/-! ### The envelope (R92 to R101) -/

theorem numB64_ramp (x dur a b : Word) : numB64.ramp x dur a b = ⟨rampValue x dur a b, rampOps x dur a b⟩ := rfl

/-- Attack, decay, sustain (R95 to R98). -/
theorem numB64_heldAmp (r : Regs Word) (life : Word) : numB64.heldAmp r life = ⟨heldValue r life, heldOps r life⟩ := by
  unfold Arith.heldAmp Arith.attack Arith.decay heldValue heldOps
  simp only [numB64_zero, numB64_eq_zero64, numB64_le, numB64_lt, numB64_add, numB64_sub, numB64_ramp]
  by_cases h1 : le64 life r.envAttack = true
  · by_cases h2 : isZero64 r.envAttack = true <;> simp only [h1, h2, if_true, if_false, Bool.false_eq_true]
    rfl
  · by_cases h2 : le64 life (add64 r.envAttack r.envDecay) = true <;>
      simp only [h1, h2, if_true, if_false, Bool.false_eq_true]

/-- The release (R99, R100). -/
theorem numB64_releasedAmp (r : Regs Word) (t : Word) :
    numB64.releasedAmp r t = ⟨releasedValue r t, releasedOps r t⟩ := by
  unfold Arith.releasedAmp releasedValue releasedOps
  simp only [numB64_zero, numB64_eq_zero64, numB64_lt, numB64_sub, numB64_ramp]
  by_cases h : isZero64 r.envRelease = true <;> simp only [h, if_true, if_false, Bool.false_eq_true]
  rfl

/-- `EnvAmp`, and the values it computes. -/
theorem numB64_envAmp (r : Regs Word) (t : Word) : numB64.envAmp r t = ⟨envValue r t, envOps r t⟩ := by
  unfold Arith.envAmp envValue envOps phaseAmp Arith.snap
  simp only [trig, held, numB64_sub, numB64_le, numB64_floor, numB64_zero, numB64_heldAmp, numB64_releasedAmp]
  by_cases h : r.flags.getLsbD 1 = true <;> by_cases hh : r.flags.getLsbD 0 = true <;>
    simp only [h, hh, if_true, if_false, Bool.false_eq_true]

end Sys2Proof.Machine
end

