-- ==== Sys2Proof/Laws/Reference.lean ====
section
/-! SUPPORT. The reference instantiation of the record (00_scope.md R10): its projections, and the exact real value of a
pattern. -/

namespace Sys2Proof.Machine

variable (undef : ℝ → ℝ → ℝ)

@[simp] theorem numReal_add (x y : ℝ) : (numReal undef).add x y = x + y := rfl
@[simp] theorem numReal_sub (x y : ℝ) : (numReal undef).sub x y = x - y := rfl
@[simp] theorem numReal_mul (x y : ℝ) : (numReal undef).mul x y = x * y := rfl
@[simp] theorem numReal_div (x y : ℝ) : (numReal undef).div x y = x / y := rfl
@[simp] theorem numReal_fmod (x y : ℝ) : (numReal undef).fmod x y = x - y * truncReal (x / y) := rfl
@[simp] theorem numReal_le (x y : ℝ) : (numReal undef).le x y = true ↔ x ≤ y := decide_eq_true_iff
@[simp] theorem numReal_lt (x y : ℝ) : (numReal undef).lt x y = true ↔ x < y := decide_eq_true_iff
@[simp] theorem numReal_sin (x : ℝ) : (numReal undef).sin x = Real.sin x := rfl
@[simp] theorem numReal_asin (x : ℝ) : (numReal undef).asin x = Real.arcsin x := rfl
@[simp] theorem numReal_zero : (numReal undef).zero = 0 := rfl
@[simp] theorem numReal_one : (numReal undef).one = 1 := rfl
@[simp] theorem numReal_two : (numReal undef).two = 2 := rfl
@[simp] theorem numReal_pi : (numReal undef).pi = Real.pi := rfl
@[simp] theorem numReal_floor : (numReal undef).floor = 1 / 10000 := rfl
@[simp] theorem numReal_ofNat (n : Nat) : (numReal undef).ofNat n = (n : ℝ) := rfl
@[simp] theorem numReal_skips (a b c d : ℝ) : (numReal undef).skipsVibrato a b c d = false := rfl

@[simp] theorem numReal_eq (x y : ℝ) : (numReal undef).eq x y = true ↔ x = y := by
  rw [Arith.eq, Bool.and_eq_true, numReal_le, numReal_le]
  exact le_antisymm_iff.symm

theorem numReal_clamp_abs_le (v : ℝ) : |(numReal undef).clamp v| ≤ 1 := by
  rw [Arith.clamp, Arith.negOne]
  simp only [numReal_lt, numReal_sub, numReal_zero, numReal_one, zero_sub]
  split_ifs with h1 h2
  · norm_num
  · norm_num
  · exact abs_le.2 ⟨not_lt.1 h1, not_lt.1 h2⟩

theorem toReal_eq (d : Word) : toReal d = ((toRat d : ℚ) : ℝ) := by
  rw [toReal, toRat]; push_cast; rfl

/-- The phase in the reals (R106). -/
theorem numReal_phase (f t vd vr : ℝ) :
    ((numReal undef).phase f t vd vr).val =
      2 * Real.pi * f * t + vd * f * Real.sin (2 * Real.pi * vr * t) := by
  rw [Arith.phase]
  simp [Arith.twoPi]

/-- The sine in the reals (R108). -/
theorem numReal_sine (f t vd vr : ℝ) :
    ((numReal undef).sine f t vd vr).val = Real.sin ((numReal undef).phase f t vd vr).val := rfl

/-- The triangle in the reals (R110). -/
theorem numReal_triangle (f t vd vr : ℝ) :
    ((numReal undef).triangle f t vd vr).val =
      Real.arcsin ((numReal undef).sine f t vd vr).val * (2 / Real.pi) := rfl

/-- The square in the reals (R109). -/
theorem numReal_square (f t vd vr : ℝ) :
    ((numReal undef).square f t vd vr).val = if 0 < ((numReal undef).sine f t vd vr).val then 1 else -1 := by
  rw [Arith.square]
  simp only [numReal_lt, numReal_zero, numReal_one, Arith.negOne, zero_sub, numReal_sub, numReal_sin, Arith.sine]
  split_ifs with h <;> simp [h]

/-- A finite operand's value in the reals (R10). -/
theorem numReal_val {d : Word} (h : isFinite d = true) : (numReal undef).val d = toReal d := by
  show ((if isFinite d then some (toReal d) else none).getD 0 : ℝ) = _
  rw [if_pos h]
  rfl

end Sys2Proof.Machine
end

