-- ==== Sys2Proof/Machine/Assembler.lean ====
section
/-! DEFINITION. The host side that produces command words (not part of the block): the note table (00_scope.md R24), the
pseudo-commands and the text form of 30_encoding.md R87, and decimal literals (R88). A line of text assembles to a list
of words, each with the port it is sent on; an assembled word may be an illegal one. -/

namespace Sys2Proof.Machine

/-! ### The note table (R24) -/

/-- The binary64 patterns of `110 * 2^(i/12)`, `i` = 0 to 15, as R24 lists them. -/
def noteTable : List Word :=
  [0x405B800000000000#64, 0x405D229EC465C8A2#64, 0x405EDE22007F791A#64, 0x40605A0250C2B956#64,
   0x406152EC0E758E6F#64, 0x40625AA2E3AF0B21#64, 0x4063720820155764#64, 0x40649A0A791E127B#64]
  ++ [0x4065D3A6D600CABC#64, 0x40671FE927CA0DE9#64, 0x40687FED4E47ADFF#64, 0x4069F4E00A91D08E#64,
   0x406B800000000000#64, 0x406D229EC465C8A2#64, 0x406EDE22007F791A#64, 0x40705A0250C2B956#64]

/-- `NoteFreq(i)` as a host sends it; there are 16 notes (R8 `N_NOTE`, R24). -/
def noteFreq (i : Nat) : Option Word := noteTable[i]?

/-! ### Pseudo-commands (R87) -/

/-- The pseudo-commands of R87. -/
inductive Pseudo where
  | keyDown (note : Nat) (t : Word)
  | keyUp (t : Word)
  | setEnv (a d s r p : Word)
  | slotOff (n : SlotNo)
  | slot (n : SlotNo) (k : Kind) (mult weight vdepth vrate : Word)
  deriving DecidableEq, Repr

/-- `{EN, KIND}` as the pattern of a `SLOTn_CTRL` (R76). -/
def ctrlPattern (en : Bool) (k : Kind) : Word := (BitVec.ofBool en ++ codeOfKind k).setWidth 64

/-- The expansion of a pseudo-command, all of it on CP, in the order listed (R87). -/
def Pseudo.expand : Pseudo → Option (List Instr)
  | .keyDown i t => (noteFreq i).map fun f => [.setFreq f, .noteOn t]
  | .keyUp t => some [.noteOff t]
  | .setEnv a d s r p =>
    some [.wrCfg .envAttack a, .wrCfg .envDecay d, .wrCfg .envSustain s, .wrCfg .envRelease r, .wrCfg .envStart p]
  | .slotOff n => some [.wrCfg (.slot n .ctrl) 0#64]
  | .slot n k mult weight vdepth vrate =>
    some [.wrCfg (.slot n .ctrl) (ctrlPattern false k), .wrCfg (.slot n .mult) mult,
      .wrCfg (.slot n .weight) weight, .wrCfg (.slot n .vdepth) vdepth, .wrCfg (.slot n .vrate) vrate,
      .wrCfg (.slot n .ctrl) (ctrlPattern true k)]

/-! ### Characters and numbers -/

def isBlankChar (c : Char) : Bool := c == ' ' || c == '\t'

/-- The text without blanks at either end. -/
def trimChars (cs : List Char) : List Char := ((cs.dropWhile isBlankChar).reverse.dropWhile isBlankChar).reverse

/-- The pieces of a text between the characters `sep`. -/
def splitChars (sep : Char) : List Char → List (List Char)
  | [] => [[]]
  | c :: cs =>
    if c == sep then [] :: splitChars sep cs
    else
      match splitChars sep cs with
      | p :: ps => (c :: p) :: ps
      | [] => [[c]]

/-- The value of a hexadecimal digit. -/
def hexDigit (c : Char) : Option Nat :=
  if '0'.toNat ≤ c.toNat && c.toNat ≤ '9'.toNat then some (c.toNat - '0'.toNat)
  else if 'A'.toNat ≤ c.toNat && c.toNat ≤ 'F'.toNat then some (c.toNat - 'A'.toNat + 10)
  else if 'a'.toNat ≤ c.toNat && c.toNat ≤ 'f'.toNat then some (c.toNat - 'a'.toNat + 10)
  else none

/-- A decimal digit. -/
def isDigitChar (c : Char) : Bool := '0'.toNat ≤ c.toNat && c.toNat ≤ '9'.toNat

/-- A non-empty text of digits in a base, most significant first. -/
def digitsValue (base : Nat) (cs : List Char) : Option Nat :=
  if cs.isEmpty then none
  else cs.foldl (fun acc c =>
    match acc, hexDigit c with
    | some n, some k => if k < base then some (n * base + k) else none
    | _, _ => none) (some 0)

/-- `0x` and hexadecimal digits: how many digits, and their value. -/
def hexLiteral : List Char → Option (Nat × Nat)
  | '0' :: 'x' :: ds => (digitsValue 16 ds).map fun v => (ds.length, v)
  | _ => none

/-- A decimal integer with an optional sign. -/
def signedInt : List Char → Option Int
  | '-' :: ds => (digitsValue 10 ds).map fun n => -(n : Int)
  | '+' :: ds => (digitsValue 10 ds).map fun n => (n : Int)
  | ds => (digitsValue 10 ds).map fun n => (n : Int)

/-- What follows the digits before the point: the digits after it, and the exponent. -/
def fracAndExp (cs : List Char) : Option (List Char × Int) :=
  let after := match cs with
    | '.' :: r => r.dropWhile isDigitChar
    | _ => cs
  let frac := match cs with
    | '.' :: r => r.takeWhile isDigitChar
    | _ => []
  match after with
  | [] => some (frac, 0)
  | 'e' :: e => (signedInt e).map fun k => (frac, k)
  | _ => none

/-- A decimal literal without its sign (`0.05`, `1e-4`, `110`): the nearest binary64 (R88). R87 gives only examples of
the form; the model's choice (log entry 18) takes at least one digit, then a point with or without digits after it
(`5.`), then `e` and a decimal integer with an optional sign (`1e+4`), and refuses a leading point (`.5`) and a capital
`E`. -/
def unsignedDecimal (neg : Bool) (cs : List Char) : Option Word :=
  match fracAndExp (cs.dropWhile isDigitChar) with
  | none => none
  | some (frac, e) =>
    (digitsValue 10 (cs.takeWhile isDigitChar)).bind fun _ =>
      (digitsValue 10 (cs.takeWhile isDigitChar ++ frac)).map fun n => ofDecimal neg n (e - frac.length)

/-- A decimal literal (R88). A leading `-` is its only sign: a leading `+` is refused (the model's choice, log entry 18). -/
def decimalLiteral : List Char → Option Word
  | '-' :: cs => unsignedDecimal true cs
  | cs => unsignedDecimal false cs

/-- A time, frequency or value: a decimal literal, or `0x` and 16 hexadecimal digits (R87). -/
def valueLiteral (cs : List Char) : Option Word :=
  match hexLiteral cs with
  | some (n, v) => if n = 16 then some (BitVec.ofNat 64 v) else none
  | none => decimalLiteral cs

/-! ### Names (R75, R77, R87) -/

/-- The names of the registers (R77). -/
def registerNames : List (String × BitVec 8) :=
  [("ENV_ATTACK", 0x00), ("ENV_DECAY", 0x01), ("ENV_SUSTAIN", 0x02), ("ENV_RELEASE", 0x03), ("ENV_START", 0x04),
   ("MVOL", 0x05), ("T_ON", 0x08), ("T_OFF", 0x09), ("FREQ", 0x0A), ("FLAGS", 0x0B), ("STATUS", 0x0C)]
  ++ [("SLOT0_CTRL", 0x10), ("SLOT0_MULT", 0x11), ("SLOT0_WEIGHT", 0x12), ("SLOT0_VDEPTH", 0x13), ("SLOT0_VRATE", 0x14)]
  ++ [("SLOT1_CTRL", 0x18), ("SLOT1_MULT", 0x19), ("SLOT1_WEIGHT", 0x1A), ("SLOT1_VDEPTH", 0x1B), ("SLOT1_VRATE", 0x1C)]
  ++ [("SLOT2_CTRL", 0x20), ("SLOT2_MULT", 0x21), ("SLOT2_WEIGHT", 0x22), ("SLOT2_VDEPTH", 0x23), ("SLOT2_VRATE", 0x24)]
  ++ [("SLOT3_CTRL", 0x28), ("SLOT3_MULT", 0x29), ("SLOT3_WEIGHT", 0x2A), ("SLOT3_VDEPTH", 0x2B), ("SLOT3_VRATE", 0x2C)]

/-- Look a text up in a table of names. -/
def lookupName {A : Type} (table : List (String × A)) (cs : List Char) : Option A :=
  (table.find? fun e => e.1.toList == cs).map fun e => e.2

/-- A register operand: a name of R77, or `0x` and two digits (R87). -/
def registerOperand (cs : List Char) : Option (BitVec 8) :=
  match hexLiteral cs with
  | some (n, v) => if n = 2 then some (BitVec.ofNat 8 v) else none
  | none => lookupName registerNames cs

/-- The kind names: R75's in upper case, and the short `DSAW` and `ASAW` (log entry 18). -/
def kindNames : List (String × Kind) :=
  [("SINE", .sine), ("SQUARE", .square), ("TRIANGLE", .triangle), ("ANALOGSAW", .analogSaw), ("ASAW", .analogSaw),
   ("DIGITALSAW", .digitalSaw), ("DSAW", .digitalSaw), ("NOISE", .noise)]

/-- A `SLOTn_CTRL` value: a kind name optionally followed by `|EN`, or a pattern (R87). -/
def ctrlOperand (cs : List Char) : Option Word :=
  match hexLiteral cs with
  | some (n, v) => if n ≤ 16 then some (BitVec.ofNat 64 v) else none
  | none =>
    match splitChars '|' cs with
    | [k] => (lookupName kindNames k).map (ctrlPattern false)
    | [k, e] => if e == "EN".toList then (lookupName kindNames k).map (ctrlPattern true) else none
    | _ => none

/-- A preset operand: `0`, `1`, `HARM` or `PERC` (R87). -/
def presetOperand (cs : List Char) : Option Preset :=
  lookupName [("0", .harm), ("1", .perc), ("HARM", .harm), ("PERC", .perc)] cs

/-- A slot number, 0 to 3 (R40, R87). -/
def slotOperand (cs : List Char) : Option SlotNo :=
  lookupName [("0", .s0), ("1", .s1), ("2", .s2), ("3", .s3)] cs

/-- A note index (R24, R87). -/
def noteOperand (cs : List Char) : Option Nat := digitsValue 10 cs

/-- The number names a `SLOTn_CTRL`. -/
def isCtrlNumber (i : BitVec 8) : Bool :=
  match regOfNumber i with
  | some (.slot _ .ctrl) => true
  | _ => false

/-- The value operand of a `WR_CFG`, which depends on the register. -/
def configOperand (i : BitVec 8) (cs : List Char) : Option Word :=
  if isCtrlNumber i then ctrlOperand cs else valueLiteral cs

/-! ### Lines (R87) -/

/-- The expansion of a pseudo-command as words on CP. -/
def pseudoWords (p : Option Pseudo) : Option (List (Port × CmdWord)) :=
  (p.bind Pseudo.expand).map fun is => is.map fun i => (Port.cp, encode i)

/-- One word with a value operand. -/
def valueWord (p : Port) (op : BitVec 8) (cs : List Char) : Option (List (Port × CmdWord)) :=
  (valueLiteral cs).map fun d => [(p, mkWord op 0 d)]

/-- A command from its port, its mnemonic and its operands. -/
def assembleCommand (port : Option Port) (m : List Char) (ops : List (List Char)) : Option (List (Port × CmdWord)) :=
  let onCp := port.getD .cp
  let onRp := port.getD .rp
  match String.ofList m, ops with
  | "NOP", [] => some [(onCp, encode .nop)]
  | "NOTE_ON", [t] => valueWord onCp 0x01 t
  | "NOTE_OFF", [t] => valueWord onCp 0x02 t
  | "SET_FREQ", [f] => valueWord onCp 0x03 f
  | "SAMPLE", [t] => valueWord onRp 0x04 t
  | "LD_PRESET", [p] => (presetOperand p).map fun q => [(onCp, encode (.ldPreset q))]
  | "WR_CFG", [g, d] =>
    (registerOperand g).bind fun i => (configOperand i d).map fun v => [(onCp, mkWord 0x06 i v)]
  | "RD_REG", [g] => (registerOperand g).map fun i => [(onCp, mkWord 0x07 i 0)]
  | "KEY_DOWN", [i, t] =>
    pseudoWords ((noteOperand i).bind fun n => (valueLiteral t).map fun v => Pseudo.keyDown n v)
  | "KEY_UP", [t] => pseudoWords ((valueLiteral t).map Pseudo.keyUp)
  | "SET_ENV", [a, d, s, r, p] =>
    pseudoWords ((valueLiteral a).bind fun a => (valueLiteral d).bind fun d => (valueLiteral s).bind fun s =>
      (valueLiteral r).bind fun r => (valueLiteral p).map fun p => Pseudo.setEnv a d s r p)
  | "SLOT_OFF", [n] => pseudoWords ((slotOperand n).map Pseudo.slotOff)
  | "SLOT", [n, k, u, w, vd, vr] =>
    pseudoWords ((slotOperand n).bind fun n => (lookupName kindNames k).bind fun k => (valueLiteral u).bind fun u =>
      (valueLiteral w).bind fun w => (valueLiteral vd).bind fun vd => (valueLiteral vr).map fun vr =>
        Pseudo.slot n k u w vd vr)
  | _, _ => none

/-- The operands of a command: the pieces between commas, or none at all. -/
def operandTexts (cs : List Char) : List (List Char) :=
  if (trimChars cs).isEmpty then [] else (splitChars ',' cs).map trimChars

/-- A line without its port prefix. -/
def assembleBody (port : Option Port) (cs : List Char) : Option (List (Port × CmdWord)) :=
  let body := trimChars cs
  assembleCommand port (body.takeWhile fun c => !isBlankChar c) (operandTexts (body.dropWhile fun c => !isBlankChar c))

/-- One line of assembler text: the words it assembles to with their ports, none where it is not of R87's form. A `;`
starts a comment; a line with nothing else assembles to nothing. -/
def assembleLine (cs : List Char) : Option (List (Port × CmdWord)) :=
  let body := trimChars (cs.takeWhile (· != ';'))
  match body with
  | [] => some []
  | 'C' :: 'P' :: ':' :: rest => assembleBody (some .cp) rest
  | 'R' :: 'P' :: ':' :: rest => assembleBody (some .rp) rest
  | _ => assembleBody none body

end Sys2Proof.Machine
end

