-- ==== Sys2Proof/Tests/Slice0.lean ====
section
/-! SUPPORT. The model's own tests. Every expected value comes from the spec: words from 30_encoding.md and
95_test_vectors.md section 2, envelopes, oscillators and samples from its sections 3 to 7. The last part gives, for every
obligation with hypotheses, a concrete input that meets them. -/

namespace Sys2Proof.Tests

set_option Elab.async false

open Sys2Proof Sys2Proof.Machine

/-! ### Helpers -/

/-- What a step left, read by `f`; nothing if it stopped. -/
def after {A : Type} (o : Host.Outcome State Fault Refusal) (f : State → A) : Option A :=
  match o with
  | .next t => some (f t)
  | .fault _ => none
  | .refused _ => none

/-- The decoder accepts nothing here. -/
def isIllegal (p : Port) (w : CmdWord) : Bool :=
  match decode p w with
  | .error _ => true
  | .ok _ => false

/-- The decoder reads this command. -/
def reads (p : Port) (w : CmdWord) (i : Instr) : Bool :=
  match decode p w with
  | .error _ => false
  | .ok j => decide (j = i)

/-- A slot without vibrato. -/
def plainSlot (ctrl mult weight : Word) : SlotRegs Word := ⟨ctrl, mult, weight, 0#64, 0#64⟩

/-- A disabled slot. -/
def offSlot : SlotRegs Word := plainSlot 0#64 0#64 0#64

/-- The reset registers with every slot disabled. -/
def quietRegs : Regs Word :=
  { Regs.reset with slot0 := offSlot, slot1 := offSlot, slot2 := offSlot, slot3 := offSlot }

/-- The registers with an envelope configuration `(A, D, S, R, P)`, note times and flags. -/
def withEnvelope (r : Regs Word) (a d s rel p tOn tOff flags : Word) : Regs Word :=
  { r with envAttack := a, envDecay := d, envSustain := s, envRelease := rel, envStart := p, tOn := tOn, tOff := tOff,
           flags := flags }

/-- HARM cfg = (0.05, 0.01, 0.8, 0.2, 1.0) of section 3. -/
def harmEnv (tOn tOff flags : Word) : Regs Word :=
  withEnvelope quietRegs 0x3FA999999999999A#64 0x3F847AE147AE147B#64 0x3FE999999999999A#64 0x3FC999999999999A#64
    0x3FF0000000000000#64 tOn tOff flags

/-- PERC cfg = (0, 1.0, 0, 1.0, 1.0) of section 3. -/
def percEnv (tOn tOff flags : Word) : Regs Word :=
  withEnvelope quietRegs 0#64 0x3FF0000000000000#64 0#64 0x3FF0000000000000#64 0x3FF0000000000000#64 tOn tOff flags

/-- A table of times and envelopes holds, bit for bit. -/
def envTable (r : Regs Word) (rows : List (Word × Word)) : Bool :=
  rows.all fun e => (numB64.envAmp r e.1).val == e.2

/-- The voice of Program C: slot 0 a DigitalSaw of weight 2, the others off, `FREQ` 0.25, note on at 0. -/
def sawState : State :=
  { State.reset with
    regs := { harmEnv 0#64 0#64 3#64 with
      slot0 := plainSlot 0xC#64 0x3FF0000000000000#64 0x4000000000000000#64
      freq := 0x3FD0000000000000#64 } }

/-- Program C at its step 12: `FREQ` 0. -/
def dsawState : State := { sawState with regs := { sawState.regs with freq := 0#64 } }

/-- Nothing sounds, and `life` overflows at a large time (R144). -/
def overflowState : State :=
  { State.reset with regs := { quietRegs with tOn := 0xFFEFFFFFFFFFFFFF#64, flags := 3#64 } }

/-- Two Noise slots, vector M4: weights 1 and 2, draws 0.25 then -0.5. -/
def noiseState : State :=
  { State.reset with
    regs := { quietRegs with
      slot0 := plainSlot 0xD#64 0#64 0x3FF0000000000000#64
      slot1 := plainSlot 0xD#64 0#64 0x4000000000000000#64 }
    draws := [0x3FD0000000000000#64, 0xBFE0000000000000#64] }

/-! ### Well-formedness: an ill-formed term for each check, refused -/

theorem test_wf_noteOn_infinity : (Instr.noteOn 0x7FF0000000000000#64).wellFormed = false := by decide
theorem test_wf_noteOff_nan : (Instr.noteOff 0x7FF8000000000000#64).wellFormed = false := by decide
theorem test_wf_setFreq_nan : (Instr.setFreq 0x7FF0000000000001#64).wellFormed = false := by decide
theorem test_wf_sample_minus_infinity : (Instr.sample 0xFFF0000000000000#64).wellFormed = false := by decide
theorem test_wf_wrCfg_read_only : (Instr.wrCfg .tOn 0x3FF0000000000000#64).wellFormed = false := by decide
theorem test_wf_wrCfg_negative_duration : (Instr.wrCfg .envAttack 0xBFA999999999999A#64).wellFormed = false := by
  decide +kernel
theorem test_wf_wrCfg_above_one : (Instr.wrCfg .mvol 0x3FF0000000000001#64).wellFormed = false := by decide +kernel
theorem test_wf_wrCfg_reserved_kind : (Instr.wrCfg (.slot .s0 .ctrl) 0x6#64).wellFormed = false := by decide
theorem test_wf_wrCfg_ctrl_high_bits : (Instr.wrCfg (.slot .s0 .ctrl) 0x10#64).wellFormed = false := by decide
theorem test_wf_wrCfg_infinite_weight : (Instr.wrCfg (.slot .s0 .weight) 0x7FF0000000000000#64).wellFormed = false := by
  decide
theorem test_port_sample_on_cp : (Instr.sample 0#64).admittedOn .cp = false := by decide
theorem test_port_rdReg_on_rp : (Instr.rdReg .status).admittedOn .rp = false := by decide
theorem test_wf_minus_zero_is_legal : (Instr.wrCfg .envAttack 0x8000000000000000#64).wellFormed = true := by
  decide +kernel

/-! ### Decoding: words written out from 30_encoding.md R69, R71 (`OP`, `IDX`, `DATA`) -/

theorem test_decode_nop : reads .cp 0x00000000000000000000#80 .nop = true := by decide
theorem test_decode_noteOn : reads .cp 0x0100BF847AE147AE147B#80 (.noteOn 0xBF847AE147AE147B#64) = true := by decide
theorem test_decode_noteOff : reads .cp 0x02003FF0000000000000#80 (.noteOff 0x3FF0000000000000#64) = true := by decide
theorem test_decode_setFreq : reads .cp 0x0300405B800000000000#80 (.setFreq 0x405B800000000000#64) = true := by decide
theorem test_decode_sample : reads .rp 0x04003F9999999999999A#80 (.sample 0x3F9999999999999A#64) = true := by decide
theorem test_decode_ldPreset :
    reads .cp 0x05000000000000000000#80 (.ldPreset .harm) = true ∧
    reads .cp 0x05010000000000000000#80 (.ldPreset .perc) = true := by decide
theorem test_decode_wrCfg :
    reads .cp 0x0612C000000000000000#80 (.wrCfg (.slot .s0 .weight) 0xC000000000000000#64) = true ∧
    reads .cp 0x06280000000000000005#80 (.wrCfg (.slot .s3 .ctrl) 0x5#64) = true ∧
    reads .cp 0x06244014000000000000#80 (.wrCfg (.slot .s2 .vrate) 0x4014000000000000#64) = true := by decide +kernel
theorem test_decode_rdReg :
    reads .cp 0x070B0000000000000000#80 (.rdReg .flags) = true ∧
    reads .cp 0x07280000000000000000#80 (.rdReg (.slot .s3 .ctrl)) = true := by decide

/-- The illegal words of section 2 that are illegal on CP. -/
theorem test_illegal_on_cp :
    ([0x08000000000000000000#80, 0xFF00FFFFFFFFFFFFFFFF#80, 0x00000000000000000001#80, 0x00010000000000000000#80,
      0x01010000000000000000#80, 0x01007FF0000000000000#80, 0x0100FFF0000000000000#80, 0x02007FF8000000000000#80,
      0x03007FF0000000000001#80, 0x04003F9999999999999A#80]
    ++ [0x05020000000000000000#80, 0x05000000000000000001#80, 0x06060000000000000000#80, 0x06083FF0000000000000#80,
      0x060C0000000000000000#80, 0x06153FF0000000000000#80, 0x06303FF0000000000000#80, 0x0600BFA999999999999A#80,
      0x06023FF8000000000000#80, 0x06053FF0000000000001#80]
    ++ [0x0611BFF0000000000000#80, 0x06127FF0000000000000#80, 0x06100000000000000006#80, 0x0610000000000000000F#80,
      0x06100000000000000010#80, 0x070D0000000000000000#80, 0x070C0000000000000001#80]).all (isIllegal .cp) = true := by
  decide +kernel

/-- Those that are illegal on RP. -/
theorem test_illegal_on_rp :
    [0x01000000000000000000#80, 0x070C0000000000000000#80, 0x04013F9999999999999A#80, 0x04007FF8000000000000#80,
      0x08000000000000000000#80].all (isIllegal .rp) = true := by decide

/-! ### Steps and the hosts -/

/-- The next step runs the word put in front, on the port its opcode takes. -/
theorem test_fetch_wrCfg :
    after (step (State.reset.withFetchWord 80 0x06053FF0000000000000)) (fun t => t.regs.mvol)
      = some 0x3FF0000000000000#64 := by decide +kernel
theorem test_fetch_short_word :
    decodeTableWord 80 0x07020000000000000000 = some (.rdReg .envSustain) ∧
    decodeTableWord 80 0x04000000000000000000 = some (.sample 0#64) := by decide

/-- Program E, step 3: `SAMPLE` of an infinity answers 0, takes no draw, sets `ILL`. -/
theorem test_illegal_sample_answers_zero :
    after (step ({ noiseState with rpQueue := [0x04007FF0000000000000#80] }))
      (fun t => (t.rpResp, t.draws.length, t.regs.status)) = some ([0#64], 2, 1#64) := by decide

/-- An illegal `RD_REG` on the wrong port answers there (section 2). -/
theorem test_illegal_rdReg_answers_on_rp :
    after (step ({ State.reset with rpQueue := [0x070C0000000000000000#80] }))
      (fun t => (t.cpResp, t.rpResp, t.regs.status)) = some ([], [0#64], 1#64) := by decide

/-- Program E, steps 7 to 9: a reset clears `STATUS` and restores the image. -/
theorem test_reset_turn :
    after (step ({ dsawState with agenda := [.reset 1 0], cpQueue := [0#80, 1#80] }))
      (fun t => (decide (t.regs = Regs.reset), t.cpQueue)) = some (true, [1#80]) := by decide

/-- Program D: either order of the two ports, as the agenda says. -/
theorem test_agenda_order :
    after (step ({ State.reset with agenda := [.port .rp], cpQueue := [0x0300405B800000000000#80],
                                    rpQueue := [0#80] }))
      (fun t => (t.cpQueue.length, t.rpQueue.length, t.regs.freq)) = some (1, 0, 0#64) := by decide

/-! ### The commands -/

/-- E10: `FLAGS` after `NOTE_ON` is 3 and `T_ON` is what was sent. -/
theorem test_noteOn_flags :
    after (exec (.noteOn 0x4002000000000000#64) State.reset) (fun t => (t.regs.flags, t.regs.tOn))
      = some (3#64, 0x4002000000000000#64) := by decide
/-- E10: 2 after `NOTE_OFF`; R91 (a): `FLAGS` stays 0 without a note-on. -/
theorem test_noteOff_flags :
    after (exec (.noteOff 0x3FF0000000000000#64) { State.reset with regs := harmEnv 0#64 0#64 3#64 })
      (fun t => t.regs.flags) = some 2#64 ∧
    after (exec (.noteOff 0x3FF0000000000000#64) State.reset) (fun t => t.regs.flags) = some 0#64 := by decide
/-- G2: `LD_PRESET 1` clears the flags, keeps `MVOL` and `FREQ`. -/
theorem test_ldPreset_perc :
    after (exec (.ldPreset .perc) sawState)
      (fun t => (t.regs.envDecay, t.regs.slot2.mult, t.regs.flags, t.regs.freq, t.regs.mvol))
      = some (0x3FF0000000000000#64, 0x4008000000000000#64, 0#64, 0x3FD0000000000000#64, 0x3FD999999999999A#64) := by
  decide +kernel
/-- G3: a write is read back as sent; a refused one changes nothing and sets `ILL`. -/
theorem test_wrCfg_readback :
    after (exec (.wrCfg .envRelease 0x3FE0000000000000#64) State.reset) (fun t => regRead t.regs .envRelease)
      = some 0x3FE0000000000000#64 := by decide +kernel
theorem test_wrCfg_refused :
    after (exec (.wrCfg .envSustain 0x3FF8000000000000#64) State.reset)
      (fun t => (regRead t.regs .envSustain, t.regs.status)) = some (0x3FE999999999999A#64, 1#64) := by decide +kernel
/-- Section 2: `RD_REG SLOT3_CTRL` after reset responds 0xD. -/
theorem test_rdReg_slot3_ctrl :
    after (exec (.rdReg (.slot .s3 .ctrl)) State.reset) (fun t => t.cpResp) = some [0xD#64] := by decide
theorem test_setFreq :
    after (exec (.setFreq 0x405B800000000000#64) State.reset) (fun t => (t.regs.freq, t.regs.tOn))
      = some (0x405B800000000000#64, 0#64) := by decide

/-- Program C, step 8: 0.32 bit for bit. -/
theorem test_sample_digitalSaw :
    after (exec (.sample 0x4008000000000000#64) sawState) (fun t => (t.rpResp, t.regs.status))
      = some ([0x3FD47AE147AE147C#64], 0#64) := by decide +kernel
/-- Program C, step 10: wrapped and clamped below, -0.4. -/
theorem test_sample_clamps :
    after (exec (.sample 0x4010666666666666#64) sawState) (fun t => t.rpResp)
      = some [0xBFD999999999999A#64] := by decide +kernel
/-- X13, Program C step 12: `DSAW` is raised, and the remaining slots are still evaluated. -/
theorem test_sample_dsaw :
    (numB64.sample dsawState.regs 0x4014000000000000#64 dsawState.drawAt).dsaw = true ∧
    (numB64.sample { dsawState.regs with slot3 := plainSlot 0xD#64 0#64 0#64 } 0#64 dsawState.drawAt).drawn = 1 := by
  decide +kernel
/-- X14's rule: a non-finite intermediate sets `NONFIN`. -/
theorem test_sample_nonfin :
    after (exec (.sample 0x7FEFFFFFFFFFFFFF#64) overflowState) (fun t => t.regs.status) = some 4#64 := by decide +kernel
/-- M4: two draws in slot order, -0.75. -/
theorem test_mix_noise :
    (numB64.mix noiseState.regs 0#64 noiseState.drawAt).mix = 0xBFE8000000000000#64 ∧
    (numB64.mix noiseState.regs 0#64 noiseState.drawAt).drawn = 2 := by decide +kernel
/-- M5: nothing enabled, the empty sum. -/
theorem test_mix_empty : (numB64.mix quietRegs 0#64 noiseState.drawAt).mix = 0#64 := by decide +kernel

/-! ### The envelope, section 3 -/

theorem test_env_E1 :
    envTable (harmEnv 0#64 0#64 3#64)
      [(0x0000000000000000#64, 0#64), (0x3ED4F8B588E368F1#64, 0#64), (0x3EE4F8B588E368F1#64, 0x3F2A36E2EB1C432D#64),
       (0x3F9999999999999A#64, 0x3FE0000000000000#64), (0x3FA999999999999A#64, 0x3FF0000000000000#64),
       (0x3FAC28F5C28F5C29#64, 0x3FECCCCCCCCCCCCE#64), (0x3FAEB851EB851EB8#64, 0x3FE999999999999B#64),
       (0x3FAF3B645A1CAC08#64, 0x3FE999999999999A#64), (0xBF847AE147AE147B#64, 0#64)] = true := by decide +kernel
theorem test_env_E2 :
    envTable (harmEnv 0#64 0x3FF0000000000000#64 2#64)
      [(0x3FF0000000000000#64, 0x3FE999999999999A#64), (0x3FF199999999999A#64, 0x3FD9999999999994#64),
       (0x3FF33328B6D86EC1#64, 0#64), (0x3FF33318FC504817#64, 0#64), (0x3FF3333333333333#64, 0#64),
       (0x3FF4CCCCCCCCCCCD#64, 0#64), (0x3FECCCCCCCCCCCCD#64, 0x3FF3333333333333#64),
       (0x0000000000000000#64, 0x4013333333333333#64)] = true := by decide +kernel
theorem test_env_E3 : envTable (harmEnv 0#64 0#64 0#64) [(0#64, 0#64), (0xC014000000000000#64, 0#64)] = true := by
  decide +kernel
theorem test_env_E4 :
    envTable (percEnv 0#64 0#64 3#64)
      [(0xBFE0000000000000#64, 0#64), (0#64, 0x3FF0000000000000#64), (0x3FD0000000000000#64, 0x3FE8000000000000#64),
       (0x3FEFAE147AE147AE#64, 0x3F847AE147AE1480#64), (0x3FEFFF972474538F#64, 0#64), (0x3FF0000000000000#64, 0#64),
       (0x4000000000000000#64, 0#64)] = true := by decide +kernel
theorem test_env_E6 :
    envTable { harmEnv 0#64 0x3FF0000000000000#64 2#64 with envRelease := 0#64 }
      [(0x3FECCCCCCCCCCCCD#64, 0x3FE999999999999A#64), (0x3FF0000000000000#64, 0#64), (0x3FF199999999999A#64, 0#64)]
      = true := by decide +kernel
theorem test_env_E8 :
    envTable (withEnvelope quietRegs 0x3FA999999999999A#64 0x3F847AE147AE147B#64 0x3FF0000000000000#64
        0x3FC999999999999A#64 0x3FE0000000000000#64 0#64 0#64 3#64)
      [(0x3FA999999999999A#64, 0x3FE0000000000000#64), (0x3FAC28F5C28F5C29#64, 0x3FE7FFFFFFFFFFFF#64)] = true := by
  decide +kernel

/-! ### The oscillator, section 4: DigitalSaw uses no sine -/

theorem test_digitalSaw_O1 :
    ([(0#64, 0xBFF0000000000000#64), (0x3FE0000000000000#64, 0xBFE8000000000000#64),
      (0x4000000000000000#64, 0#64), (0x4008000000000000#64, 0x3FE0000000000000#64),
      (0x400F333333333333#64, 0x3FEE666666666667#64), (0x4010666666666666#64, 0xBFEE666666666668#64),
      (0xBFF0000000000000#64, 0x3FE0000000000000#64)].all fun e : Word × Word =>
        (numB64.digitalSaw 0x3FD0000000000000#64 e.1).val == e.2) = true := by decide +kernel
theorem test_digitalSaw_O6 :
    (numB64.digitalSaw 0x405B800000000000#64 0x3F9999999999999A#64).val = 0x3FE0000000000005#64 := by decide +kernel

/-! ### Literals and assembler text (R87, R88) -/

theorem test_literals :
    ofDecimal false 5 (-2) = 0x3FA999999999999A#64 ∧ ofDecimal false 1 (-4) = 0x3F1A36E2EB1C432D#64 ∧
    ofDecimal false 1 16 = 0x4341C37937E08000#64 ∧ ofDecimal true 0 (-1) = 0x8000000000000000#64 := by decide +kernel
theorem test_assemble_noteOn :
    assembleLine "CP: NOTE_ON -0.01 ; before zero".toList = some [(.cp, 0x0100BF847AE147AE147B#80)] := by decide +kernel
theorem test_assemble_wrCfg :
    assembleLine "WR_CFG SLOT0_CTRL, DSAW|EN".toList = some [(.cp, 0x0610000000000000000C#80)] := by decide +kernel
theorem test_assemble_slotOff :
    assembleLine "SLOT_OFF 1".toList = some [(.cp, 0x06180000000000000000#80)] := by decide +kernel
theorem test_assemble_sample :
    assembleLine "SAMPLE 0.025".toList = some [(.rp, 0x04003F9999999999999A#80)] := by decide +kernel

/-! ### Witnesses: inputs that meet the hypotheses of each obligation, clause by clause -/

/-- DecodeInvertsEncode: one legal command of each kind. -/
theorem witness_DecodeInvertsEncode :
    Instr.nop.Legal .rp ∧ (Instr.noteOn 0#64).Legal .cp ∧ (Instr.noteOff 0#64).Legal .cp ∧
    (Instr.setFreq 0x405B800000000000#64).Legal .cp ∧ (Instr.sample 0#64).Legal .rp ∧
    (Instr.ldPreset .perc).Legal .cp ∧ (Instr.wrCfg .mvol one64).Legal .cp ∧ (Instr.rdReg .status).Legal .cp := by
  decide +kernel

theorem witness_DecodedWordIsTheCommandsWord :
    decode .cp 0x070B0000000000000000#80 = .ok (.rdReg .flags) := by decide

/-- Both ends of the reserved opcodes; 0x07 is not one. -/
theorem witness_ReservedOpcodesAreIllegal :
    0x08 ≤ ((0x08000000000000000000#80 : CmdWord).extractLsb' 72 8).toNat ∧
    0x08 ≤ ((0xFF00FFFFFFFFFFFFFFFF#80 : CmdWord).extractLsb' 72 8).toNat ∧
    ¬0x08 ≤ ((0x070B0000000000000000#80 : CmdWord).extractLsb' 72 8).toNat := by decide

theorem witness_PortsAdmitTheirCommands :
    (0x04003F9999999999999A#80 : CmdWord).extractLsb' 72 8 = 0x04#8 ∧
    (0x01000000000000000000#80 : CmdWord).extractLsb' 72 8 ≠ 0x00#8 ∧
    (0x01000000000000000000#80 : CmdWord).extractLsb' 72 8 ≠ 0x04#8 := by decide

/-- One word for each of the three clauses: `IDX`, `DATA`, and the high bits of a slot control. -/
theorem witness_MustBeZeroFields :
    (((0x04010000000000000000#80 : CmdWord).extractLsb' 72 8).toNat ≤ 4 ∧
      (0x04010000000000000000#80 : CmdWord).extractLsb' 64 8 ≠ 0#8) ∧
    ((0x05000000000000000001#80 : CmdWord).extractLsb' 72 8 ∈ [0x00#8, 0x05#8, 0x07#8] ∧
      (0x05000000000000000001#80 : CmdWord).extractLsb' 0 64 ≠ 0#64) ∧
    ((0x06100000000000000010#80 : CmdWord).extractLsb' 72 8 = 0x06#8 ∧
      (0x06100000000000000010#80 : CmdWord).extractLsb' 64 8 ∈ [0x10#8, 0x18#8, 0x20#8, 0x28#8] ∧
      (0x06100000000000000010#80 : CmdWord).extractLsb' 4 60 ≠ 0#60) := by decide

/-- An infinity in each clause; the largest finite pattern and the smallest subnormal in the other half. -/
theorem witness_NonFiniteOperandsAreIllegal :
    (((0x01007FF0000000000000#80 : CmdWord).extractLsb' 72 8).toNat = 1 ∧
      (0x01007FF0000000000000#80 : CmdWord).extractLsb' 52 11 = 0x7FF#11) ∧
    ((0x06127FF0000000000000#80 : CmdWord).extractLsb' 72 8 = 0x06#8 ∧
      (0x06127FF0000000000000#80 : CmdWord).extractLsb' 64 8 ∉ [0x10#8, 0x18#8, 0x20#8, 0x28#8] ∧
      (0x06127FF0000000000000#80 : CmdWord).extractLsb' 52 11 = 0x7FF#11) ∧
    (0x7FEFFFFFFFFFFFFF#64 : Word).extractLsb' 52 11 ≠ 0x7FF#11 ∧
    (0x0000000000000001#64 : Word).extractLsb' 52 11 ≠ 0x7FF#11 := by decide

/-- The largest positive subnormal and the negative zero, for a duration and an amplitude. -/
theorem witness_NonFiniteOperandsAreIllegal_subnormal :
    writable .envAttack = true ∧ (∀ n, Reg.envAttack ≠ .slot n .ctrl) ∧
    writable .mvol = true ∧ (∀ n, Reg.mvol ≠ .slot n .ctrl) ∧
    ((0x000FFFFFFFFFFFFF#64 : Word).extractLsb' 52 11 = 0#11 ∧ (0x000FFFFFFFFFFFFF#64 : Word).getLsbD 63 = false) ∧
    ((0x8000000000000000#64 : Word).extractLsb' 52 11 = 0#11 ∧ (0x8000000000000000#64 : Word).extractLsb' 0 52 = 0#52) :=
  ⟨rfl, by simp, rfl, by simp, by decide, by decide⟩

/-- Where the ranges of R84 meet: the last legal and the first illegal of each. -/
theorem witness_InvalidIndicesAndValues :
    ([0x05020000000000000000#80, 0x05FF0000000000000000#80, 0x07060000000000000000#80, 0x070D0000000000000000#80,
      0x07150000000000000000#80, 0x07300000000000000000#80, 0x06080000000000000000#80, 0x060C0000000000000000#80]
    ++ [0x06100000000000000006#80, 0x06280000000000000007#80, 0x06008000000000000001#80, 0x06118000000000000001#80,
      0x06028000000000000001#80, 0x06053FF0000000000001#80]).all (isIllegal .cp) = true ∧
    [0x05010000000000000000#80, 0x07050000000000000000#80, 0x070C0000000000000000#80, 0x072C0000000000000000#80,
      0x06050000000000000000#80, 0x06100000000000000005#80, 0x06008000000000000000#80,
      0x06053FF0000000000000#80].all (fun w => !isIllegal .cp w) = true := by decide +kernel

/-- The same by value: below 0 and above 1 as rational numbers. -/
theorem witness_InvalidIndicesAndValues_toRat :
    toRat 0x8000000000000001#64 < 0 ∧ 1 < toRat 0x3FF0000000000001#64 := by decide +kernel

theorem witness_IllegalWordEffect :
    decode .rp 0x04007FF8000000000000#80 = .error .badData ∧ decode .cp 0x00010000000000000000#80 = .error .mustBeZero := by
  decide

theorem witness_StepRunsTheDecodedCommand :
    nextTurn ({ State.reset with cpQueue := [0x0300405B800000000000#80] }) = some (.port .cp) ∧
    ({ State.reset with cpQueue := [0x0300405B800000000000#80] } : State).queue .cp = [0x0300405B800000000000#80] ∧
    decode .cp 0x0300405B800000000000#80 = .ok (.setFreq 0x405B800000000000#64) := by decide

/-- A step of each kind: idle, a port's turn, a reset. -/
theorem witness_StepTakesTheNextCommandOfOnePort :
    nextTurn State.reset = none ∧ nextTurn ({ State.reset with rpQueue := [0#80] }) = some (.port .rp) ∧
    nextTurn ({ State.reset with agenda := [.reset 0 0] }) = some (.reset 0 0) := by decide

theorem witness_FreeOrderOfThePorts :
    (({ State.reset with cpQueue := [0#80], rpQueue := [0#80] } : State).agenda = [] ∧
      ({ State.reset with cpQueue := [0#80], rpQueue := [0#80] } : State).cpQueue ≠ []) ∧
    State.reset.agenda = [] ∧ State.reset.cpQueue = [] ∧ State.reset.rpQueue = [] := by decide

theorem witness_NopEffect :
    (0x00000000000000000001#80 : CmdWord).extractLsb' 72 8 = 0x00#8 ∧ 0x00000000000000000001#80 ≠ (0#80 : CmdWord) := by
  decide

theorem witness_ResetTurnEffect :
    nextTurn ({ dsawState with agenda := [.reset 1 0], cpQueue := [0#80] }) = some (.reset 1 0) := by decide

/-- NoteOnEffect, NoteOffEffect, SetFreqEffect, SampleCompletes: a finite operand at either end of its range. -/
theorem witness_finite_operand :
    isFinite 0xFFEFFFFFFFFFFFFF#64 = true ∧ isFinite 0x7FEFFFFFFFFFFFFF#64 = true ∧ isFinite 0x1#64 = true := by decide

/-- A legal write of each kind of register. -/
theorem witness_WrCfgEffect :
    (writable .envDecay = true ∧ legalData .envDecay 0x1#64 = true) ∧
    (writable .mvol = true ∧ legalData .mvol one64 = true) ∧
    (writable (.slot .s1 .ctrl) = true ∧ legalData (.slot .s1 .ctrl) 0xD#64 = true) ∧
    (writable (.slot .s2 .weight) = true ∧ legalData (.slot .s2 .weight) 0xC000000000000000#64 = true) := by
  decide +kernel

/-- Program C, step 8, raises no fault: the guard of R175 holds and every value is finite. -/
theorem witness_CleanSampleResponds :
    isFinite 0x4008000000000000#64 = true ∧ SampleClean sawState 0x4008000000000000#64 := by
  refine ⟨by decide, ?_, by decide +kernel⟩
  intro n
  cases n <;> decide +kernel

theorem witness_DsawIsRaisedExactly :
    (∃ t, exec (.sample 0#64) dsawState = .next t) ∧ isSawSlot dsawState.regs .s0 = true ∧
    le64 (slotFreq dsawState.regs .s0) zero64 = true ∧ le64 (slotFreq sawState.regs .s0) zero64 = false :=
  ⟨⟨_, rfl⟩, by decide, by decide +kernel, by decide +kernel⟩

/-- The guard, with an operation of the pseudocode that overflows and with none that does. -/
theorem witness_NonfinIsRaisedExactly :
    SawGuard overflowState.regs ∧ isFinite 0x7FEFFFFFFFFFFFFF#64 = true ∧ isFinite 0#64 = true ∧
    (sampleOps overflowState.regs 0x7FEFFFFFFFFFFFFF#64 overflowState.drawAt).any (fun v => !isFinite v) = true ∧
    (sampleOps overflowState.regs 0#64 overflowState.drawAt).any (fun v => !isFinite v) = false := by
  refine ⟨?_, by decide, by decide, by decide +kernel, by decide +kernel⟩
  intro n
  cases n <;> decide

theorem witness_IllFormedCommandsAreIllegal :
    (Instr.sample 0x7FF8000000000000#64).wellFormed = false ∧ (Instr.wrCfg .status 0#64).wellFormed = false := by decide

theorem witness_CommandsAreIdempotent :
    (∀ d, Instr.noteOn 0#64 ≠ .sample d) ∧ (∀ r, Instr.noteOn 0#64 ≠ .rdReg r) := by simp

theorem witness_OnlyTheTableIsWritten :
    (Instr.wrCfg .mvol 0#64).wellFormed = true ∧ mayWrite (.wrCfg .mvol 0#64) .mvol = true ∧
    mayWrite (.wrCfg .mvol 0#64) .freq = false := by decide +kernel

theorem witness_StatusIsSticky :
    (∀ a b, nextTurn ({ State.reset with regs := State.reset.regs.raise .dsaw, cpQueue := [0#80] }) ≠
      some (.reset a b)) ∧
    (State.reset.regs.raise .dsaw).status.getLsbD 1 = true := by
  refine ⟨?_, by decide⟩
  simp [nextTurn, freeTurn, State.reset]

/-- Program C's voice at the ends of the invariant's ranges, with a command to execute. -/
def edgeState : State :=
  { sawState with
    regs := { sawState.regs with status := 7#64, mvol := one64, envStart := 0x8000000000000000#64 }
    cpQueue := [0x01000000000000000000#80] }

theorem witness_StepKeepsTheStateInvariant : ∃ s t : State, s.Inv ∧ step s = .next t :=
  ⟨edgeState, _, by decide +kernel, rfl⟩

theorem witness_DisabledSlotIsNotObserved :
    (sawState.regs.slot .s1).en = false ∧ (plainSlot 0x5#64 one64 one64).en = false := by decide

theorem witness_OutputWithinMasterVolume :
    unitOk sawState.regs.mvol = true ∧ isFinite 0x4010666666666666#64 = true ∧
    SampleClean sawState 0x4010666666666666#64 ∧ (0 : ℝ) ≤ 2 / 5 := by
  refine ⟨by decide +kernel, by decide, ⟨?_, by decide +kernel⟩, by norm_num⟩
  intro n
  cases n <;> decide +kernel

theorem witness_SilentUntilTriggered :
    (({ sawState with regs := { sawState.regs with flags := 0#64 } } : State).regs.flags.getLsbD 1 = false) ∧
    SampleClean ({ sawState with regs := { sawState.regs with flags := 0#64 } }) 0x4008000000000000#64 := by
  refine ⟨by decide, ?_, by decide +kernel⟩
  intro n
  cases n <;> decide +kernel

theorem witness_EnvelopeIsZeroOrAboveTheFloor :
    isFinite (numB64.envAmp (harmEnv 0#64 0#64 3#64) 0x3F9999999999999A#64).val = true := by decide +kernel

/-- Registers in the reals with the HARM envelope, a slot `sl` in slot 0 and the others off. -/
noncomputable def realRegs (flags : Word) (sl : SlotRegs ℝ) : Regs ℝ where
  envAttack := 1 / 20
  envDecay := 1 / 100
  envSustain := 4 / 5
  envRelease := 1 / 5
  envStart := 1
  mvol := 2 / 5
  tOn := 0
  tOff := 1
  freq := 1
  flags := flags
  status := 0#64
  slot0 := sl
  slot1 := ⟨0#64, 0, 0, 0, 0⟩
  slot2 := ⟨0#64, 0, 0, 0, 0⟩
  slot3 := ⟨0#64, 0, 0, 0, 0⟩

/-- EnvelopeUpperBounds, AttackAndDecayAreLinear, SustainIsExact and ReleaseEndsInSilence, in the reals: held in the
attack, at the end of the decay and after it; released before, at and after `T_OFF`. -/
theorem witness_real_envelope (sl : SlotRegs ℝ) :
    (0 ≤ (realRegs 3#64 sl).envAttack ∧ 0 ≤ (realRegs 3#64 sl).envDecay ∧ 0 ≤ (realRegs 3#64 sl).envRelease ∧
      0 ≤ (realRegs 3#64 sl).envSustain ∧ (realRegs 3#64 sl).envSustain ≤ 1 ∧ 0 ≤ (realRegs 3#64 sl).envStart ∧
      (realRegs 3#64 sl).envStart ≤ 1) ∧
    trig (realRegs 3#64 sl) = true ∧ held (realRegs 3#64 sl) = true ∧ held (realRegs 2#64 sl) = false ∧
    trig (realRegs 2#64 sl) = true ∧ (0 < (realRegs 2#64 sl).envRelease ∧ 1 / 10000 ≤ (realRegs 2#64 sl).envSustain ∧
      (1 / 2 : ℝ) < (realRegs 2#64 sl).tOff) ∧
    (0 < (realRegs 3#64 sl).envAttack ∧ (1 / 20 : ℝ) - (realRegs 3#64 sl).tOn ≤ (realRegs 3#64 sl).envAttack) ∧
    ((realRegs 3#64 sl).envAttack < (3 / 50 : ℝ) - (realRegs 3#64 sl).tOn ∧
      (3 / 50 : ℝ) - (realRegs 3#64 sl).tOn = (realRegs 3#64 sl).envAttack + (realRegs 3#64 sl).envDecay ∧
      0 < (realRegs 3#64 sl).envDecay ∧ 1 / 10000 < (realRegs 3#64 sl).envSustain) ∧
    (realRegs 3#64 sl).envAttack + (realRegs 3#64 sl).envDecay < (1 : ℝ) - (realRegs 3#64 sl).tOn ∧
    (realRegs 2#64 sl).tOff ≤ (1 : ℝ) ∧
    (realRegs 2#64 sl).tOff + (realRegs 2#64 sl).envRelease ≤ (6 / 5 : ℝ) := by
  simp only [realRegs, trig, held]
  refine ⟨by norm_num, by decide, by decide, by decide, by decide, by norm_num, by norm_num, by norm_num, by norm_num,
    by norm_num, by norm_num⟩

theorem witness_AttackEndsExactlyAtStart :
    trig (harmEnv 0#64 0#64 3#64) = true ∧ held (harmEnv 0#64 0#64 3#64) = true ∧
    (harmEnv 0#64 0#64 3#64).ConfigInv ∧
    sub64 0x3FA999999999999A#64 (harmEnv 0#64 0#64 3#64).tOn = (harmEnv 0#64 0#64 3#64).envAttack ∧
    0 < toRat (harmEnv 0#64 0#64 3#64).envAttack ∧ toRat floor64 < toRat (harmEnv 0#64 0#64 3#64).envStart := by
  decide +kernel

/-- The four clauses: `life` 0 and negative with `A` 0; before and at `T_OFF` with `R` 0. -/
theorem witness_ZeroDurationRamps :
    (trig (percEnv 0#64 0#64 3#64) = true ∧ held (percEnv 0#64 0#64 3#64) = true ∧
      isFinite (percEnv 0#64 0#64 3#64).envAttack = true ∧ toRat (percEnv 0#64 0#64 3#64).envAttack = 0) ∧
    (toRat (sub64 0#64 (percEnv 0#64 0#64 3#64).tOn) = 0 ∧ isFinite (sub64 0#64 (percEnv 0#64 0#64 3#64).tOn) = true) ∧
    (toRat (sub64 0xBFE0000000000000#64 (percEnv 0#64 0#64 3#64).tOn) < 0 ∧
      isFinite (sub64 0xBFE0000000000000#64 (percEnv 0#64 0#64 3#64).tOn) = true) ∧
    (held (percEnv 0#64 one64 2#64) = false ∧ trig (percEnv 0#64 one64 2#64) = true ∧
      isFinite (percEnv 0#64 one64 2#64).tOff = true ∧ toRat 0x3FE0000000000000#64 < toRat (percEnv 0#64 one64 2#64).tOff ∧
      toRat (percEnv 0#64 one64 2#64).tOff ≤ toRat one64) ∧
    isFinite ({ percEnv 0#64 one64 2#64 with envRelease := 0#64 } : Regs Word).envRelease = true ∧
    toRat ({ percEnv 0#64 one64 2#64 with envRelease := 0#64 } : Regs Word).envRelease = 0 := by decide +kernel

theorem witness_SustainIsExact :
    trig (harmEnv 0#64 0#64 3#64) = true ∧ held (harmEnv 0#64 0#64 3#64) = true ∧ (harmEnv 0#64 0#64 3#64).ConfigInv ∧
    isFinite (sub64 0x3FAF3B645A1CAC08#64 (harmEnv 0#64 0#64 3#64).tOn) = true ∧
    isFinite (add64 (harmEnv 0#64 0#64 3#64).envAttack (harmEnv 0#64 0#64 3#64).envDecay) = true ∧
    toRat (add64 (harmEnv 0#64 0#64 3#64).envAttack (harmEnv 0#64 0#64 3#64).envDecay) <
      toRat (sub64 0x3FAF3B645A1CAC08#64 (harmEnv 0#64 0#64 3#64).tOn) ∧
    toRat floor64 < toRat (harmEnv 0#64 0#64 3#64).envSustain := by decide +kernel

theorem witness_ReleaseStartsExactlyAtSustain :
    trig (harmEnv 0#64 one64 2#64) = true ∧ held (harmEnv 0#64 one64 2#64) = false ∧ (harmEnv 0#64 one64 2#64).ConfigInv ∧
    isFinite (harmEnv 0#64 one64 2#64).tOff = true ∧ 0 < toRat (harmEnv 0#64 one64 2#64).envRelease ∧
    toRat floor64 < toRat (harmEnv 0#64 one64 2#64).envSustain := by decide +kernel

/-- HardwareOscillatorRanges, SquareIsPlusOrMinusOne: a finite phase. -/
theorem witness_HardwareOscillatorRanges : isFinite (numB64.phase 0#64 0#64 one64 0#64).val = true := by decide +kernel

/-- RealOscillatorRanges, OscillatorsArePeriodic, DigitalSawIsTheFlooredRamp: a draw at the end of its range and a
frequency above 0. -/
theorem witness_real_oscillator : |(-1 : ℝ)| ≤ 1 ∧ (0 : ℝ) < 1 / 4 ∧ Kind.digitalSaw ≠ .noise := by
  refine ⟨by norm_num, by norm_num, by decide⟩

/-- Both clauses on Square: a sine that is not 0, and one that is. -/
theorem witness_NegativeFrequency (undef : ℝ → ℝ → ℝ) :
    ((numReal undef).sine (1 / 4) 1 0 0).val ≠ 0 ∧ ((numReal undef).sine 0 1 0 0).val = 0 := by
  constructor
  · rw [numReal_sine, numReal_phase, show 2 * Real.pi * (1 / 4) * 1 + 0 * (1 / 4) * Real.sin (2 * Real.pi * 0 * 1)
      = Real.pi / 2 by ring, Real.sin_pi_div_two]
    norm_num
  · rw [numReal_sine, numReal_phase]; simp

/-- The values of the phase, whether the vibrato term is skipped or not, are among those of the full formula (R106). -/
theorem phaseOps_subset {f t vd vr v : Word} (h : v ∈ phaseOps f t vd vr) :
    v ∈ [mul64 twoPi64 f, mul64 (mul64 twoPi64 f) t, mul64 vd f, mul64 twoPi64 vr, mul64 (mul64 twoPi64 vr) t,
      sin64 (mul64 (mul64 twoPi64 vr) t), vibratoTerm f t vd vr,
      add64 (mul64 (mul64 twoPi64 f) t) (vibratoTerm f t vd vr)] := by
  unfold phaseOps phaseValue at h
  split_ifs at h
  · simp only [List.append_nil, List.mem_cons, List.mem_nil_iff, or_false] at h ⊢
    exact h.imp_right .inl
  · exact h

/-- A depth that is not 0; and depth 0 with every value of the phase finite, at a negative frequency. -/
theorem witness_NoVibratoPhase :
    (isFinite one64 = true ∧ toRat one64 ≠ 0) ∧ isFinite negOne64 = true ∧
    isFinite 0#64 = true ∧ toRat 0#64 = 0 ∧ ∀ v ∈ phaseOps negOne64 one64 0#64 0#64, isFinite v = true := by
  refine ⟨by decide +kernel, by decide, by decide, by decide +kernel, fun v h => ?_⟩
  have key : ([mul64 twoPi64 negOne64, mul64 (mul64 twoPi64 negOne64) one64, mul64 0#64 negOne64, mul64 twoPi64 0#64,
      mul64 (mul64 twoPi64 0#64) one64, sin64 (mul64 (mul64 twoPi64 0#64) one64),
      vibratoTerm negOne64 one64 0#64 0#64,
      add64 (mul64 (mul64 twoPi64 negOne64) one64) (vibratoTerm negOne64 one64 0#64 0#64)] : List Word).all
        isFinite = true := by decide +kernel
  exact List.all_eq_true.1 key v (phaseOps_subset h)

/-- An enabled DigitalSaw of positive frequency and an enabled AnalogSaw. -/
theorem witness_MixIsBoundedByTheWeights :
    (∀ k : Nat, |(fun _ => (1 : ℝ)) k| ≤ 1) ∧
    ∀ sl ∈ ({ realRegs 3#64 ⟨0xC#64, 1, 2, 0, 0⟩ with slot1 := ⟨0xB#64, 1, -2, 0, 0⟩ } : Regs ℝ).slotList,
      sl.en = true → sl.kind = some .digitalSaw → 0 < sl.mult * (realRegs 3#64 ⟨0xC#64, 1, 2, 0, 0⟩).freq := by
  refine ⟨fun _ => by norm_num, ?_⟩
  intro sl hsl
  simp only [realRegs, Regs.slotList, List.mem_cons, List.mem_nil_iff, or_false] at hsl
  rcases hsl with rfl | rfl | rfl | rfl
  · exact fun _ _ => by norm_num [realRegs]
  · exact fun _ h => absurd h (by simp [SlotRegs.kind, kindOfCode])
  all_goals exact fun h => absurd h (by simp [SlotRegs.en])

/-- OperationsRoundToNearestEven, OverflowThreshold, FmodIsExact, ComparisonsAndConstants: finite operands with finite
results, and two whose sum overflows. -/
theorem witness_arithmetic :
    isFinite one64 = true ∧ isFinite two64 = true ∧ toRat two64 ≠ 0 ∧ isFinite (add64 one64 two64) = true ∧
    isFinite (sub64 one64 two64) = true ∧ isFinite (mul64 one64 two64) = true ∧ isFinite (div64 one64 two64) = true ∧
    isFinite (add64 0x7FEFFFFFFFFFFFFF#64 0x7C90000000000000#64) = false ∧
    isFinite (add64 0x7FEFFFFFFFFFFFFF#64 0x7C8FFFFFFFFFFFFF#64) = true := by decide +kernel

theorem witness_SineAndArcsinePromises : isFinite negOne64 = true ∧ |toRat negOne64| ≤ 1 := by decide +kernel

/-- A literal of each sign of exponent. -/
theorem witness_LiteralsAreNearest :
    isFinite (ofDecimal false 1 308) = true ∧ isFinite (ofDecimal true 5 (-324)) = true := by decide +kernel

theorem witness_HardwareRefinesTheReference : ∀ d, Instr.rdReg .freq ≠ .sample d := by simp

/-- Program C's voice at the ends of R144's bounds: times and a weight just below 1e6, a duration of 0, a frequency of
1e-3 and three of 0. -/
def boundState : State :=
  { sawState with
    regs := { sawState.regs with
      slot0 := plainSlot 0xC#64 one64 0xC12E847C00000000#64
      freq := 0x3F50624DD2F1A9FC#64
      envAttack := 0#64
      tOn := 0xC12E847C00000000#64 } }

theorem boundState_withinBounds : WithinBounds boundState.regs 0x412E847C00000000#64 := by
  refine ⟨by decide +kernel, by decide +kernel, by decide +kernel, by decide +kernel, by decide +kernel,
    by decide +kernel, ?_⟩
  intro n
  cases n <;> decide +kernel

theorem boundState_sawGuard : SawGuard boundState.regs := by
  intro n
  cases n <;> decide +kernel

theorem witness_NoNonfinWithinTheBounds :
    ∃ (d : Word) (s : State), s.Inv ∧ WithinBounds s.regs d ∧ SawGuard s.regs :=
  ⟨_, boundState, by decide +kernel, boundState_withinBounds, boundState_sawGuard⟩

end Sys2Proof.Tests
end

section
/-! SUPPORT. When a rounded magnitude overflows (00_scope.md R11, log entry 1), and the statements about the arithmetic
operations, the remainder, the comparisons and the constants. -/

namespace Sys2Proof.Machine

/-! ### The overflow threshold -/

/-- From an odd pattern to its even successor rounding goes exactly from their midpoint on: the tie goes up. -/
theorem lt_roundOpen_iff_of_odd {num den p : Nat} (hd : 0 < den) (hp : p % 2 = 1) :
    p < roundOpen num den ↔ ((unitsOf p : ℚ) + unitsOf (p + 1)) / 2 ≤ (num : ℚ) / den := by
  have hup : (unitsOf p : ℚ) < unitsOf (p + 1) := by exact_mod_cast unitsOf_lt_succ p
  constructor
  · intro h
    have hR : (unitsOf (p + 1) : ℚ) ≤ unitsOf (roundOpen num den) := by exact_mod_cast unitsOf_le.2 h
    have hn := roundOpen_nearest num den hd p
    by_contra hlt
    rw [not_le] at hlt
    rw [abs_of_nonneg (by linarith)] at hn
    rcases abs_cases ((unitsOf p : ℚ) - (num : ℚ) / den) with ⟨ha, -⟩ | ⟨ha, -⟩ <;> linarith
  · intro h
    by_contra hle
    rw [not_lt] at hle
    have hR : (unitsOf (roundOpen num den) : ℚ) ≤ unitsOf p := by exact_mod_cast unitsOf_le.2 hle
    have hn := roundOpen_nearest num den hd (p + 1)
    rw [abs_of_nonpos (by linarith)] at hn
    rcases abs_cases ((unitsOf (p + 1) : ℚ) - (num : ℚ) / den) with ⟨ha, -⟩ | ⟨ha, -⟩
    · -- only a tie with `p` itself is left, and `p` is odd
      have hpR : unitsOf (roundOpen num den) = unitsOf p := by
        have : (unitsOf (roundOpen num den) : ℚ) = unitsOf p := by linarith
        exact_mod_cast this
      have heven := roundOpen_tie_even num den hd (p + 1) (by omega)
        (by rw [abs_of_nonpos (by linarith)]; linarith)
      rw [unitsOf_inj.1 hpR] at heven
      omega
    · linarith

/-- The midpoint between the largest finite magnitude and `2^1024`, in units of 2^-1074. -/
theorem overflow_midpoint :
    ((unitsOf (infMag - 1) : ℚ) + unitsOf infMag) / 2 = (2 ^ 1024 - 2 ^ 970) * 2 ^ 1074 := by
  have h1 : unitsOf (infMag - 1) = (2 ^ 53 - 1) * 2 ^ 2045 := by
    rw [show infMag - 1 = 2045 * 2 ^ 52 + (2 ^ 53 - 1) from rfl]
    exact unitsOf_pattern (Nat.sub_le _ _) fun _ => by norm_num
  have h2 : unitsOf infMag = 2 ^ 53 * 2 ^ 2045 := by
    rw [show infMag = 2045 * 2 ^ 52 + 2 ^ 53 from rfl]
    exact unitsOf_pattern le_rfl fun _ => by norm_num
  have e1 : (2 : ℚ) ^ 2045 = 2 * 2 ^ 970 * 2 ^ 1074 := by rw [← pow_succ', ← pow_add]
  have e2 : (2 : ℚ) ^ 1024 = 2 ^ 54 * 2 ^ 970 := by rw [← pow_add]
  rw [h1, h2, Nat.cast_mul, Nat.cast_mul, Nat.cast_pow 2 2045, Nat.cast_ofNat, e1, e2]
  generalize (2 : ℚ) ^ 970 = a
  generalize (2 : ℚ) ^ 1074 = b
  push_cast
  ring

/-- A rounded result is an infinity exactly from the overflow threshold on. -/
theorem isFinite_roundTo_eq_false_iff {neg : Bool} {num den : Nat} (hd : 0 < den) :
    isFinite (roundTo neg num den) = false ↔ (2 : ℚ) ^ 1024 - 2 ^ 970 ≤ |exactValue neg num den| := by
  have hmid := lt_roundOpen_iff_of_odd (num := num) hd (p := infMag - 1) (by decide)
  rw [show infMag - 1 + 1 = infMag from rfl, overflow_midpoint] at hmid
  rw [← Bool.not_eq_true, isFinite_roundTo, not_lt, abs_exactValue, le_div_iff₀ (pow_pos two_pos _), ← hmid, infMag]
  omega

theorem overflow_threshold_pos : (0 : ℚ) < 2 ^ 1024 - 2 ^ 970 :=
  sub_pos.2 (pow_lt_pow_right₀ one_lt_two (by norm_num))

theorem add64_overflow_iff {x y : Word} (hx : isFinite x = true) (hy : isFinite y = true) :
    isFinite (add64 x y) = false ↔ (2 : ℚ) ^ 1024 - 2 ^ 970 ≤ |toRat x + toRat y| := by
  rcases add64_cases hx hy with ⟨h0, h⟩ | ⟨h0, h⟩
  · rw [h, h0, abs_zero, isFinite_zero]
    exact iff_of_false Bool.noConfusion (not_le.2 overflow_threshold_pos)
  · rw [h, ← h0]
    exact isFinite_roundTo_eq_false_iff Nat.one_pos

theorem sub64_overflow_iff {x y : Word} (hx : isFinite x = true) (hy : isFinite y = true) :
    isFinite (sub64 x y) = false ↔ (2 : ℚ) ^ 1024 - 2 ^ 970 ≤ |toRat x - toRat y| := by
  rw [sub64, add64_overflow_iff hx ((isFinite_neg64 y).trans hy), toRat_neg64, ← sub_eq_add_neg]

theorem mul64_overflow_iff {x y : Word} (hx : isFinite x = true) (hy : isFinite y = true) :
    isFinite (mul64 x y) = false ↔ (2 : ℚ) ^ 1024 - 2 ^ 970 ≤ |toRat x * toRat y| := by
  rw [mul64_eq hx hy, isFinite_roundTo_eq_false_iff (pow_pos two_pos _), mul_exact]

theorem div64_overflow_iff {x y : Word} (hx : isFinite x = true) (hy : isFinite y = true) (h0 : toRat y ≠ 0) :
    isFinite (div64 x y) = false ↔ (2 : ℚ) ^ 1024 - 2 ^ 970 ≤ |toRat x / toRat y| := by
  rw [div64_eq hx hy h0, isFinite_roundTo_eq_false_iff (magUnits_pos h0), div_exact]

/-- Settles O54: each operation is a rounding of the exact result, and a rounding overflows from the midpoint on. -/
theorem overflowThreshold : Obligations.OverflowThreshold := by
  unfold Obligations.OverflowThreshold
  intro x y hx hy
  exact ⟨add64_overflow_iff hx hy, sub64_overflow_iff hx hy, mul64_overflow_iff hx hy, div64_overflow_iff hx hy⟩

/-- Settles O53: each operation on finite operands is the rounding of its exact result. -/
theorem operationsRoundToNearestEven : Obligations.OperationsRoundToNearestEven := by
  unfold Obligations.OperationsRoundToNearestEven
  intro x y hx hy
  exact ⟨add64_nearest hx hy, sub64_nearest hx hy, mul64_nearest hx hy, div64_nearest hx hy⟩

/-! ### The truncated remainder -/

/-- The integer part towards zero of a signed quotient of magnitudes is the signed quotient of the integers. -/
theorem trunc_signFactor_mul_div (s : Bool) (a b : Nat) :
    (if 0 ≤ signFactor s * ((a : ℚ) / b) then (⌊signFactor s * ((a : ℚ) / b)⌋ : ℚ)
      else (⌈signFactor s * ((a : ℚ) / b)⌉ : ℚ)) = signFactor s * ((a / b : Nat) : ℚ) := by
  have hq : (0 : ℚ) ≤ (a : ℚ) / b := by positivity
  have hfloor : ⌊(a : ℚ) / b⌋ = ((a / b : Nat) : ℤ) := by
    rw [Rat.floor_natCast_div_natCast, Int.natCast_div]
  cases s with
  | false => rw [signFactor, if_neg Bool.false_ne_true, one_mul, one_mul, if_pos hq, hfloor, Int.cast_natCast]
  | true =>
    rcases hq.eq_or_lt with h0 | hpos
    · have hn : a / b = 0 := by rw [← h0, Int.floor_zero] at hfloor; exact_mod_cast hfloor.symm
      simp [← h0, hn]
    · simp only [signFactor, if_true, neg_one_mul]
      rw [if_neg (by linarith), Int.ceil_neg, hfloor, Int.cast_neg, Int.cast_natCast]

/-- A quotient of values is the signed quotient of the magnitudes. -/
theorem toRat_div_toRat (x p : Word) :
    toRat x / toRat p = signFactor (signBit x != signBit p) * ((magUnits x : ℚ) / magUnits p) := by
  rw [toRat_eq, toRat_eq, signFactor_div, magUnits, magUnits, div_div_div_cancel_right₀ (pow_ne_zero _ two_ne_zero)]
  exact mul_div_mul_comm _ _ _ _

/-- Settles O55: the magnitude of `fmod` is the remainder of the magnitudes, and its sign that of the first operand. -/
theorem fmodIsExact : Obligations.FmodIsExact := by
  unfold Obligations.FmodIsExact
  intro x p hx hp h0
  obtain ⟨hmag, hsign, hfin⟩ := fmod64_parts hx hp h0
  refine ⟨hfin, hsign, ?_⟩
  have hdiv : (magUnits p : ℚ) * ((magUnits x / magUnits p : Nat) : ℚ) + ((magUnits x % magUnits p : Nat) : ℚ) =
      magUnits x := by exact_mod_cast Nat.div_add_mod (magUnits x) (magUnits p)
  have hsq : signFactor (signBit p) * signFactor (signBit p) = 1 := by cases signBit p <;> simp [signFactor]
  have hval : ∀ d, toRat d = signFactor (signBit d) * magUnits d / 2 ^ 1074 := toRat_eq
  rw [toRat_div_toRat, trunc_signFactor_mul_div, hval (fmod64 x p), hval x, hval p, hsign, hmag, signFactor_xor, ← hdiv]
  generalize (2 : ℚ) ^ 1074 = u
  linear_combination (signFactor (signBit x) * magUnits p * ((magUnits x / magUnits p : Nat) : ℚ) / u) * hsq

/-! ### Comparisons and constants -/

theorem toRat_two64 : toRat two64 = 2 := by decide +kernel

/-- `FLOOR` is the rounding of 1e-4 (R101). -/
theorem floor64_nearest : IsNearestEven (1 / 10000) floor64 := by
  have hfloor : floor64 = roundTo false (2 ^ 1074) 10000 := by decide +kernel
  have hexact : exactValue false (2 ^ 1074) 10000 = 1 / 10000 := by
    rw [exactValue, signFactor, Nat.cast_pow, Nat.cast_ofNat]
    generalize hu : ((2 : ℕ) : ℚ) ^ 1074 = u
    have hu0 : u ≠ 0 := hu ▸ pow_ne_zero _ two_ne_zero
    field_simp
    norm_num
  rw [← hexact, hfloor]
  exact roundTo_isNearestEven (by norm_num) (hfloor ▸ isFinite_floor64)

/-- Settles O56: the comparisons are those of the values, and the constants are evaluated. -/
theorem comparisonsAndConstants : Obligations.ComparisonsAndConstants := by
  unfold Obligations.ComparisonsAndConstants
  exact ⟨fun x y hx hy => ⟨le64_iff hx hy, lt64_iff hx hy⟩, numB64_twoPi, numB64_twoOverPi, numB64_halfPi, toRat_one64,
    toRat_two64, floor64_nearest⟩

end Sys2Proof.Machine
end

section
/-! SUPPORT. The ranges of the hardware's sine, arcsine and draws (00_scope.md R12, R22; 41_oscillator.md R116). -/

namespace Sys2Proof.Machine

/-! ### Ranges by comparison -/

/-- Lying between `-b` and `b` by the comparisons is being a number of magnitude at most `b`. -/
theorem between_neg64_iff {b : Word} (hb : isFinite b = true) (d : Word) :
    (le64 (neg64 b) d && le64 d b) = true ↔ isFinite d = true ∧ |toRat d| ≤ toRat b := by
  have hnb : isFinite (neg64 b) = true := (isFinite_neg64 b).trans hb
  constructor
  · intro h
    have hv : |toRat d| ≤ toRat b := by
      simp only [le64, Bool.and_eq_true, decide_eq_true_eq, scaled_le_iff, toRat_neg64] at h
      obtain ⟨⟨-, hlo⟩, -, hhi⟩ := h
      exact abs_le.2 ⟨hlo, hhi⟩
    have hm := (abs_toRat_le_iff d b).1 (hv.trans (le_abs_self _))
    exact ⟨(isFinite_iff d).2 (lt_of_le_of_lt hm ((isFinite_iff b).1 hb)), hv⟩
  · rintro ⟨hd, hv⟩
    rw [Bool.and_eq_true, le64_iff hnb hd, le64_iff hd hb, toRat_neg64]
    exact abs_le.1 hv

theorem inUnit_iff (d : Word) : inUnit d = true ↔ isFinite d = true ∧ |toRat d| ≤ 1 := by
  rw [inUnit, show negOne64 = neg64 one64 by decide, between_neg64_iff isFinite_one64, toRat_one64]

theorem isFinite_halfPi64 : isFinite halfPi64 = true := by decide

theorem inHalfPi_iff (d : Word) : inHalfPi d = true ↔ isFinite d = true ∧ |toRat d| ≤ toRat halfPi64 :=
  between_neg64_iff isFinite_halfPi64 d

theorem toRat_halfPi64_nonneg : 0 ≤ toRat halfPi64 := toRat_nonneg_of_signBit (by decide)

/-! ### Sine, arcsine and draws -/

/-- S1: on finite operands the sine is a number in [-1, 1] (R12). -/
theorem sin64_bounds {x : Word} (hx : isFinite x = true) : isFinite (sin64 x) = true ∧ |toRat (sin64 x)| ≤ 1 := by
  rw [sin64, if_pos hx]
  split_ifs with h0 hraw
  · exact ⟨hx, by rw [(toRat_eq_zero_iff x).2 h0]; norm_num⟩
  · rw [Bool.and_eq_true] at hraw
    exact (inUnit_iff _).1 hraw.2
  · exact ⟨isFinite_zero64, by rw [toRat_zero64]; norm_num⟩

/-- The fixed values of the arcsine are numbers in [-PI/TWO, PI/TWO] (A2 agrees with A1). -/
theorem asinFixed_bounds {y v : Word} (h : asinFixed y = some v) :
    isFinite v = true ∧ |toRat v| ≤ toRat halfPi64 := by
  unfold asinFixed at h
  split_ifs at h with h0 h1 h2 <;> cases h
  · exact ⟨(isFinite_iff y).2 (h0 ▸ by decide), by rw [(toRat_eq_zero_iff y).2 h0, abs_zero]; exact toRat_halfPi64_nonneg⟩
  · exact ⟨isFinite_halfPi64, (abs_of_nonneg toRat_halfPi64_nonneg).le⟩
  · exact ⟨by decide, by rw [toRat_neg64, abs_neg, abs_of_nonneg toRat_halfPi64_nonneg]⟩

/-- A1: on [-1, 1] the arcsine is a number of magnitude at most `PI/TWO` (R12). -/
theorem asin64_bounds {y : Word} (hy : isFinite y = true) (h1 : |toRat y| ≤ 1) :
    isFinite (asin64 y) = true ∧ |toRat (asin64 y)| ≤ toRat halfPi64 := by
  unfold asin64
  split
  · next v hv => exact asinFixed_bounds hv
  · rw [if_pos ((inUnit_iff y).2 ⟨hy, h1⟩)]
    split_ifs with hraw
    · rw [Bool.and_eq_true] at hraw
      exact (inHalfPi_iff _).1 hraw.2
    · exact ⟨isFinite_zero64, by rw [toRat_zero64, abs_zero]; exact toRat_halfPi64_nonneg⟩

theorem div64_pi_two : div64 pi64 two64 = halfPi64 := by
  rw [← numB64_halfPi, Arith.halfPi, numB64_div, numB64_pi, numB64_two]

/-- Settles O57: the ranges hold by construction, and the fixed points are evaluated. -/
theorem sineAndArcsinePromises : Obligations.SineAndArcsinePromises := by
  unfold Obligations.SineAndArcsinePromises
  rw [div64_pi_two]
  exact ⟨fun x => sin64_bounds, by decide, by decide, fun y => asin64_bounds, by decide, by decide, by decide, by decide⟩

/-- A draw is a number in [-1, 1], whatever the raw bits (R22). -/
theorem toDraw_bounds (d : Word) : isFinite (toDraw d) = true ∧ |toRat (toDraw d)| ≤ 1 := by
  rw [toDraw]
  split_ifs with h
  · exact (inUnit_iff d).1 h
  · exact ⟨isFinite_zero64, by rw [toRat_zero64]; norm_num⟩

/-- Scaling an arcsine by `TWO_OVER_PI` stays in [-1, 1]: `HALF_PI * TWO_OVER_PI` rounds to 1 (R116). -/
theorem mul64_twoOverPi_bounds {a : Word} (ha : isFinite a = true) (h : |toRat a| ≤ toRat halfPi64) :
    isFinite (mul64 a twoOverPi64) = true ∧ |toRat (mul64 a twoOverPi64)| ≤ 1 := by
  have hfin : isFinite twoOverPi64 = true := by decide
  have hpeak : mul64 halfPi64 twoOverPi64 = one64 := by decide +kernel
  have hm : magBits (mul64 a twoOverPi64) ≤ magBits one64 := by
    rw [← hpeak]
    exact abs_mul64_mono ha hfin isFinite_halfPi64 hfin ((abs_toRat_le_iff _ _).1 (h.trans (le_abs_self _))) le_rfl
  refine ⟨(isFinite_iff _).2 (lt_of_le_of_lt hm (by decide)), ?_⟩
  calc |toRat (mul64 a twoOverPi64)| ≤ |toRat one64| := (abs_toRat_le_iff _ _).2 hm
    _ = 1 := by rw [toRat_one64, abs_one]

theorem numB64_triangle_val (f t vd vr : Word) :
    (numB64.triangle f t vd vr).val = mul64 (asin64 (sin64 (numB64.phase f t vd vr).val)) twoOverPi64 := by
  rw [← numB64_twoOverPi]; rfl

/-- Settles O45: from the promises of the sine and the arcsine, and from the construction of the draws. -/
theorem hardwareOscillatorRanges : Obligations.HardwareOscillatorRanges := by
  unfold Obligations.HardwareOscillatorRanges
  refine ⟨fun f t vd vr hph => ?_, fun s k => toDraw_bounds _⟩
  obtain ⟨hsf, hs1⟩ := sin64_bounds hph
  obtain ⟨haf, ha1⟩ := asin64_bounds hsf hs1
  rw [numB64_triangle_val]
  exact ⟨hsf, hs1, mul64_twoOverPi_bounds haf ha1⟩

end Sys2Proof.Machine
end

section
/-! SUPPORT. The statements about a `SAMPLE` that raises no fault (43_sample_scaler.md R138), and about a step of a run. -/

namespace Sys2Proof.Machine

/-! ### A SAMPLE without a fault -/

/-- Without a fault the registers stay as they are. -/
theorem sampleLegal_regs_of_clean {d : Word} {s : State} (h : SampleClean s d) : (sampleLegal d s).regs = s.regs := by
  obtain ⟨hd, hn⟩ := sample_faults_of_clean h
  rw [sampleLegal_regs, hd, hn]
  rfl

theorem sampleLegal_freeCount_of_clean {d : Word} {s : State} (h : SampleClean s d) :
    (sampleLegal d s).freeCount = s.freeCount := by
  obtain ⟨hd, hn⟩ := sample_faults_of_clean h
  rw [sampleLegal_freeCount, hd, hn]
  rfl

/-- The output is that of the pseudocode, under the guard of R175. -/
theorem numB64_sample_out {r : Regs Word} (t : Word) (draw : Nat → Word) (hg : SawGuard r) :
    (numB64.sample r t draw).out = outValue r t draw := by
  rw [sample_out, numB64_envAmp, (numB64_mix hg).1, numB64_clamp]
  rfl

/-- Settles O24: the answer is the output computed, which is the pseudocode's, function by function. -/
theorem cleanSampleResponds : Obligations.CleanSampleResponds := by
  unfold Obligations.CleanSampleResponds
  intro d s hd hc
  refine ⟨sampleLegal d s, exec_sample hd s, sampleLegal_regs_of_clean hc, sampleLegal_freeCount_of_clean hc, ?_,
    congrArg Calc.val (numB64_envAmp s.regs d), (numB64_mix hc.1).1⟩
  rw [sampleLegal_rpResp, sampleAnswer_of_clean hc, sampleCalc, numB64_sample_out d s.drawAt hc.1]

/-- A finite product with a factor of value 0 has value 0. -/
theorem toRat_mul64_of_left_zero {x y : Word} (hf : isFinite (mul64 x y) = true) (h0 : toRat x = 0) :
    toRat (mul64 x y) = 0 := by
  obtain ⟨hx, hy⟩ := isFinite_of_mul64 hf
  have hn := mul64_nearest hx hy hf
  rw [h0, zero_mul] at hn
  rw [hn.eq_of_eq isFinite_zero64 toRat_zero64.symm, toRat_zero64]

/-- The output of a finite sample is a zero where the envelope is (R93): each stage keeps the value 0. -/
theorem toRat_sample_out_of_env_zero {r : Regs Word} {t : Word} {draw : Nat → Word}
    (hf : isFinite (numB64.sample r t draw).out = true)
    (hv : isFinite (mul64 (numB64.envAmp r t).val (numB64.mix r t draw).mix) = true)
    (h0 : toRat (numB64.envAmp r t).val = 0) : toRat (numB64.sample r t draw).out = 0 := by
  have hv0 := toRat_mul64_of_left_zero hv h0
  rw [sample_out, numB64_mul, numB64_mul, clamp_of_abs_le hv (by rw [hv0]; norm_num)] at hf ⊢
  exact toRat_mul64_of_left_zero hf hv0

/-- Settles O35: while `TRIG` is 0 the envelope is 0, and a product and a clamp keep a zero. -/
theorem silentUntilTriggered : Obligations.SilentUntilTriggered := by
  unfold Obligations.SilentUntilTriggered
  intro d s hd htrig hc
  have hout : isFinite (sampleCalc d s).out = true := isFinite_of_seen hc.2 (by rw [sample_seen]; simp)
  have hv : isFinite (mul64 (numB64.envAmp s.regs d).val (numB64.mix s.regs d s.drawAt).mix) = true :=
    isFinite_of_seen hc.2 (by rw [sample_seen]; simp)
  have henv : toRat (numB64.envAmp s.regs d).val = 0 := by
    rw [envAmp_of_not_trig numB64 s.regs d htrig]; exact toRat_zero64
  refine ⟨sampleLegal d s, (sampleCalc d s).out, exec_sample hd s, ?_, hout, toRat_sample_out_of_env_zero hout hv henv⟩
  rw [sampleLegal_rpResp, sampleAnswer_of_clean hc]

/-- Settles O10: the turn is a port's, so the step runs the word, and the word decodes to the command. -/
theorem stepRunsTheDecodedCommand : Obligations.StepRunsTheDecodedCommand := by
  unfold Obligations.StepRunsTheDecodedCommand
  intro s p w rest i hturn hqueue hdecode
  rw [step_of_port hturn hqueue, runWord_ok hdecode]

end Sys2Proof.Machine
end

section
/-! SUPPORT. Reading the registers as exact real numbers commutes with every command but `SAMPLE`
(00_scope.md R10, 20_memory.md R55, 42_voice_mixer.md R125). -/

namespace Sys2Proof.Machine

/-! ### Registers with every value mapped -/

section
variable {V W : Type} (f : V → W)

theorem Regs.raise_map (r : Regs V) (x : FaultBit) : (r.map f).raise x = (r.raise x).map f := rfl

theorem Regs.noteOn_map (r : Regs V) (v : V) : (r.map f).noteOn (f v) = (r.noteOn v).map f := rfl

theorem Regs.noteOff_map (r : Regs V) (v : V) : (r.map f).noteOff (f v) = (r.noteOff v).map f := rfl

theorem Regs.slot_map (r : Regs V) (n : SlotNo) : (r.map f).slot n = (r.slot n).map f := by cases n <;> rfl

theorem Regs.setSlot_map (r : Regs V) (n : SlotNo) (sl : SlotRegs V) :
    (r.map f).setSlot n (sl.map f) = (r.setSlot n sl).map f := by cases n <;> rfl

theorem SlotRegs.write_map (g : Word → V) (sl : SlotRegs V) (k : SlotField) (d : Word) :
    (sl.map f).write (fun w => f (g w)) k d = (sl.write g k d).map f := by cases k <;> rfl

/-- Writing the mapped value into the mapped registers is mapping the registers written (R56). -/
theorem Regs.write_map (g : Word → V) (r : Regs V) (i : Reg) (d : Word) :
    (r.map f).write (fun w => f (g w)) i d = (r.write g i d).map f := by
  cases i with
  | slot n k =>
    show (r.map f).setSlot n (((r.map f).slot n).write _ k d) = (r.setSlot n ((r.slot n).write g k d)).map f
    rw [Regs.slot_map, SlotRegs.write_map, Regs.setSlot_map]
  | _ => rfl

end

/-! ### The values of patterns in the two instantiations -/

/-- The reference's value of a pattern is the real number the hardware's stands for (R10, R11, R18). -/
theorem numReal_val_eq (undef : ℝ → ℝ → ℝ) (d : Word) : (numReal undef).val d = toReal (numB64.val d) := by
  by_cases h : isFinite d = true
  · rw [numReal_val undef h, val_of_isFinite h]
  · have h0 : toReal zero64 = 0 := by rw [toReal_eq, toRat_zero64, Rat.cast_zero]
    rw [Arith.val, Arith.val, numReal, numB64]
    simp only [if_neg h, Option.getD_none, h0]

theorem numReal_val_eq_comp (undef : ℝ → ℝ → ℝ) : (numReal undef).val = fun d => toReal (numB64.val d) :=
  funext (numReal_val_eq undef)

/-- Loading a preset commutes with reading the registers as real numbers (R125, R127). -/
theorem loadVoice_map (undef : ℝ → ℝ → ℝ) (r : Regs Word) (v : Voice) :
    (numReal undef).loadVoice (r.map toReal) v = (numB64.loadVoice r v).map toReal := by
  have h0 : (numReal undef).zero = toReal numB64.zero := by
    rw [numReal_zero, numB64_zero, toReal_eq, toRat_zero64, Rat.cast_zero]
  rw [Arith.loadVoice, h0, numReal_val_eq_comp]
  rfl

/-- What a register reads as stands for what the real registers read as (R55). -/
theorem answerReal_regRead (r : Regs Word) (g : Reg) : answerReal g (regRead r g) = (r.map toReal).read g := by
  cases g with
  | slot n k =>
    rw [Regs.read, Regs.slot_map]
    cases k <;> rfl
  | _ => rfl

/-! ### The commands that answer nothing -/

/-- An ill-formed command that answers nothing sets `ILL` in the reference too (R85). -/
theorem execReal_of_not_wellFormed (fr : RealFree) {i : Instr} (hs : ∀ d, i ≠ .sample d) (h : i.wellFormed = false)
    (r : Regs ℝ) : execReal fr i r = (r.raise .ill, none) := by
  have hne : ∀ {b : Bool}, b = false → ¬b = true := fun hb => by rw [hb]; exact Bool.false_ne_true
  cases i with
  | noteOn d => exact if_neg (hne h)
  | noteOff d => exact if_neg (hne h)
  | setFreq d => exact if_neg (hne h)
  | wrCfg g d => exact if_neg (hne h)
  | sample d => exact absurd rfl (hs d)
  | nop => cases h
  | ldPreset p => cases h
  | rdReg g => cases h

/-- A legal command that answers nothing changes registers only, and reading them as real numbers commutes with it. -/
theorem exec_execReal_of_wellFormed (fr : RealFree) {i : Instr} (s : State) (hs : ∀ d, i ≠ .sample d)
    (hr : ∀ g, i ≠ .rdReg g) (hw : i.wellFormed = true) :
    ∃ r, exec i s = .next { s with regs := r } ∧ execReal fr i (s.regs.map toReal) = (r.map toReal, none) := by
  cases i with
  | nop => exact ⟨s.regs, rfl, rfl⟩
  | noteOn d =>
    refine ⟨s.regs.noteOn d, exec_noteOn hw s, (if_pos hw).trans ?_⟩
    rw [numReal_val _ hw, Regs.noteOn_map]
  | noteOff d =>
    refine ⟨s.regs.noteOff d, exec_noteOff hw s, (if_pos hw).trans ?_⟩
    rw [numReal_val _ hw, Regs.noteOff_map]
  | setFreq d =>
    refine ⟨{ s.regs with freq := d }, exec_setFreq hw s, (if_pos hw).trans ?_⟩
    rw [numReal_val _ hw]
    rfl
  | ldPreset p =>
    refine ⟨numB64.loadVoice s.regs (presetVoice p), exec_ldPreset p s, ?_⟩
    rw [← loadVoice_map fr.undefinedSaw]
    rfl
  | wrCfg g d =>
    obtain ⟨hg, hd⟩ := (Bool.and_eq_true _ _).mp hw
    refine ⟨s.regs.write numB64.val g d, exec_wrCfg hg hd s, (if_pos hw).trans ?_⟩
    rw [numReal_val_eq_comp, Regs.write_map]
  | sample d => exact absurd rfl (hs d)
  | rdReg g => exact absurd rfl (hr g)

/-- The same for every command that answers nothing, legal or not. -/
theorem exec_execReal_of_silent (fr : RealFree) {i : Instr} (s : State) (hs : ∀ d, i ≠ .sample d)
    (hr : ∀ g, i ≠ .rdReg g) :
    ∃ r, exec i s = .next { s with regs := r } ∧ execReal fr i (s.regs.map toReal) = (r.map toReal, none) := by
  cases hw : i.wellFormed with
  | true => exact exec_execReal_of_wellFormed fr s hs hr hw
  | false =>
    refine ⟨s.regs.raise .ill, ?_, by rw [execReal_of_not_wellFormed fr hs hw, Regs.raise_map]⟩
    rw [exec_of_not_wellFormed hw]
    cases i with
    | sample d => exact absurd rfl (hs d)
    | _ => rfl

/-- Settles O59: `RD_REG` answers what stands for the reference's answer and changes no register; every other command
but `SAMPLE` answers nothing and commutes. -/
theorem hardwareRefinesTheReference : Obligations.HardwareRefinesTheReference := by
  unfold Obligations.HardwareRefinesTheReference
  intro fr i s hs
  by_cases hr : ∃ g, i = .rdReg g
  · obtain ⟨g, rfl⟩ := hr
    refine ⟨_, exec_rdReg g s, rfl, rfl, fun r hr => ?_, fun hne => absurd rfl (hne g)⟩
    cases hr
    exact ⟨regRead s.regs g, rfl, congrArg some (answerReal_regRead s.regs g).symm, answerReal_regRead s.regs g⟩
  · rw [not_exists] at hr
    obtain ⟨r, hexec, hreal⟩ := exec_execReal_of_silent fr s hs hr
    exact ⟨_, hexec, congrArg Prod.fst hreal, rfl, fun g hg => absurd hg (hr g), fun _ => ⟨rfl, congrArg Prod.snd hreal⟩⟩

end Sys2Proof.Machine
end

section
/-! SUPPORT. The state invariant of 10_state.md R47: it holds at reset, and every command, every illegal word and every
step keeps it. The law of each update of the registers is cited, or stated here where it is missing. -/

namespace Sys2Proof.Machine

/-! ### The updates of the registers -/

/-- The invariant speaks of the registers alone (R47, R185). -/
theorem State.Inv.of_regs_eq {s t : State} (h : s.Inv) (e : t.regs = s.regs) : t.Inv := by
  rw [State.Inv, e]
  exact h

/-- The values of R51 are in their ranges. -/
theorem Regs.reset_inv : Regs.reset.Inv := by decide +kernel

theorem Regs.Inv.noteOn {r : Regs Word} (h : r.Inv) {d : Word} (hd : isFinite d = true) : (r.noteOn d).Inv := by
  obtain ⟨hconfig, ⟨-, hoff, hfreq⟩, hflags, hrest⟩ := h
  exact ⟨hconfig, ⟨hd, hoff, hfreq⟩, flagsInv_noteOn hflags, hrest⟩

theorem Regs.Inv.noteOff {r : Regs Word} (h : r.Inv) {d : Word} (hd : isFinite d = true) : (r.noteOff d).Inv := by
  obtain ⟨hconfig, ⟨hon, -, hfreq⟩, hflags, hrest⟩ := h
  exact ⟨hconfig, ⟨hon, hd, hfreq⟩, flagsInv_noteOff hflags, hrest⟩

theorem Regs.Inv.setFreq {r : Regs Word} (h : r.Inv) {d : Word} (hd : isFinite d = true) :
    ({ r with freq := d } : Regs Word).Inv := by
  obtain ⟨hconfig, ⟨hon, hoff, -⟩, hrest⟩ := h
  exact ⟨hconfig, ⟨hon, hoff, hd⟩, hrest⟩

theorem Regs.Inv.afterSample {r : Regs Word} (h : r.Inv) (dsaw nonfin : Bool) : (r.afterSample dsaw nonfin).Inv :=
  (h.raiseIf dsaw .dsaw).raiseIf nonfin .nonfin

/-! ### Commands, words and steps -/

theorem State.Inv.illegal {s : State} (h : s.Inv) : s.illegal.Inv := Regs.Inv.raise h .ill

theorem State.Inv.illegalAnswered {s : State} (h : s.Inv) (p : Port) : (s.illegalAnswered p).Inv :=
  h.illegal.of_regs_eq (State.respond_regs s.illegal p _)

/-- An ill-formed command only raises `ILL` (R85). -/
theorem exec_keeps_inv_of_not_wellFormed {i : Instr} (hw : i.wellFormed = false) {s : State} (h : s.Inv) :
    ∃ t, exec i s = .next t ∧ t.Inv := by
  refine ⟨_, exec_of_not_wellFormed hw s, ?_⟩
  split
  · exact h.illegalAnswered .rp
  · exact h.illegal

theorem exec_keeps_inv_of_wellFormed {i : Instr} (hw : i.wellFormed = true) {s : State} (h : s.Inv) :
    ∃ t, exec i s = .next t ∧ t.Inv := by
  cases i with
  | nop => exact ⟨s, exec_nop s, h⟩
  | noteOn d => exact ⟨_, exec_noteOn hw s, Regs.Inv.noteOn h hw⟩
  | noteOff d => exact ⟨_, exec_noteOff hw s, Regs.Inv.noteOff h hw⟩
  | setFreq d => exact ⟨_, exec_setFreq hw s, Regs.Inv.setFreq h hw⟩
  | sample d => exact ⟨_, exec_sample hw s, Regs.Inv.afterSample h _ _⟩
  | ldPreset p => exact ⟨_, exec_ldPreset p s, Regs.Inv.loadVoice h p⟩
  | wrCfg g d =>
    obtain ⟨hg, hd⟩ := (Bool.and_eq_true _ _).mp hw
    exact ⟨_, exec_wrCfg hg hd s, Regs.Inv.write h hd⟩
  | rdReg g => exact ⟨_, exec_rdReg g s, h⟩

theorem exec_keeps_inv (i : Instr) {s : State} (h : s.Inv) : ∃ t, exec i s = .next t ∧ t.Inv := by
  cases hw : i.wellFormed with
  | true => exact exec_keeps_inv_of_wellFormed hw h
  | false => exact exec_keeps_inv_of_not_wellFormed hw h

theorem illegalWord_keeps_inv (p : Port) (w : CmdWord) {s : State} (h : s.Inv) : (illegalWord p w s).Inv := by
  unfold illegalWord
  split
  · exact h.illegalAnswered p
  · exact h.illegal

/-- A word keeps the invariant, whether it decodes to a command or is illegal (R78, R85). -/
theorem runWord_keeps_inv (p : Port) (w : CmdWord) {s : State} (h : s.Inv) : ∃ t, runWord p w s = .next t ∧ t.Inv := by
  cases hd : decode p w with
  | ok i =>
    rw [runWord_ok hd]
    exact exec_keeps_inv i h
  | error e => exact ⟨_, runWord_error hd s, illegalWord_keeps_inv p w h⟩

theorem step_keeps_inv {s : State} (h : s.Inv) : ∃ t, step s = .next t ∧ t.Inv := by
  obtain ⟨-, hs⟩ | ⟨a, b, -, hs⟩ | ⟨p, -, -, hs⟩ | ⟨p, w, rest, -, -, hs⟩ := step_cases s
  · exact ⟨s, hs, h⟩
  · exact ⟨_, hs, Regs.reset_inv⟩
  · exact ⟨_, hs, h⟩
  · rw [hs]
    exact runWord_keeps_inv p w (h.of_regs_eq (State.setQueue_regs (takeTurn s) p rest))

/-- Settles O31: idle, reset, a turn with nothing to do and one word each keep the invariant. -/
theorem stepKeepsTheStateInvariant : Obligations.StepKeepsTheStateInvariant := by
  unfold Obligations.StepKeepsTheStateInvariant
  intro s t h hst
  obtain ⟨t', hst', ht'⟩ := step_keeps_inv h
  rw [hst] at hst'
  cases hst'
  exact ht'

/-- Settles O32: the invariant of the reset registers. -/
theorem resetMeetsTheStateInvariant : Obligations.ResetMeetsTheStateInvariant := Regs.reset_inv

end Sys2Proof.Machine
end

section
/-! SUPPORT. Which registers a command writes (10_state.md R26, R52), and the reset values (R51). -/

namespace Sys2Proof.Machine

/-! ### The registers an update leaves alone -/

theorem regRead_noteOn (r : Regs Word) (d : Word) {i : Reg} (hon : i ≠ .tOn) (hflags : i ≠ .flags) :
    regRead (r.noteOn d) i = regRead r i := by
  cases i with
  | tOn => exact absurd rfl hon
  | flags => exact absurd rfl hflags
  | _ => rfl

theorem regRead_noteOff (r : Regs Word) (d : Word) {i : Reg} (hoff : i ≠ .tOff) (hflags : i ≠ .flags) :
    regRead (r.noteOff d) i = regRead r i := by
  cases i with
  | tOff => exact absurd rfl hoff
  | flags => exact absurd rfl hflags
  | _ => rfl

theorem regRead_setFreq (r : Regs Word) (d : Word) {i : Reg} (h : i ≠ .freq) :
    regRead { r with freq := d } i = regRead r i := by
  cases i with
  | freq => exact absurd rfl h
  | _ => rfl

/-- `LD_PRESET` leaves `MVOL`, `FREQ` and `STATUS` alone (R127). -/
theorem regRead_loadVoice (r : Regs Word) (v : Voice) {i : Reg} (h : i ∈ [Reg.mvol, .freq, .status]) :
    regRead (numB64.loadVoice r v) i = regRead r i := by
  simp only [List.mem_cons, List.mem_nil_iff, or_false] at h
  rcases h with rfl | rfl | rfl <;> rfl

/-! ### The table of R52 -/

/-- A legal command leaves every register alone that the table does not let it write. -/
theorem exec_frame_of_not_mayWrite {i : Instr} {r : Reg} (hw : i.wellFormed = true) (hm : mayWrite i r = false)
    (s : State) : ∃ t, exec i s = .next t ∧ regRead t.regs r = regRead s.regs r := by
  cases i with
  | nop => exact ⟨s, exec_nop s, rfl⟩
  | noteOn d =>
    simp only [mayWrite, Bool.or_eq_false_iff, beq_eq_false_iff_ne] at hm
    obtain ⟨hon, hflags⟩ := hm
    exact ⟨_, exec_noteOn hw s, regRead_noteOn _ d hon hflags⟩
  | noteOff d =>
    simp only [mayWrite, Bool.or_eq_false_iff, beq_eq_false_iff_ne] at hm
    obtain ⟨hoff, hflags⟩ := hm
    exact ⟨_, exec_noteOff hw s, regRead_noteOff _ d hoff hflags⟩
  | setFreq d => exact ⟨_, exec_setFreq hw s, regRead_setFreq _ d (beq_eq_false_iff_ne.1 hm)⟩
  | sample d => exact ⟨_, exec_sample hw s, regRead_afterSample _ _ _ r (beq_eq_false_iff_ne.1 hm)⟩
  | ldPreset p =>
    have hr : r ∈ [Reg.mvol, .freq, .status] := by
      simpa only [mayWrite, Bool.and_eq_false_iff, bne_eq_false_iff_eq, or_assoc, List.mem_cons, List.mem_nil_iff,
        or_false] using hm
    exact ⟨_, exec_ldPreset p s, regRead_loadVoice _ _ hr⟩
  | wrCfg g d =>
    obtain ⟨hg, hd⟩ := (Bool.and_eq_true _ _).mp hw
    exact ⟨_, exec_wrCfg hg hd s,
      congrArg RegVal.word (regRead_write_of_ne numB64.val s.regs d (beq_eq_false_iff_ne.1 hm))⟩
  | rdReg g => exact ⟨_, exec_rdReg g s, rfl⟩

/-- Settles O29: what the table does not list is left alone. -/
theorem onlyTheTableIsWritten : Obligations.OnlyTheTableIsWritten := by
  unfold Obligations.OnlyTheTableIsWritten
  intro i s r hw
  cases hm : mayWrite i r with
  | true =>
    obtain ⟨t, ht⟩ := exec_next i s
    exact ⟨t, ht, fun _ => rfl⟩
  | false =>
    obtain ⟨t, ht, hframe⟩ := exec_frame_of_not_mayWrite hw hm s
    exact ⟨t, ht, fun hne => absurd hframe hne⟩

/-! ### The values of R51 -/

/-- Preset 0 is the voice of reset: loading it resets the registers, apart from `MVOL`, `FREQ`, `STATUS` and the bits of
`FLAGS` above the two fields (R51, R125, R127). -/
theorem loadVoice_harm (r : Regs Word) :
    numB64.loadVoice r (presetVoice .harm) =
      { Regs.reset with mvol := r.mvol, freq := r.freq, status := r.status, flags := flagsClear r.flags } := rfl

/-- A register that `LD_PRESET 0` writes reads as after reset (R51). -/
theorem regRead_loadVoice_harm (r : Regs Word) {i : Reg} (hm : mayWrite (.ldPreset .harm) i = true)
    (hflags : i ≠ .flags) : regRead (numB64.loadVoice r (presetVoice .harm)) i = regRead Regs.reset i := by
  rw [loadVoice_harm]
  cases i with
  | mvol => cases hm
  | freq => cases hm
  | status => cases hm
  | flags => exact absurd rfl hflags
  | _ => rfl

/-- Settles O14: the table of R51 is evaluated, and `LD_PRESET 0` loads the voice of reset and clears both flags. -/
theorem resetRegisterValues : Obligations.ResetRegisterValues := by
  unfold Obligations.ResetRegisterValues
  refine ⟨by decide, fun s => ⟨_, exec_ldPreset .harm s, fun r => regRead_loadVoice_harm s.regs, ?_, ?_⟩⟩
  · exact (getLsbD_flagsClear s.regs.flags 0).trans (Bool.and_false _)
  · exact (getLsbD_flagsClear s.regs.flags 1).trans (Bool.and_false _)

end Sys2Proof.Machine
end

section
/-! SUPPORT. Executing a command twice (20_memory.md R59), and the two accesses of the register space (R55, R56). -/

namespace Sys2Proof.Machine

/-! ### Updates done twice -/

theorem flagsNoteOn_idem (f : Word) : flagsNoteOn (flagsNoteOn f) = flagsNoteOn f := by
  rw [flagsNoteOn, flagsNoteOn, BitVec.or_assoc, BitVec.or_self]

theorem flagsNoteOff_idem (f : Word) : flagsNoteOff (flagsNoteOff f) = flagsNoteOff f := by
  rw [flagsNoteOff, flagsNoteOff, BitVec.and_assoc, BitVec.and_self]

theorem flagsClear_idem (f : Word) : flagsClear (flagsClear f) = flagsClear f := by
  rw [flagsClear, flagsClear, BitVec.and_assoc, BitVec.and_self]

/-- Faults are sticky, so raising one again changes nothing (R150). -/
theorem Regs.raise_idem {V : Type} (r : Regs V) (x : FaultBit) : (r.raise x).raise x = r.raise x := by
  rw [Regs.raise, Regs.raise, BitVec.or_assoc, BitVec.or_self]

theorem Regs.noteOn_idem {V : Type} (r : Regs V) (t : V) : (r.noteOn t).noteOn t = r.noteOn t := by
  rw [Regs.noteOn, Regs.noteOn, flagsNoteOn_idem]

theorem Regs.noteOff_idem {V : Type} (r : Regs V) (t : V) : (r.noteOff t).noteOff t = r.noteOff t := by
  rw [Regs.noteOff, Regs.noteOff, flagsNoteOff_idem]

theorem loadVoice_idem {V : Type} (ar : Arith V) (r : Regs V) (v : Voice) :
    ar.loadVoice (ar.loadVoice r v) v = ar.loadVoice r v := by
  rw [Arith.loadVoice, Arith.loadVoice, flagsClear_idem]

/-- Register by register: the one written reads as what was sent, the others as before. -/
theorem Regs.write_idem (r : Regs Word) {i : Reg} {d : Word} (h : legalData i d = true) :
    (r.write numB64.val i d).write numB64.val i d = r.write numB64.val i d := by
  refine Regs.ext_read fun j => ?_
  by_cases hj : j = i
  · rw [hj, regRead_write_same _ h, regRead_write_same _ h]
  · exact congrArg RegVal.word (regRead_write_of_ne numB64.val _ d hj)

/-! ### Commands done twice -/

/-- A command that only updates the registers, by an update that done twice is done once, is idempotent. -/
theorem exec_idem_of_update {i : Instr} (f : Regs Word → Regs Word)
    (hexec : ∀ s, exec i s = .next { s with regs := f s.regs }) (hf : ∀ r, f (f r) = f r) (s : State) :
    ∃ t, exec i s = .next t ∧ exec i t = .next t :=
  ⟨_, hexec s, by rw [hexec, hf]⟩

/-- An ill-formed command that answers nothing raises `ILL` and does no more (R85). -/
theorem exec_silent_of_not_wellFormed {i : Instr} (hs : ∀ d, i ≠ .sample d) (hw : i.wellFormed = false) (s : State) :
    exec i s = .next { s with regs := s.regs.raise .ill } := by
  rw [exec_of_not_wellFormed hw]
  cases i with
  | sample d => exact absurd rfl (hs d)
  | _ => rfl

theorem exec_idem_of_wellFormed {i : Instr} (hs : ∀ d, i ≠ .sample d) (hr : ∀ g, i ≠ .rdReg g)
    (hw : i.wellFormed = true) (s : State) : ∃ t, exec i s = .next t ∧ exec i t = .next t := by
  cases i with
  | nop => exact ⟨s, exec_nop s, exec_nop s⟩
  | noteOn d => exact exec_idem_of_update (·.noteOn d) (exec_noteOn hw) (Regs.noteOn_idem · d) s
  | noteOff d => exact exec_idem_of_update (·.noteOff d) (exec_noteOff hw) (Regs.noteOff_idem · d) s
  | setFreq d => exact exec_idem_of_update ({ · with freq := d }) (exec_setFreq hw) (fun _ => rfl) s
  | ldPreset p => exact exec_idem_of_update (numB64.loadVoice · _) (exec_ldPreset p) (loadVoice_idem numB64 · _) s
  | wrCfg g d =>
    obtain ⟨hg, hd⟩ := (Bool.and_eq_true _ _).mp hw
    exact exec_idem_of_update (·.write numB64.val g d) (exec_wrCfg hg hd) (Regs.write_idem · hd) s
  | sample d => exact absurd rfl (hs d)
  | rdReg g => exact absurd rfl (hr g)

/-- Settles O28: a legal command repeats its update of the registers, an ill-formed one raises `ILL` again. -/
theorem commandsAreIdempotent : Obligations.CommandsAreIdempotent := by
  unfold Obligations.CommandsAreIdempotent
  intro i s hs hr
  cases hw : i.wellFormed with
  | true => exact exec_idem_of_wellFormed hs hr hw s
  | false => exact exec_idem_of_update (·.raise .ill) (exec_silent_of_not_wellFormed hs hw) (Regs.raise_idem · .ill) s

/-! ### WR_CFG and RD_REG -/

/-- Settles O21: the register written reads as what was sent, the others as before. -/
theorem wrCfgEffect : Obligations.WrCfgEffect := by
  unfold Obligations.WrCfgEffect
  intro r d s hw hd
  refine ⟨_, exec_wrCfg hw hd s, regRead_write_same s.regs hd, fun j hj => ?_, rfl⟩
  exact congrArg RegVal.word (regRead_write_of_ne numB64.val s.regs d (List.ne_of_not_mem_cons hj))

/-- Settles O22: `RD_REG` appends the register's bits to the responses of CP, and that is its whole effect. -/
theorem rdRegEffect : Obligations.RdRegEffect := by
  unfold Obligations.RdRegEffect
  intro r s
  exact ⟨_, exec_rdReg r s, State.respond_cpResp s .cp _, rfl⟩

end Sys2Proof.Machine
end

section
/-! SUPPORT. What a step does to the hosts' queues (20_memory.md R60 to R62, 70_reset_and_hazards.md R171). -/

namespace Sys2Proof.Machine

/-! ### The queues -/

theorem State.queue_congr {s t : State} (hc : t.cpQueue = s.cpQueue) (hr : t.rpQueue = s.rpQueue) (q : Port) :
    t.queue q = s.queue q := by
  cases q with
  | cp => exact hc
  | rp => exact hr

theorem State.queue_setQueue (s : State) (p q : Port) (l : List CmdWord) :
    (s.setQueue p l).queue q = if q = p then l else s.queue q := by cases p <;> cases q <;> rfl

@[simp] theorem State.queue_illegal (s : State) (q : Port) : s.illegal.queue q = s.queue q :=
  State.queue_congr (State.illegal_cpQueue s) (State.illegal_rpQueue s) q

@[simp] theorem State.queue_illegalAnswered (s : State) (p q : Port) : (s.illegalAnswered p).queue q = s.queue q :=
  State.queue_congr (State.illegalAnswered_cpQueue s p) (State.illegalAnswered_rpQueue s p) q

theorem queue_illegalWord (p : Port) (w : CmdWord) (s : State) (q : Port) :
    (illegalWord p w s).queue q = s.queue q := by
  unfold illegalWord
  split
  · exact State.queue_illegalAnswered s p q
  · exact State.queue_illegal s q

/-- A command leaves the commands outstanding alone, whatever it is (R61). -/
theorem exec_keeps_queue (i : Instr) (s : State) : ∃ t, exec i s = .next t ∧ ∀ q, t.queue q = s.queue q := by
  cases hw : i.wellFormed with
  | false =>
    refine ⟨_, exec_of_not_wellFormed hw s, fun q => ?_⟩
    split
    · exact State.queue_illegalAnswered s .rp q
    · exact State.queue_illegal s q
  | true =>
    cases i with
    | nop => exact ⟨_, exec_nop s, fun _ => rfl⟩
    | noteOn d => exact ⟨_, exec_noteOn hw s, State.queue_congr rfl rfl⟩
    | noteOff d => exact ⟨_, exec_noteOff hw s, State.queue_congr rfl rfl⟩
    | setFreq d => exact ⟨_, exec_setFreq hw s, State.queue_congr rfl rfl⟩
    | sample d => exact ⟨_, exec_sample hw s, State.queue_congr (sampleLegal_cpQueue d s) (sampleLegal_rpQueue d s)⟩
    | ldPreset p => exact ⟨_, exec_ldPreset p s, State.queue_congr rfl rfl⟩
    | wrCfg g d =>
      obtain ⟨hg, hd⟩ := (Bool.and_eq_true _ _).mp hw
      exact ⟨_, exec_wrCfg hg hd s, State.queue_congr rfl rfl⟩
    | rdReg g => exact ⟨_, exec_rdReg g s, State.queue_congr rfl rfl⟩

/-- So does a word, legal or not. -/
theorem runWord_keeps_queue (p : Port) (w : CmdWord) (s : State) :
    ∃ t, runWord p w s = .next t ∧ ∀ q, t.queue q = s.queue q := by
  cases hd : decode p w with
  | ok i =>
    rw [runWord_ok hd]
    exact exec_keeps_queue i s
  | error e => exact ⟨_, runWord_error hd s, queue_illegalWord p w s⟩

/-! ### Steps -/

/-- Settles O11: an idle step, a reset, a turn with nothing to do, and a word, which is gone from its own queue. -/
theorem stepTakesTheNextCommandOfOnePort : Obligations.StepTakesTheNextCommandOfOnePort := by
  unfold Obligations.StepTakesTheNextCommandOfOnePort
  intro s
  obtain ⟨hturn, hstep⟩ | ⟨a, b, hturn, hstep⟩ | ⟨p, hturn, hqueue, hstep⟩ | ⟨p, w, rest, hturn, hqueue, hstep⟩ :=
    step_cases s
  · rw [hturn]
    exact ⟨s, hstep, rfl⟩
  · rw [hturn]
    exact ⟨_, hstep, State.afterReset_cpQueue _ a b, State.afterReset_rpQueue _ a b⟩
  · rw [hturn]
    refine ⟨_, hstep, ?_, fun q _ => queue_takeTurn s q⟩
    rw [queue_takeTurn, hqueue, List.tail_nil]
  · rw [hturn, hstep]
    obtain ⟨t, hrun, hkeeps⟩ := runWord_keeps_queue p w ((takeTurn s).setQueue p rest)
    refine ⟨t, hrun, ?_, fun q hq => ?_⟩
    · rw [hkeeps, State.queue_setQueue, if_pos rfl, hqueue, List.tail_cons]
    · rw [hkeeps, State.queue_setQueue, if_neg hq, queue_takeTurn]

theorem nextTurn_of_agenda_nil {s : State} (h : s.agenda = []) : nextTurn s = freeTurn s := by
  rw [nextTurn, h]

theorem freeTurn_of_idle {s : State} (hc : s.cpQueue = []) (hr : s.rpQueue = []) : freeTurn s = none := by
  rw [freeTurn, hc, hr]

/-- A free turn goes to a port that has a command outstanding, whatever the arbiter chooses (R62). -/
theorem freeTurn_of_outstanding {s : State} (h : s.cpQueue ≠ [] ∨ s.rpQueue ≠ []) :
    ∃ p w rest, freeTurn s = some (.port p) ∧ s.queue p = w :: rest := by
  rw [freeTurn]
  cases hc : s.cpQueue with
  | nil =>
    cases hr : s.rpQueue with
    | nil => exact h.elim (absurd hc) (absurd hr)
    | cons w rest => exact ⟨.rp, w, rest, rfl, hr⟩
  | cons w rest =>
    cases hr : s.rpQueue with
    | nil => exact ⟨.cp, w, rest, rfl, hc⟩
    | cons v rest' =>
      cases Config.arbiter s.freeCount with
      | true => exact ⟨.cp, w, rest, rfl, hc⟩
      | false => exact ⟨.rp, v, rest', rfl, hr⟩

/-- Settles O12: with an empty agenda the turn is the free one, which goes to a port with a command if there is one. -/
theorem freeOrderOfThePorts : Obligations.FreeOrderOfThePorts := by
  unfold Obligations.FreeOrderOfThePorts
  intro s hagenda
  have hturn := nextTurn_of_agenda_nil hagenda
  constructor
  · intro h
    obtain ⟨p, w, rest, hfree, hqueue⟩ := freeTurn_of_outstanding h
    exact ⟨p, w, rest, hqueue, step_of_port (hturn.trans hfree) hqueue⟩
  · intro hc hr
    exact step_of_none (hturn.trans (freeTurn_of_idle hc hr))

end Sys2Proof.Machine
end

section
/-! SUPPORT. A command as the three fields of its word, and the codec in both directions (30_encoding.md R69 to R79): a
word decodes to a command exactly when it is the word of that command and the command is legal on the port. -/

namespace Sys2Proof

/-! ### The fields of a command (R69, R71) -/

/-- The opcode of a command's word (R71). -/
def Instr.op : Instr → Op
  | .nop => .nop
  | .noteOn _ => .noteOn
  | .noteOff _ => .noteOff
  | .setFreq _ => .setFreq
  | .sample _ => .sample
  | .ldPreset _ => .ldPreset
  | .wrCfg _ _ => .wrCfg
  | .rdReg _ => .rdReg

/-- The `IDX` field of a command's word (R72, R82). -/
def Instr.idx : Instr → BitVec 8
  | .nop | .noteOn _ | .noteOff _ | .setFreq _ | .sample _ => 0#8
  | .ldPreset p => numberOfPreset p
  | .wrCfg r _ | .rdReg r => numberOfReg r

/-- The `DATA` field of a command's word (R73, R82). -/
def Instr.data : Instr → Word
  | .nop | .ldPreset _ | .rdReg _ => 0#64
  | .noteOn d | .noteOff d | .setFreq d | .sample d | .wrCfg _ d => d

theorem encode_eq_mkWord (i : Instr) : encode i = mkWord (codeOfOp i.op) i.idx i.data := by cases i <;> rfl

theorem opField_encode (i : Instr) : opField (encode i) = codeOfOp i.op := by rw [encode_eq_mkWord, opField_mkWord]

theorem admittedOn_eq (i : Instr) (p : Port) : i.admittedOn p = opAdmittedOn i.op p := by cases i <;> rfl

theorem zeroFieldsOk_fields (i : Instr) : zeroFieldsOk i.op i.idx i.data = true := by cases i <;> rfl

/-! ### Decoding the fields (R78, R79) -/

/-- What decoding does to a word given by its fields (R79). -/
theorem decode_mkWord {o : Op} {p : Port} {x : BitVec 8} {d : Word} (hp : opAdmittedOn o p = true)
    (hz : zeroFieldsOk o x d = true) : decode p (mkWord (codeOfOp o) x d) = decodeOperands o x d := by
  rw [decode_of_op (by rw [opField_mkWord, opOfCode_codeOfOp]), idxField_mkWord, dataField_mkWord, if_pos hp, if_pos hz]

theorem valueCommand_ok_iff (mk : Word → Instr) (d : Word) (i : Instr) :
    valueCommand mk d = .ok i ↔ Machine.isFinite d = true ∧ mk d = i := by
  rw [valueCommand]
  split_ifs with h <;> simp [h]

theorem decodeWrCfg_ok_iff (x : BitVec 8) (d : Word) (i : Instr) :
    decodeWrCfg x d = .ok i ↔
      ∃ r, regOfNumber x = some r ∧ Machine.writable r = true ∧ Machine.legalData r d = true ∧ .wrCfg r d = i := by
  rw [decodeWrCfg]
  cases regOfNumber x with
  | none => simp
  | some r =>
    show (if Machine.writable r = true then _ else _) = _ ↔ _
    split_ifs <;> simp [*]

/-- Operands that are legal decode to the command they are the operands of (R79). -/
theorem decodeOperands_fields {i : Instr} (h : i.wellFormed = true) : decodeOperands i.op i.idx i.data = .ok i := by
  cases i with
  | nop => rfl
  | noteOn d => exact (valueCommand_ok_iff _ _ _).2 ⟨h, rfl⟩
  | noteOff d => exact (valueCommand_ok_iff _ _ _).2 ⟨h, rfl⟩
  | setFreq d => exact (valueCommand_ok_iff _ _ _).2 ⟨h, rfl⟩
  | sample d => exact (valueCommand_ok_iff _ _ _).2 ⟨h, rfl⟩
  | ldPreset p =>
    rw [Instr.op, Instr.idx, decodeOperands, presetOfNumber_numberOfPreset]
  | wrCfg r d =>
    obtain ⟨hr, hd⟩ := (Bool.and_eq_true _ _).mp h
    exact (decodeWrCfg_ok_iff _ _ _).2 ⟨r, regOfNumber_numberOfReg r, hr, hd, rfl⟩
  | rdReg r =>
    rw [Instr.op, Instr.idx, decodeOperands, regOfNumber_numberOfReg]

/-- Settles O1: the fields of a legal command pass each check of R79, and its operands decode to it. -/
theorem decodeInvertsEncode : Obligations.DecodeInvertsEncode := by
  unfold Obligations.DecodeInvertsEncode
  intro i p hlegal
  obtain ⟨hw, hp⟩ := hlegal
  rw [admittedOn_eq] at hp
  rw [encode_eq_mkWord, decode_mkWord hp (zeroFieldsOk_fields i), decodeOperands_fields hw]

/-- The operands a command decodes from are the fields of its word: no two operands have one meaning. -/
theorem fields_of_decodeOperands {o : Op} {x : BitVec 8} {d : Word} {i : Instr} (hz : zeroFieldsOk o x d = true)
    (h : decodeOperands o x d = .ok i) : i.op = o ∧ i.idx = x ∧ i.data = d := by
  have value : ∀ mk : Word → Instr, (x == 0#8) = true → valueCommand mk d = .ok i → 0#8 = x ∧ mk d = i :=
    fun mk hx hv => ⟨(beq_iff_eq.1 hx).symm, ((valueCommand_ok_iff mk d i).1 hv).2⟩
  cases o with
  | nop =>
    obtain ⟨hx, hd⟩ := (Bool.and_eq_true _ _).mp hz
    cases h
    exact ⟨rfl, (beq_iff_eq.1 hx).symm, (beq_iff_eq.1 hd).symm⟩
  | noteOn => obtain ⟨hx, rfl⟩ := value .noteOn hz h; exact ⟨rfl, hx, rfl⟩
  | noteOff => obtain ⟨hx, rfl⟩ := value .noteOff hz h; exact ⟨rfl, hx, rfl⟩
  | setFreq => obtain ⟨hx, rfl⟩ := value .setFreq hz h; exact ⟨rfl, hx, rfl⟩
  | sample => obtain ⟨hx, rfl⟩ := value .sample hz h; exact ⟨rfl, hx, rfl⟩
  | ldPreset =>
    cases hp : presetOfNumber x with
    | none => rw [decodeOperands, hp] at h; cases h
    | some p =>
      rw [decodeOperands, hp] at h
      cases h
      exact ⟨rfl, numberOfPreset_of_presetOfNumber x p hp, (beq_iff_eq.1 hz).symm⟩
  | wrCfg =>
    obtain ⟨r, hr, -, -, rfl⟩ := (decodeWrCfg_ok_iff x d i).1 h
    exact ⟨rfl, numberOfReg_of_regOfNumber x r hr, rfl⟩
  | rdReg =>
    cases hr : regOfNumber x with
    | none => rw [decodeOperands, hr] at h; cases h
    | some r =>
      rw [decodeOperands, hr] at h
      cases h
      exact ⟨rfl, numberOfReg_of_regOfNumber x r hr, (beq_iff_eq.1 hz).symm⟩

theorem encode_of_decode {p : Port} {w : CmdWord} {i : Instr} (h : decode p w = .ok i) : encode i = w := by
  obtain ⟨o, ho, -, hz, hd⟩ := decode_ok h
  obtain ⟨hop, hidx, hdata⟩ := fields_of_decodeOperands hz hd
  rw [encode_eq_mkWord, hop, hidx, hdata, codeOfOp_of_opOfCode _ _ ho, mkWord_fields]

/-- Settles O2: the fields of the command are those of the word, and every check of legality was made. -/
theorem decodedWordIsTheCommandsWord : Obligations.DecodedWordIsTheCommandsWord := by
  unfold Obligations.DecodedWordIsTheCommandsWord
  intro p w i h
  exact ⟨encode_of_decode h, legal_of_decode h⟩

/-- Settles O3, by evaluation: the statement is about eight words. -/
theorem specWordsDecode : Obligations.SpecWordsDecode := by
  unfold Obligations.SpecWordsDecode
  decide

end Sys2Proof
end

section
/-! SUPPORT. Which words are illegal (30_encoding.md R80 to R84). A word that decodes is the word of a legal command, so
a word is illegal when no legal command has its fields; each rule is then a fact about the fields of legal commands. -/

namespace Sys2Proof

open Machine

/-! ### Words whose fields no legal command has -/

/-- The clauses of R80 to R84 name parts of `DATA` by their place in the word. -/
theorem extractLsb'_dataField (w : CmdWord) {k n : Nat} (h : k + n ≤ 64) :
    (dataField w).extractLsb' k n = w.extractLsb' k n := by
  apply BitVec.eq_of_getLsbD_eq
  intro j hj
  rw [dataField, BitVec.getLsbD_extractLsb', BitVec.getLsbD_extractLsb', BitVec.getLsbD_extractLsb', Nat.zero_add]
  simp [hj, show k + j < 64 by omega]

/-- A word is illegal when no legal command has its fields (R78). -/
theorem illegal_of_fields {p : Port} {w : CmdWord}
    (h : ∀ i : Instr, i.Legal p → codeOfOp i.op = opField w → i.idx = idxField w → i.data = dataField w → False) :
    ∃ e, decode p w = .error e := by
  refine (decode_error_or_ok p w).resolve_right fun ⟨i, hi⟩ => ?_
  obtain ⟨rfl, hlegal⟩ := decodedWordIsTheCommandsWord p w i hi
  rw [encode_eq_mkWord] at h
  exact h i hlegal (opField_mkWord _ _ _).symm (idxField_mkWord _ _ _).symm (dataField_mkWord _ _ _).symm

theorem codeOfOp_injective : Function.Injective codeOfOp := fun a b h =>
  Option.some_injective _ (by rw [← opOfCode_codeOfOp a, h, opOfCode_codeOfOp])

theorem numberOfReg_injective : Function.Injective numberOfReg := fun a b h =>
  Option.some_injective _ (by rw [← regOfNumber_numberOfReg a, h, regOfNumber_numberOfReg])

/-- The register a number in a list of registers' numbers names is in the list. -/
theorem mem_of_numberOfReg_mem {r : Reg} (l : List Reg)
    (h : (numberOfReg r).toNat ∈ l.map fun q => (numberOfReg q).toNat) : r ∈ l :=
  (List.mem_map_of_injective (BitVec.toNat_injective.comp numberOfReg_injective)).1 h

/-- What a legal command of `WR_CFG`'s opcode names and carries (R71, R84). -/
theorem wrCfg_fields_of_code {i : Instr} (hw : i.wellFormed = true) (h : codeOfOp i.op = 0x06#8) :
    ∃ r, numberOfReg r = i.idx ∧ writable r = true ∧ legalData r i.data = true := by
  have hop : i.op = .wrCfg := codeOfOp_injective h
  cases i with
  | wrCfg r d =>
    obtain ⟨hr, hd⟩ := (Bool.and_eq_true _ _).mp hw
    exact ⟨r, rfl, hr, hd⟩
  | _ => cases hop

/-! ### Opcodes and ports (R81, R83) -/

theorem codeOfOp_lt (o : Op) : (codeOfOp o).toNat < 8 := by cases o <;> decide

theorem illegal_of_reservedOp (p : Port) {w : CmdWord} (h : 0x08 ≤ (opField w).toNat) : ∃ e, decode p w = .error e :=
  illegal_of_fields fun i _ hop _ _ => by
    have := codeOfOp_lt i.op
    rw [hop] at this
    omega

theorem opAdmittedOn_cp_iff (o : Op) : opAdmittedOn o .cp = true ↔ o ≠ .sample := by cases o <;> decide

theorem opAdmittedOn_rp_iff (o : Op) : opAdmittedOn o .rp = true ↔ o = .nop ∨ o = .sample := by cases o <;> decide

/-- An opcode has a legal word where a command of that opcode is legal. -/
theorem exists_word_of_legal {p : Port} (i : Instr) (h : i.Legal p) :
    ∃ w c, w.extractLsb' 72 8 = codeOfOp i.op ∧ decode p w = .ok c :=
  ⟨encode i, i, opField_encode i, decodeInvertsEncode i p h⟩

/-- Settles O5: a command of an opcode the port does not admit is not legal on it; each opcode it admits has a legal
command. -/
theorem portsAdmitTheirCommands : Obligations.PortsAdmitTheirCommands := by
  unfold Obligations.PortsAdmitTheirCommands
  refine ⟨fun w hw => illegal_of_fields fun i hlegal hop _ _ => ?_,
    fun w hnop hsample => illegal_of_fields fun i hlegal hop _ _ => ?_, ?_, ?_⟩
  · obtain ⟨-, hp⟩ := hlegal
    rw [admittedOn_eq, opAdmittedOn_cp_iff] at hp
    exact hp (codeOfOp_injective (hop.trans hw))
  · obtain ⟨-, hp⟩ := hlegal
    rw [admittedOn_eq, opAdmittedOn_rp_iff] at hp
    rcases hp with h | h
    · exact hnop (by rw [h] at hop; exact hop.symm)
    · exact hsample (by rw [h] at hop; exact hop.symm)
  · simp only [List.forall_mem_cons]
    exact ⟨exists_word_of_legal .nop ⟨rfl, rfl⟩, exists_word_of_legal (.noteOn 0#64) ⟨rfl, rfl⟩,
      exists_word_of_legal (.noteOff 0#64) ⟨rfl, rfl⟩, exists_word_of_legal (.setFreq 0#64) ⟨rfl, rfl⟩,
      exists_word_of_legal (.ldPreset .harm) ⟨rfl, rfl⟩,
      exists_word_of_legal (.wrCfg (.slot .s0 .ctrl) 0#64) ⟨rfl, rfl⟩,
      exists_word_of_legal (.rdReg .status) ⟨rfl, rfl⟩, List.forall_mem_nil _⟩
  · simp only [List.forall_mem_cons]
    exact ⟨exists_word_of_legal .nop ⟨rfl, rfl⟩, exists_word_of_legal (.sample 0#64) ⟨rfl, rfl⟩, List.forall_mem_nil _⟩

/-! ### Fields that must be zero (R82) -/

theorem idx_eq_zero_of_code_le {i : Instr} (h : (codeOfOp i.op).toNat ≤ 4) : i.idx = 0#8 := by
  cases i with
  | ldPreset p => exact absurd h (by rw [Instr.op]; decide)
  | wrCfg r d => exact absurd h (by rw [Instr.op]; decide)
  | rdReg r => exact absurd h (by rw [Instr.op]; decide)
  | _ => rfl

theorem data_eq_zero_of_code_mem {i : Instr} (h : codeOfOp i.op ∈ [0x00#8, 0x05#8, 0x07#8]) : i.data = 0#64 := by
  cases i with
  | nop => rfl
  | ldPreset p => rfl
  | rdReg r => rfl
  | _ => exact absurd h (by rw [Instr.op]; decide)

/-- The four slot controls, by number (R74). -/
theorem numberOfReg_mem_ctrl_iff (r : Reg) :
    numberOfReg r ∈ [0x10#8, 0x18#8, 0x20#8, 0x28#8] ↔ ∃ n, r = .slot n .ctrl := by
  constructor
  · intro h
    have hr : r ∈ [SlotNo.s0, .s1, .s2, .s3].map (Reg.slot · .ctrl) :=
      (List.mem_map_of_injective numberOfReg_injective).1 h
    obtain ⟨n, -, hn⟩ := List.mem_map.1 hr
    exact ⟨n, hn.symm⟩
  · rintro ⟨n, rfl⟩
    cases n <;> decide

/-- Settles O6: in the word of a legal command the fields that must be zero are zero. -/
theorem mustBeZeroFields : Obligations.MustBeZeroFields := by
  unfold Obligations.MustBeZeroFields
  intro p w h
  refine illegal_of_fields fun i ⟨hw, _⟩ hop hidx hdata => ?_
  change ((opField w).toNat ≤ 4 ∧ idxField w ≠ 0#8) ∨ (opField w ∈ _ ∧ dataField w ≠ 0#64) ∨
    (opField w = 0x06#8 ∧ idxField w ∈ _ ∧ _) at h
  rw [← extractLsb'_dataField w (by decide), ← hop, ← hidx, ← hdata] at h
  rcases h with ⟨hcode, hne⟩ | ⟨hcode, hne⟩ | ⟨hcode, hnum, hne⟩
  · exact hne (idx_eq_zero_of_code_le hcode)
  · exact hne (data_eq_zero_of_code_mem hcode)
  · obtain ⟨r, hr, -, hd⟩ := wrCfg_fields_of_code hw hcode
    rw [← hr, numberOfReg_mem_ctrl_iff] at hnum
    obtain ⟨n, rfl⟩ := hnum
    obtain ⟨hhigh, -⟩ := (Bool.and_eq_true _ _).mp hd
    exact hne (beq_iff_eq.1 hhigh)

/-! ### Infinities, NaNs, subnormals and zeros (R80) -/

theorem isFinite_iff_expField (d : Word) : isFinite d = true ↔ d.extractLsb' 52 11 ≠ 0x7FF#11 := bne_iff_ne

/-- The operand of a time or frequency command is finite (R80). -/
theorem isFinite_data_of_code {i : Instr} (hw : i.wellFormed = true) (h1 : 1 ≤ (codeOfOp i.op).toNat)
    (h4 : (codeOfOp i.op).toNat ≤ 4) : isFinite i.data = true := by
  cases i with
  | noteOn d => exact hw
  | noteOff d => exact hw
  | setFreq d => exact hw
  | sample d => exact hw
  | nop => exact absurd h1 (by rw [Instr.op]; decide)
  | ldPreset p => exact absurd h4 (by rw [Instr.op]; decide)
  | wrCfg r d => exact absurd h4 (by rw [Instr.op]; decide)
  | rdReg r => exact absurd h4 (by rw [Instr.op]; decide)

/-- A value from 0 to 1 is legal for every value register (R129). -/
theorem legalData_of_unit {r : Reg} {d : Word} (hr : writable r = true) (hc : ∀ n, r ≠ .slot n .ctrl)
    (hf : isFinite d = true) (h0 : 0 ≤ toRat d) (h1 : toRat d ≤ 1) : legalData r d = true := by
  have hnonneg : nonNegOk d = true := (nonNegOk_iff d).2 ⟨hf, h0⟩
  have hunit : unitOk d = true := (unitOk_iff d).2 ⟨hf, h0, h1⟩
  cases r with
  | envAttack => exact hnonneg
  | envDecay => exact hnonneg
  | envRelease => exact hnonneg
  | envSustain => exact hunit
  | envStart => exact hunit
  | mvol => exact hunit
  | slot n k =>
    cases k with
    | ctrl => exact absurd rfl (hc n)
    | mult => exact hnonneg
    | _ => exact hf
  | _ => cases hr

/-- A pattern with exponent 0 is at most 1 in magnitude. -/
theorem toRat_le_one_of_expField {d : Word} (h : expField d = 0#11) : toRat d ≤ 1 := by
  have hm : magBits d / 2 ^ 52 = 0 := by rw [← expField_toNat, h]; rfl
  have hone : magBits one64 = 1023 * 2 ^ 52 := by decide
  calc toRat d ≤ |toRat d| := le_abs_self _
    _ ≤ |toRat one64| := (abs_toRat_le_iff d one64).2 (by omega)
    _ = 1 := by rw [toRat_one64, abs_one]

/-- A zero of either sign and a positive subnormal are not negative. -/
theorem toRat_nonneg_of_expField {d : Word} (h : expField d = 0#11) (hs : signBit d = false ∨ fracField d = 0#52) :
    0 ≤ toRat d := by
  rcases hs with hs | hs
  · exact toRat_nonneg_of_signBit hs
  · have hexp : magBits d / 2 ^ 52 = 0 := by rw [← expField_toNat, h]; rfl
    have hfrac := (fracField_eq_zero d).1 hs
    exact ((toRat_eq_zero_iff d).2 (by omega)).ge

/-- Settles O7: legal commands have finite operands; a finite time, frequency, weight, depth or rate is legal, and a
zero or a positive subnormal is a value from 0 to 1. -/
theorem nonFiniteOperandsAreIllegal : Obligations.NonFiniteOperandsAreIllegal := by
  unfold Obligations.NonFiniteOperandsAreIllegal
  refine ⟨fun p w h hexp => illegal_of_fields fun i ⟨hwf, _⟩ hop hidx hdata => ?_, fun d hd => ?_,
    fun r d hw hc hexp hs => ?_⟩
  · rw [← extractLsb'_dataField w (by decide), ← hdata] at hexp
    change (1 ≤ (opField w).toNat ∧ (opField w).toNat ≤ 4) ∨ (opField w = 0x06#8 ∧ idxField w ∉ _) at h
    rw [← hop, ← hidx] at h
    refine (isFinite_iff_expField i.data).1 ?_ hexp
    rcases h with ⟨h1, h4⟩ | ⟨hcode, hnum⟩
    · exact isFinite_data_of_code hwf h1 h4
    · obtain ⟨r, hr, -, hd⟩ := wrCfg_fields_of_code hwf hcode
      rw [← hr, numberOfReg_mem_ctrl_iff] at hnum
      exact isFinite_of_legalData hd fun n hn => hnum ⟨n, hn⟩
  · have hf := (isFinite_iff_expField d).2 hd
    refine ⟨decodeInvertsEncode (.noteOn d) .cp ⟨hf, rfl⟩, decodeInvertsEncode (.noteOff d) .cp ⟨hf, rfl⟩,
      decodeInvertsEncode (.setFreq d) .cp ⟨hf, rfl⟩, decodeInvertsEncode (.sample d) .rp ⟨hf, rfl⟩, fun n k hk => ?_⟩
    refine decodeInvertsEncode (.wrCfg (.slot n k) d) .cp ⟨?_, rfl⟩
    simp only [List.mem_cons, List.mem_nil_iff, or_false] at hk
    rcases hk with rfl | rfl | rfl <;> exact hf
  · have hf : isFinite d = true := (isFinite_iff_expField d).2 (by rw [hexp]; decide)
    have hd := legalData_of_unit hw hc hf (toRat_nonneg_of_expField hexp hs) (toRat_le_one_of_expField hexp)
    exact decodeInvertsEncode (.wrCfg r d) .cp ⟨(Bool.and_eq_true _ _).mpr ⟨hw, hd⟩, rfl⟩

/-! ### Indices and values (R84) -/

/-- The presets are 0 and 1 (R72). -/
theorem idx_lt_of_code {i : Instr} (h : (codeOfOp i.op).toNat = 5) : i.idx.toNat < 2 := by
  have hop : i.op = .ldPreset := codeOfOp_injective (BitVec.eq_of_toNat_eq h)
  cases i with
  | ldPreset q => cases q <;> decide
  | _ => cases hop

/-- The numbers of the 31 registers (R53). -/
theorem numberOfReg_mapped (r : Reg) : (numberOfReg r).toNat ≤ 0x05 ∨
    (0x08 ≤ (numberOfReg r).toNat ∧ (numberOfReg r).toNat ≤ 0x0C) ∨
    (0x10 ≤ (numberOfReg r).toNat ∧ (numberOfReg r).toNat ≤ 0x2F ∧ (numberOfReg r).toNat % 8 ≤ 4) := by
  cases r with
  | slot n k => cases n <;> cases k <;> decide
  | _ => decide

/-- A `WR_CFG` and an `RD_REG` name a register (R74). -/
theorem exists_reg_of_code {i : Instr} (h : (codeOfOp i.op).toNat = 6 ∨ (codeOfOp i.op).toNat = 7) :
    ∃ r, numberOfReg r = i.idx := by
  cases i with
  | wrCfg r d => exact ⟨r, rfl⟩
  | rdReg r => exact ⟨r, rfl⟩
  | _ => exact absurd h (by rw [Instr.op]; decide)

/-- The read-only registers are 0x08 to 0x0C (R53). -/
theorem not_writable_of_number {r : Reg} (h1 : 0x08 ≤ (numberOfReg r).toNat) (h2 : (numberOfReg r).toNat ≤ 0x0C) :
    writable r = false := by
  cases r with
  | slot n k => exact absurd h2 (by cases n <;> cases k <;> decide)
  | tOn => rfl
  | tOff => rfl
  | freq => rfl
  | flags => rfl
  | status => rfl
  | _ => exact absurd h1 (by decide)

/-- The codes 6 and 7 select no kind (R75, R115). -/
theorem kindCode_lt_of_ctrlOk {d : Word} (h : ctrlOk d = true) : (d.extractLsb' 0 3).toNat < 6 := by
  obtain ⟨-, hkind⟩ := (Bool.and_eq_true _ _).mp h
  have hsome : ∀ c : BitVec 3, (kindOfCode c).isSome = true → c.toNat < 6 := by decide
  exact hsome _ hkind

/-- The slot controls, by number (R53, R74). -/
theorem ctrlOk_of_number {r : Reg} {d : Word} (h : (numberOfReg r).toNat ∈ [0x10, 0x18, 0x20, 0x28])
    (hd : legalData r d = true) : ctrlOk d = true := by
  have hr := mem_of_numberOfReg_mem [.slot .s0 .ctrl, .slot .s1 .ctrl, .slot .s2 .ctrl, .slot .s3 .ctrl] h
  fin_cases hr <;> exact hd

/-- The durations and multipliers, by number (R53, R74). -/
theorem nonNegOk_of_number {r : Reg} {d : Word} (h : (numberOfReg r).toNat ∈ [0x00, 0x01, 0x03, 0x11, 0x19, 0x21, 0x29])
    (hd : legalData r d = true) : nonNegOk d = true := by
  have hr := mem_of_numberOfReg_mem [.envAttack, .envDecay, .envRelease, .slot .s0 .mult, .slot .s1 .mult,
    .slot .s2 .mult, .slot .s3 .mult] h
  fin_cases hr <;> exact hd

/-- The amplitudes and the master volume, by number (R53). -/
theorem unitOk_of_number {r : Reg} {d : Word} (h : (numberOfReg r).toNat ∈ [0x02, 0x04, 0x05])
    (hd : legalData r d = true) : unitOk d = true := by
  have hr := mem_of_numberOfReg_mem [.envSustain, .envStart, .mvol] h
  fin_cases hr <;> exact hd

/-- Settles O8: the word of a legal command has none of the invalid indices and values. -/
theorem invalidIndicesAndValues : Obligations.InvalidIndicesAndValues := by
  unfold Obligations.InvalidIndicesAndValues
  rintro p w op n d rfl rfl rfl h
  refine illegal_of_fields fun i ⟨hw, _⟩ hop hidx hdata => ?_
  rw [show w.extractLsb' 72 8 = codeOfOp i.op from hop.symm, show w.extractLsb' 64 8 = i.idx from hidx.symm,
    show w.extractLsb' 0 64 = i.data from hdata.symm] at h
  have hwr : (codeOfOp i.op).toNat = 6 → ∃ r, numberOfReg r = i.idx ∧ writable r = true ∧ legalData r i.data = true :=
    fun hcode => wrCfg_fields_of_code hw (BitVec.eq_of_toNat_eq hcode)
  rcases h with ⟨hcode, hn⟩ | ⟨hcode, hn⟩ | ⟨hcode, hlo, hhi⟩ | ⟨hcode, hn, hkind⟩ | ⟨hcode, hn, hneg⟩ |
    ⟨hcode, hn, hout⟩
  · exact absurd (idx_lt_of_code hcode) (Nat.not_lt.2 hn)
  · obtain ⟨r, hr⟩ := exists_reg_of_code hcode
    rw [← hr] at hn
    exact hn (numberOfReg_mapped r)
  · obtain ⟨r, hr, hwrite, -⟩ := hwr hcode
    rw [← hr] at hlo hhi
    rw [not_writable_of_number hlo hhi] at hwrite
    cases hwrite
  · obtain ⟨r, hr, -, hd⟩ := hwr hcode
    rw [← hr] at hn
    exact absurd (kindCode_lt_of_ctrlOk (ctrlOk_of_number hn hd)) (Nat.not_lt.2 hkind)
  · obtain ⟨r, hr, -, hd⟩ := hwr hcode
    rw [← hr] at hn
    obtain ⟨-, h0⟩ := (nonNegOk_iff _).1 (nonNegOk_of_number hn hd)
    exact absurd hneg (not_lt.2 h0)
  · obtain ⟨r, hr, -, hd⟩ := hwr hcode
    rw [← hr] at hn
    obtain ⟨-, h0, h1⟩ := (unitOk_iff _).1 (unitOk_of_number hn hd)
    exact hout.elim (not_lt.2 h0) (not_lt.2 h1)

end Sys2Proof
end

section
/-! SUPPORT. What an illegal word, and a command whose operands are ill-formed, do (30_encoding.md R81, R85), and which
responses a word returns (R70). -/

namespace Sys2Proof.Machine

/-! ### Responses (R70) -/

theorem State.responses_respond (s : State) (p q : Port) (v : Word) :
    (s.respond p v).responses q = if q = p then s.responses q ++ [v] else s.responses q := by
  cases p <;> cases q <;> rfl

theorem State.responses_congr {s t : State} (hc : t.cpResp = s.cpResp) (hr : t.rpResp = s.rpResp) (q : Port) :
    t.responses q = s.responses q := by
  cases q with
  | cp => exact hc
  | rp => exact hr

/-- The opcodes that answer, as R70 and R85 name them. -/
abbrev Answers (w : CmdWord) : Prop := w.extractLsb' 72 8 = 0x04#8 ∨ w.extractLsb' 72 8 = 0x07#8

theorem illegalWord_of_answers {w : CmdWord} (h : Answers w) (p : Port) (s : State) :
    illegalWord p w s = s.illegalAnswered p :=
  if_pos (by rw [Bool.or_eq_true, decide_eq_true_iff, decide_eq_true_iff]; exact h)

theorem illegalWord_of_not_answers {w : CmdWord} (h : ¬Answers w) (p : Port) (s : State) :
    illegalWord p w s = s.illegal :=
  if_neg (by rw [Bool.or_eq_true, decide_eq_true_iff, decide_eq_true_iff]; exact h)

/-! ### What an illegal command changes (R85) -/

/-- `t` is `s` with `ILL` raised, but for the responses. -/
structure RaisesIll (s t : State) : Prop where
  regs : t.regs = s.regs.raise .ill
  cpQueue : t.cpQueue = s.cpQueue
  rpQueue : t.rpQueue = s.rpQueue
  agenda : t.agenda = s.agenda
  draws : t.draws = s.draws
  drawCount : t.drawCount = s.drawCount
  freeCount : t.freeCount = s.freeCount

theorem raisesIll_illegal (s : State) : RaisesIll s s.illegal := ⟨rfl, rfl, rfl, rfl, rfl, rfl, rfl⟩

theorem raisesIll_illegalAnswered (s : State) (p : Port) : RaisesIll s (s.illegalAnswered p) := by
  constructor <;> simp

theorem raisesIll_illegalWord (p : Port) (w : CmdWord) (s : State) : RaisesIll s (illegalWord p w s) := by
  unfold illegalWord
  split
  · exact raisesIll_illegalAnswered s p
  · exact raisesIll_illegal s

theorem RaisesIll.ill {s t : State} (h : RaisesIll s t) : t.regs.status.getLsbD 0 = true := by
  rw [h.regs, getLsbD_raise]
  exact Bool.or_true _

theorem RaisesIll.bitFrame {s t : State} (h : RaisesIll s t) : BitFrame [0] s.regs.status t.regs.status := by
  intro j hj
  have hne : j ≠ faultCode .ill := List.ne_of_not_mem_cons hj
  rw [h.regs, getLsbD_raise, decide_eq_false hne, Bool.or_false]

theorem RaisesIll.regFrame {s t : State} (h : RaisesIll s t) : RegFrame [.status] s t := by
  intro r hr
  rw [h.regs, regRead_raise s.regs .ill r (List.ne_of_not_mem_cons hr)]

/-- Settles O4: no legal command has a reserved opcode, so the word is illegal and raises `ILL`. -/
theorem reservedOpcodesAreIllegal : Obligations.ReservedOpcodesAreIllegal := by
  unfold Obligations.ReservedOpcodesAreIllegal
  intro p w hop
  obtain ⟨e, he⟩ := illegal_of_reservedOp p hop
  exact ⟨⟨e, he⟩, fun s => ⟨_, runWord_error he s, (raisesIll_illegalWord p w s).ill⟩⟩

/-- The response of an illegal word: 0 on its own port, where its opcode answers (R70, R85). -/
theorem responses_illegalWord (p : Port) (w : CmdWord) (s : State) :
    (if Answers w then (illegalWord p w s).responses p = s.responses p ++ [0#64]
      else (illegalWord p w s).responses p = s.responses p) ∧
    ∀ q : Port, q ≠ p → (illegalWord p w s).responses q = s.responses q := by
  split_ifs with h
  · rw [illegalWord_of_answers h]
    exact ⟨(State.responses_respond s.illegal p p _).trans (if_pos rfl),
      fun q hq => (State.responses_respond s.illegal p q _).trans (if_neg hq)⟩
  · rw [illegalWord_of_not_answers h]
    exact ⟨State.responses_congr rfl rfl p, fun q _ => State.responses_congr rfl rfl q⟩

/-- Settles O9: an illegal word raises `ILL` and answers as its opcode says. -/
theorem illegalWordEffect : Obligations.IllegalWordEffect := by
  unfold Obligations.IllegalWordEffect
  intro p w e s he
  have h := raisesIll_illegalWord p w s
  exact ⟨_, runWord_error he s, h.ill, h.bitFrame, h.regFrame, h.cpQueue, h.rpQueue, h.agenda, h.draws, h.drawCount,
    h.freeCount, responses_illegalWord p w s⟩

/-- Settles O27: an ill-formed command raises `ILL`, and a `SAMPLE` among them answers 0 on RP. -/
theorem illFormedCommandsAreIllegal : Obligations.IllFormedCommandsAreIllegal := by
  unfold Obligations.IllFormedCommandsAreIllegal
  intro i s hw
  by_cases hs : ∃ d, i = .sample d
  · obtain ⟨d, rfl⟩ := hs
    have h := raisesIll_illegalAnswered s .rp
    exact ⟨_, exec_of_not_wellFormed hw s, h.ill, h.bitFrame, h.regFrame, h.cpQueue, h.rpQueue, h.agenda, h.draws,
      h.drawCount, h.freeCount, State.illegalAnswered_cpResp s .rp, State.illegalAnswered_rpResp s .rp⟩
  · rw [not_exists] at hs
    have h := raisesIll_illegal s
    refine ⟨_, exec_silent_of_not_wellFormed hs hw s, h.ill, h.bitFrame, h.regFrame, h.cpQueue, h.rpQueue, h.agenda,
      h.draws, h.drawCount, h.freeCount, State.illegal_cpResp s, ?_⟩
    cases i with
    | sample d => exact absurd rfl (hs d)
    | _ => rfl

/-! ### What a word answers (R70) -/

theorem answers_encode_iff (i : Instr) : Answers (encode i) ↔ i.op = .sample ∨ i.op = .rdReg := by
  have hcode : ∀ o : Op, codeOfOp o = 0x04#8 ∨ codeOfOp o = 0x07#8 ↔ o = .sample ∨ o = .rdReg := by
    intro o
    cases o <;> decide
  rw [← hcode, ← opField_encode]
  rfl

/-- `SAMPLE` and `RD_REG` answer one word on the port that admits them, and none on the other. -/
theorem exec_responses_of_answers {i : Instr} {p : Port} (hlegal : i.Legal p) (h : Answers (encode i)) (s : State) :
    ∃ t v, exec i s = .next t ∧ t.responses p = s.responses p ++ [v] ∧
      ∀ q : Port, q ≠ p → t.responses q = s.responses q := by
  obtain ⟨hw, hp⟩ := hlegal
  rw [answers_encode_iff] at h
  cases i with
  | sample d =>
    obtain rfl : p = .rp := beq_iff_eq.1 hp
    refine ⟨_, _, exec_sample hw s, sampleLegal_rpResp d s, fun q hq => ?_⟩
    cases q with
    | cp => exact sampleLegal_cpResp d s
    | rp => exact absurd rfl hq
  | rdReg r =>
    obtain rfl : p = .cp := beq_iff_eq.1 hp
    exact ⟨_, _, exec_rdReg r s, (State.responses_respond s .cp .cp _).trans (if_pos rfl),
      fun q hq => (State.responses_respond s .cp q _).trans (if_neg hq)⟩
  | _ => exact absurd h (by simp [Instr.op])

/-- Every other command answers nothing. -/
theorem exec_responses_of_not_answers {i : Instr} (hw : i.wellFormed = true) (h : ¬Answers (encode i)) (s : State) :
    ∃ t, exec i s = .next t ∧ ∀ q : Port, t.responses q = s.responses q := by
  rw [answers_encode_iff] at h
  cases i with
  | nop => exact ⟨s, exec_nop s, fun _ => rfl⟩
  | noteOn d => exact ⟨_, exec_noteOn hw s, State.responses_congr rfl rfl⟩
  | noteOff d => exact ⟨_, exec_noteOff hw s, State.responses_congr rfl rfl⟩
  | setFreq d => exact ⟨_, exec_setFreq hw s, State.responses_congr rfl rfl⟩
  | ldPreset p => exact ⟨_, exec_ldPreset p s, State.responses_congr rfl rfl⟩
  | wrCfg g d =>
    obtain ⟨hg, hd⟩ := (Bool.and_eq_true _ _).mp hw
    exact ⟨_, exec_wrCfg hg hd s, State.responses_congr rfl rfl⟩
  | sample d => exact absurd (.inl rfl) h
  | rdReg r => exact absurd (.inr rfl) h

/-- Settles O13: an illegal word answers 0 where its opcode answers; a word that decodes answers as its command does. -/
theorem responsesPerCommand : Obligations.ResponsesPerCommand := by
  unfold Obligations.ResponsesPerCommand
  intro p w s
  cases hdec : decode p w with
  | error e =>
    obtain ⟨hown, hother⟩ := responses_illegalWord p w s
    refine ⟨_, runWord_error hdec s, ?_, hother⟩
    split_ifs at hown ⊢
    · exact ⟨0#64, hown, fun _ => rfl⟩
    · exact hown
  | ok i =>
    obtain ⟨rfl, hlegal⟩ := decodedWordIsTheCommandsWord p w i hdec
    rw [runWord_ok hdec]
    split_ifs with h
    · obtain ⟨t, v, hexec, hown, hother⟩ := exec_responses_of_answers hlegal h s
      exact ⟨t, hexec, ⟨v, hown, fun ⟨_, he⟩ => by cases he⟩, hother⟩
    · obtain ⟨t, hexec, hall⟩ := exec_responses_of_not_answers hlegal.1 h s
      exact ⟨t, hexec, hall p, fun q _ => hall q⟩

end Sys2Proof.Machine
end

section
/-! SUPPORT. Decimal literals (30_encoding.md R88): the conversion is one rounding of the literal's exact value. -/

namespace Sys2Proof.Machine

/-- A magnitude given in whole units of 2^-1074. -/
theorem exactValue_units (neg : Bool) (n den : Nat) :
    exactValue neg (n * 2 ^ 1074) den = signFactor neg * ((n : ℚ) / den) := by
  rw [exactValue, Nat.cast_mul, Nat.cast_pow, Nat.cast_ofNat]
  generalize hu : (2 : ℚ) ^ 1074 = u
  have hu0 : u ≠ 0 := hu ▸ pow_ne_zero _ two_ne_zero
  field_simp

/-- Settles O58: for either sign of the exponent the literal is rounded once, from its exact value. -/
theorem literalsAreNearest : Obligations.LiteralsAreNearest := by
  unfold Obligations.LiteralsAreNearest
  intro neg digits e hf
  cases e with
  | ofNat k =>
    have hval : exactValue neg (digits * 10 ^ k * 2 ^ 1074) 1 =
        signFactor neg * digits * (10 : ℚ) ^ (Int.ofNat k) := by
      rw [exactValue_units, Int.ofNat_eq_natCast, zpow_natCast]
      push_cast
      ring
    exact hval ▸ roundTo_isNearestEven Nat.one_pos hf
  | negSucc k =>
    have hval : exactValue neg (digits * 2 ^ 1074) (10 ^ (k + 1)) =
        signFactor neg * digits * (10 : ℚ) ^ (Int.negSucc k) := by
      rw [exactValue_units, zpow_negSucc]
      push_cast
      ring
    exact hval ▸ roundTo_isNearestEven (pow_pos (by decide) _) hf

end Sys2Proof.Machine
end

section
/-! SUPPORT. What `NOTE_ON` and `NOTE_OFF` write (40_envelope.md R90, R91). -/

namespace Sys2Proof.Machine

/-- Settles O17: bits 0 and 1 of `FLAGS` are set and the others kept. -/
theorem noteOnEffect : Obligations.NoteOnEffect := by
  unfold Obligations.NoteOnEffect
  intro d s hd
  refine ⟨_, exec_noteOn hd s, rfl, ?_, ?_, fun j hj => ?_, fun i hi => ?_, rfl⟩
  · exact (getLsbD_flagsNoteOn s.regs.flags 0).trans (Bool.or_true _)
  · exact (getLsbD_flagsNoteOn s.regs.flags 1).trans (Bool.or_true _)
  · have hj2 : ¬j < 2 := fun h => hj (by interval_cases j <;> decide)
    exact (getLsbD_flagsNoteOn s.regs.flags j).trans (by rw [decide_eq_false hj2, Bool.or_false])
  · obtain ⟨hon, hi⟩ := List.ne_and_not_mem_of_not_mem_cons hi
    exact regRead_noteOn s.regs d hon (List.ne_of_not_mem_cons hi)

/-- Settles O18: bit 0 of `FLAGS` is cleared and the others, `TRIG` among them, kept. -/
theorem noteOffEffect : Obligations.NoteOffEffect := by
  unfold Obligations.NoteOffEffect
  intro d s hd
  refine ⟨_, exec_noteOff hd s, rfl, ?_, fun j hj => ?_, fun i hi => ?_, rfl⟩
  · exact (getLsbD_flagsNoteOff s.regs.flags 0).trans (Bool.and_false _)
  · have hj0 : j ≠ 0 := List.ne_of_not_mem_cons hj
    exact (getLsbD_flagsNoteOff s.regs.flags j).trans (by rw [decide_eq_true hj0, Bool.and_true])
  · obtain ⟨hoff, hi⟩ := List.ne_and_not_mem_of_not_mem_cons hi
    exact regRead_noteOff s.regs d hoff (List.ne_of_not_mem_cons hi)

end Sys2Proof.Machine
end

section
/-! SUPPORT. The phases of `EnvAmp` and its floor (40_envelope.md R92 to R101), in any arithmetic. -/

namespace Sys2Proof.Machine

section
variable {V : Type} (ar : Arith V) {r : Regs V} {life t : V}

/-- Attack with `A = 0` (R96). -/
theorem heldAmp_of_attack_zero (hl : ar.le life r.envAttack = true) (h0 : ar.eq r.envAttack ar.zero = true) :
    (ar.heldAmp r life).val = if ar.lt life ar.zero then ar.zero else r.envStart := by
  rw [Arith.heldAmp, if_pos hl, Arith.attack, if_pos h0]

/-- Attack with `A` not 0 (R95). -/
theorem heldAmp_of_attack (hl : ar.le life r.envAttack = true) (h0 : ¬ar.eq r.envAttack ar.zero = true) :
    (ar.heldAmp r life).val = (ar.ramp life r.envAttack ar.zero r.envStart).val := by
  rw [Arith.heldAmp, if_pos hl, Arith.attack, if_neg h0]

/-- Decay (R97). -/
theorem heldAmp_of_decay (hl : ¬ar.le life r.envAttack = true)
    (htop : ar.le life (ar.add r.envAttack r.envDecay) = true) :
    (ar.heldAmp r life).val =
      (ar.ramp (ar.sub life r.envAttack) r.envDecay r.envStart r.envSustain).val := by
  simp only [Arith.heldAmp, if_neg hl, if_pos htop, Arith.decay]

/-- Sustain (R98). -/
theorem heldAmp_of_sustain (hl : ¬ar.le life r.envAttack = true)
    (htop : ¬ar.le life (ar.add r.envAttack r.envDecay) = true) : (ar.heldAmp r life).val = r.envSustain := by
  simp only [Arith.heldAmp, if_neg hl, if_neg htop]

/-- Release with `R = 0` (R99). -/
theorem releasedAmp_of_zero (h0 : ar.eq r.envRelease ar.zero = true) :
    (ar.releasedAmp r t).val = if ar.lt t r.tOff then r.envSustain else ar.zero := by
  rw [Arith.releasedAmp, if_pos h0]

/-- Release with `R` not 0 (R100). -/
theorem releasedAmp_of_ne_zero (h0 : ¬ar.eq r.envRelease ar.zero = true) :
    (ar.releasedAmp r t).val = (ar.ramp (ar.sub t r.tOff) r.envRelease r.envSustain ar.zero).val := by
  rw [Arith.releasedAmp, if_neg h0]

theorem snap_eq_zero_or_not_le_floor (amp : V) : ar.snap amp = ar.zero ∨ ¬ar.le (ar.snap amp) ar.floor = true := by
  rw [Arith.snap]
  split_ifs with h
  · exact .inl rfl
  · exact .inr h

/-- The floor is the last thing applied (R101): what is not 0 is not at most the floor. -/
theorem envAmp_eq_zero_or_not_le_floor (r : Regs V) (t : V) :
    (ar.envAmp r t).val = ar.zero ∨ ¬ar.le (ar.envAmp r t).val ar.floor = true := by
  cases htrig : trig r with
  | false => exact .inl (envAmp_of_not_trig ar r t htrig)
  | true => rw [Arith.envAmp, if_pos htrig]; exact snap_eq_zero_or_not_le_floor ar _

end

/-- Settles O36: by the comparison of each instantiation. -/
theorem envelopeIsZeroOrAboveTheFloor : Obligations.EnvelopeIsZeroOrAboveTheFloor := by
  unfold Obligations.EnvelopeIsZeroOrAboveTheFloor
  constructor
  · intro r t hf
    rcases envAmp_eq_zero_or_not_le_floor numB64 r t with h | h
    · exact .inl (by rw [h]; exact toRat_zero64)
    · rw [numB64_le, numB64_floor, le64_iff hf isFinite_floor64, not_le] at h
      exact .inr h
  · intro undef r t
    rcases envAmp_eq_zero_or_not_le_floor (numReal undef) r t with h | h
    · exact .inl h
    · rw [numReal_le, numReal_floor, not_le] at h
      exact .inr h

end Sys2Proof.Machine
end

section
/-! SUPPORT. The envelope on the hardware: where its ramps are exact, bit for bit (40_envelope.md R95 to R103). -/

namespace Sys2Proof.Machine

/-! ### Ramps at their ends -/

/-- A rounded value whose exact value is a pattern's own, and not 0, has that pattern. -/
theorem IsNearestEven.eq_pattern {q : ℚ} {d v : Word} (h : IsNearestEven q d) (hv : isFinite v = true)
    (hq : q = toRat v) (h0 : toRat v ≠ 0) : d = v :=
  have hd := h.eq_of_eq hv hq
  eq_of_toRat_eq hd (hd ▸ h0)

theorem add64_eq_of_exact {x y v : Word} (hx : isFinite x = true) (hy : isFinite y = true) (hv : isFinite v = true)
    (h : toRat x + toRat y = toRat v) (h0 : toRat v ≠ 0) : add64 x y = v :=
  (add64_nearest hx hy (add64_isFinite hx hy hv (by rw [h]))).eq_pattern hv h h0

theorem sub64_eq_of_exact {x y v : Word} (hx : isFinite x = true) (hy : isFinite y = true) (hv : isFinite v = true)
    (h : toRat x - toRat y = toRat v) (h0 : toRat v ≠ 0) : sub64 x y = v :=
  (sub64_nearest hx hy (sub64_isFinite hx hy hv (by rw [h]))).eq_pattern hv h h0

theorem mul64_one_left {x : Word} (hx : isFinite x = true) (h0 : toRat x ≠ 0) : mul64 one64 x = x := by
  have h : toRat one64 * toRat x = toRat x := by rw [toRat_one64, one_mul]
  exact (mul64_nearest isFinite_one64 hx (mul64_isFinite isFinite_one64 hx hx (by rw [h]))).eq_pattern hx h h0

theorem div64_self {x : Word} (hx : isFinite x = true) (h0 : toRat x ≠ 0) : div64 x x = one64 := by
  have h : toRat x / toRat x = toRat one64 := by rw [div_self h0, toRat_one64]
  have h1 : toRat one64 ≠ 0 := by rw [toRat_one64]; exact one_ne_zero
  exact (div64_nearest hx hx h0 (div64_isFinite hx hx h0 isFinite_one64 (by rw [h]))).eq_pattern isFinite_one64 h h1

/-- A ramp from 0 is exactly at its end after its duration (R95): the quotient is 1, which a product drops. -/
theorem ramp_at_duration {dur b : Word} (hdur : isFinite dur = true) (hdur0 : toRat dur ≠ 0) (hb : isFinite b = true)
    (hb0 : toRat b ≠ 0) : (numB64.ramp dur dur zero64 b).val = b := by
  rw [numB64_ramp, rampValue, div64_self hdur hdur0,
    sub64_eq_of_exact hb isFinite_zero64 hb (by rw [toRat_zero64, sub_zero]) hb0, mul64_one_left hb hb0]
  exact add64_eq_of_exact hb isFinite_zero64 hb (by rw [toRat_zero64, add_zero]) hb0

/-- A difference of a value with itself is 0. -/
theorem sub64_self {x : Word} (hx : isFinite x = true) : isFinite (sub64 x x) = true ∧ toRat (sub64 x x) = 0 := by
  have h0 : toRat x - toRat x = toRat zero64 := by rw [sub_self, toRat_zero64]
  have hf := sub64_isFinite hx hx isFinite_zero64 (by rw [h0])
  exact ⟨hf, ((sub64_nearest hx hx hf).eq_of_eq isFinite_zero64 h0).trans toRat_zero64⟩

/-- A quotient with dividend 0 is 0. -/
theorem div64_of_left_zero {x y : Word} (hx : isFinite x = true) (hy : isFinite y = true) (hx0 : toRat x = 0)
    (hy0 : toRat y ≠ 0) : isFinite (div64 x y) = true ∧ toRat (div64 x y) = 0 := by
  have h0 : toRat x / toRat y = toRat zero64 := by rw [hx0, zero_div, toRat_zero64]
  have hf := div64_isFinite hx hy hy0 isFinite_zero64 (by rw [h0])
  exact ⟨hf, ((div64_nearest hx hy hy0 hf).eq_of_eq isFinite_zero64 h0).trans toRat_zero64⟩

/-- A ramp to 0 is exactly at its start at time 0 (R100): the quotient and the product are 0. -/
theorem ramp_at_zero {x dur a : Word} (hx : isFinite x = true) (hx0 : toRat x = 0) (hdur : isFinite dur = true)
    (hdur0 : toRat dur ≠ 0) (ha : isFinite a = true) (ha0 : toRat a ≠ 0) :
    (numB64.ramp x dur a zero64).val = a := by
  obtain ⟨hq, hq0⟩ := div64_of_left_zero hx hdur hx0 hdur0
  have hd : isFinite (sub64 zero64 a) = true :=
    sub64_isFinite isFinite_zero64 ha ha (by rw [toRat_zero64, zero_sub, abs_neg])
  have hp : isFinite (mul64 (div64 x dur) (sub64 zero64 a)) = true :=
    mul64_isFinite hq hd isFinite_zero64 (by rw [hq0, zero_mul, toRat_zero64])
  rw [numB64_ramp, rampValue]
  exact add64_eq_of_exact hp ha ha (by rw [toRat_mul64_of_left_zero hp hq0, zero_add]) ha0

/-! ### The envelope -/

theorem ne_zero_of_floor_lt {x : Word} (h : toRat floor64 < toRat x) : toRat x ≠ 0 :=
  (toRat_floor64_pos.trans h).ne'

/-- A duration's test for 0 is by value (R14). -/
theorem eq64_zero_iff {x : Word} (hx : isFinite x = true) : numB64.eq x numB64.zero = true ↔ toRat x = 0 := by
  rw [numB64_zero, eq64_iff hx isFinite_zero64, toRat_zero64]

/-- Settles O38: at `life = A` the attack's ramp is at its end. -/
theorem attackEndsExactlyAtStart : Obligations.AttackEndsExactlyAtStart := by
  unfold Obligations.AttackEndsExactlyAtStart
  intro r t htrig hheld ⟨hattack, _, _, _, hstart, _⟩ hlife hA hP
  obtain ⟨hAf, -⟩ := (nonNegOk_iff _).1 hattack
  obtain ⟨hPf, -⟩ := (unitOk_iff _).1 hstart
  have hle : numB64.le r.envAttack r.envAttack = true := (le64_iff hAf hAf).2 le_rfl
  have hne : ¬numB64.eq r.envAttack numB64.zero = true := mt (eq64_zero_iff hAf).1 hA.ne'
  rw [envAmp_of_held numB64 r t htrig hheld, numB64_sub, hlife, heldAmp_of_attack numB64 hle hne, numB64_zero,
    ramp_at_duration hAf hA.ne' hPf (ne_zero_of_floor_lt hP)]
  exact snap_of_floor_lt hPf hP

/-- Settles O39: with a duration of 0 the phase is one comparison, and the floor is applied to what it chooses. -/
theorem zeroDurationRamps : Obligations.ZeroDurationRamps := by
  unfold Obligations.ZeroDurationRamps
  constructor
  · intro r t htrig hheld hAf hlf hA
    have henv (hle : toRat (sub64 t r.tOn) ≤ 0) :
        (numB64.envAmp r t).val = numB64.snap (if lt64 (sub64 t r.tOn) zero64 then zero64 else r.envStart) := by
      rw [envAmp_of_held numB64 r t htrig hheld, numB64_sub,
        heldAmp_of_attack_zero numB64 ((le64_iff hlf hAf).2 (hle.trans hA.ge)) ((eq64_zero_iff hAf).2 hA)]
      rfl
    have hlt : lt64 (sub64 t r.tOn) zero64 = true ↔ toRat (sub64 t r.tOn) < 0 := by
      rw [lt64_iff hlf isFinite_zero64, toRat_zero64]
    constructor
    · intro h
      rw [henv h.le, if_neg (mt hlt.1 h.not_lt)]
      rfl
    · intro h
      rw [henv h.le, if_pos (hlt.2 h)]
      exact snap_zero64
  · intro r t htrig hheld hRf htf hoff hR
    have henv : (numB64.envAmp r t).val = numB64.snap (if lt64 t r.tOff then r.envSustain else zero64) := by
      rw [envAmp_of_released numB64 r t htrig hheld, releasedAmp_of_zero numB64 ((eq64_zero_iff hRf).2 hR)]
      rfl
    constructor
    · intro h
      rw [henv, if_pos ((lt64_iff htf hoff).2 h)]
      rfl
    · intro h
      rw [henv, if_neg (mt (lt64_iff htf hoff).1 h.not_gt)]
      exact snap_zero64

/-- Settles O42: at `t = T_OFF` the release's ramp is at its start. -/
theorem releaseStartsExactlyAtSustain : Obligations.ReleaseStartsExactlyAtSustain := by
  unfold Obligations.ReleaseStartsExactlyAtSustain
  intro r htrig hheld ⟨_, _, hsustain, hrelease, _, _⟩ hoff hR hS
  obtain ⟨hSf, -⟩ := (unitOk_iff _).1 hsustain
  obtain ⟨hRf, -⟩ := (nonNegOk_iff _).1 hrelease
  obtain ⟨hxf, hx0⟩ := sub64_self hoff
  have hne : ¬numB64.eq r.envRelease numB64.zero = true := mt (eq64_zero_iff hRf).1 hR.ne'
  rw [envAmp_of_released numB64 r _ htrig hheld, releasedAmp_of_ne_zero numB64 hne, numB64_sub, numB64_zero,
    ramp_at_zero hxf hx0 hRf hR.ne' hSf (ne_zero_of_floor_lt hS)]
  exact snap_of_floor_lt hSf hS

/-- Adding a value that is not negative does not round to less. -/
theorem toRat_le_add64 {x y : Word} (hx : isFinite x = true) (hy : isFinite y = true)
    (hf : isFinite (add64 x y) = true) (hy0 : 0 ≤ toRat y) : toRat x ≤ toRat (add64 x y) :=
  (add64_nearest hx hy hf).ge_of_ge hx (le_add_of_nonneg_right hy0)

/-- Past the rounded `A + D` a held note is at `S`, on the hardware. -/
theorem numB64_envAmp_of_sustain {r : Regs Word} {t : Word} (htrig : trig r = true) (hheld : held r = true)
    (hc : r.ConfigInv) (hlf : isFinite (sub64 t r.tOn) = true) (htf : isFinite (add64 r.envAttack r.envDecay) = true)
    (htop : toRat (add64 r.envAttack r.envDecay) < toRat (sub64 t r.tOn)) (hS : toRat floor64 < toRat r.envSustain) :
    (numB64.envAmp r t).val = r.envSustain := by
  obtain ⟨hattack, hdecay, hsustain, -, -, -⟩ := hc
  obtain ⟨hAf, -⟩ := (nonNegOk_iff _).1 hattack
  obtain ⟨hDf, hD0⟩ := (nonNegOk_iff _).1 hdecay
  obtain ⟨hSf, -⟩ := (unitOk_iff _).1 hsustain
  have hA := (toRat_le_add64 hAf hDf htf hD0).trans_lt htop
  rw [envAmp_of_held numB64 r t htrig hheld, numB64_sub,
    heldAmp_of_sustain numB64 (mt (le64_iff hlf hAf).1 hA.not_ge) (mt (le64_iff hlf htf).1 htop.not_ge)]
  exact snap_of_floor_lt hSf hS

end Sys2Proof.Machine
end

section
/-! SUPPORT. The envelope in the reals: each phase as a ramp, its bounds, and its end (40_envelope.md R95 to R103). -/

namespace Sys2Proof.Machine

section
variable (undef : ℝ → ℝ → ℝ)

/-- The floor in the reals (R101). -/
theorem numReal_snap (x : ℝ) : (numReal undef).snap x = if x ≤ 1 / 10000 then 0 else x := by
  rw [Arith.snap]
  simp only [numReal_le, numReal_floor, numReal_zero]

/-- The ramp in the reals (R19). -/
theorem numReal_ramp (x dur a b : ℝ) : ((numReal undef).ramp x dur a b).val = x / dur * (b - a) + a := rfl

theorem numReal_snap_of_floor_lt {x : ℝ} (h : 1 / 10000 < x) : (numReal undef).snap x = x := by
  rw [numReal_snap, if_neg h.not_ge]

theorem numReal_snap_of_le_floor {x : ℝ} (h : x ≤ 1 / 10000) : (numReal undef).snap x = 0 := by
  rw [numReal_snap, if_pos h]

/-- The floor raises no value above a bound that is not negative. -/
theorem numReal_snap_le {x m : ℝ} (hx : x ≤ m) (hm : 0 ≤ m) : (numReal undef).snap x ≤ m := by
  rw [numReal_snap]
  split_ifs
  · exact hm
  · exact hx

/-- Up to its end a rising ramp does not exceed its end, however early the time. -/
theorem numReal_ramp_le_end {x dur a b : ℝ} (hx : x / dur ≤ 1) (hab : a ≤ b) :
    ((numReal undef).ramp x dur a b).val ≤ b := by
  rw [numReal_ramp]
  linarith [mul_le_of_le_one_left (sub_nonneg.2 hab) hx]

/-- From its start on a falling ramp does not exceed its start, however late the time. -/
theorem numReal_ramp_le_start {x dur a b : ℝ} (hx : 0 ≤ x / dur) (hba : b ≤ a) :
    ((numReal undef).ramp x dur a b).val ≤ a := by
  rw [numReal_ramp]
  linarith [mul_nonneg hx (sub_nonneg.2 hba)]

variable {r : Regs ℝ} {life t : ℝ}

theorem numReal_heldAmp_of_attack (hA : 0 < r.envAttack) (hl : life ≤ r.envAttack) :
    ((numReal undef).heldAmp r life).val = ((numReal undef).ramp life r.envAttack 0 r.envStart).val :=
  heldAmp_of_attack _ ((numReal_le undef _ _).2 hl) (mt (numReal_eq undef _ _).1 hA.ne')

theorem numReal_heldAmp_of_decay (hl : r.envAttack < life) (htop : life ≤ r.envAttack + r.envDecay) :
    ((numReal undef).heldAmp r life).val =
      ((numReal undef).ramp (life - r.envAttack) r.envDecay r.envStart r.envSustain).val :=
  heldAmp_of_decay _ (mt (numReal_le undef _ _).1 hl.not_ge) ((numReal_le undef _ _).2 htop)

theorem numReal_heldAmp_of_sustain (hl : r.envAttack < life) (htop : r.envAttack + r.envDecay < life) :
    ((numReal undef).heldAmp r life).val = r.envSustain :=
  heldAmp_of_sustain _ (mt (numReal_le undef _ _).1 hl.not_ge) (mt (numReal_le undef _ _).1 htop.not_ge)

theorem numReal_releasedAmp_of_pos (hR : 0 < r.envRelease) :
    ((numReal undef).releasedAmp r t).val = ((numReal undef).ramp (t - r.tOff) r.envRelease r.envSustain 0).val :=
  releasedAmp_of_ne_zero _ (mt (numReal_eq undef _ _).1 hR.ne')

/-- With `R = 0` the release is silent from the note-off on (R99). -/
theorem numReal_releasedAmp_of_zero (hR : 0 = r.envRelease) (ht : r.tOff ≤ t) :
    ((numReal undef).releasedAmp r t).val = 0 := by
  rw [releasedAmp_of_zero _ ((numReal_eq undef _ _).2 hR.symm), if_neg (mt (numReal_lt undef _ _).1 ht.not_gt),
    numReal_zero]

/-- Attack, with or without a duration, does not exceed `P`. -/
theorem numReal_heldAmp_attack_le (hA : 0 ≤ r.envAttack) (hP : 0 ≤ r.envStart) (hl : life ≤ r.envAttack) :
    ((numReal undef).heldAmp r life).val ≤ r.envStart := by
  rcases hA.eq_or_lt with h0 | hpos
  · rw [heldAmp_of_attack_zero _ ((numReal_le undef _ _).2 hl) ((numReal_eq undef _ _).2 h0.symm)]
    split_ifs
    · exact hP
    · exact le_rfl
  · rw [numReal_heldAmp_of_attack undef hpos hl]
    exact numReal_ramp_le_end undef ((div_le_one hpos).2 hl) hP

/-- Decay stays between `P` and `S`, whichever is the greater. -/
theorem numReal_heldAmp_decay_le (hl : r.envAttack < life) (htop : life ≤ r.envAttack + r.envDecay) :
    ((numReal undef).heldAmp r life).val ≤ max r.envStart r.envSustain := by
  have hx : 0 < life - r.envAttack := sub_pos.2 hl
  have hxD : life - r.envAttack ≤ r.envDecay := sub_le_iff_le_add'.2 htop
  have hD := hx.trans_le hxD
  rw [numReal_heldAmp_of_decay undef hl htop]
  rcases le_total r.envStart r.envSustain with h | h
  · exact (numReal_ramp_le_end undef ((div_le_one hD).2 hxD) h).trans (le_max_right _ _)
  · exact (numReal_ramp_le_start undef (div_pos hx hD).le h).trans (le_max_left _ _)

theorem numReal_heldAmp_le (hA : 0 ≤ r.envAttack) (hP : 0 ≤ r.envStart) (life : ℝ) :
    ((numReal undef).heldAmp r life).val ≤ max r.envStart r.envSustain := by
  rcases le_or_gt life r.envAttack with hl | hl
  · exact (numReal_heldAmp_attack_le undef hA hP hl).trans (le_max_left _ _)
  · rcases le_or_gt life (r.envAttack + r.envDecay) with htop | htop
    · exact numReal_heldAmp_decay_le undef hl htop
    · rw [numReal_heldAmp_of_sustain undef hl htop]
      exact le_max_right _ _

/-- From the note-off on the release does not exceed `S`. -/
theorem numReal_releasedAmp_le (hR : 0 ≤ r.envRelease) (hS : 0 ≤ r.envSustain) (ht : r.tOff ≤ t) :
    ((numReal undef).releasedAmp r t).val ≤ r.envSustain := by
  rcases hR.eq_or_lt with h0 | hpos
  · rw [numReal_releasedAmp_of_zero undef h0 ht]
    exact hS
  · rw [numReal_releasedAmp_of_pos undef hpos]
    exact numReal_ramp_le_start undef (div_nonneg (sub_nonneg.2 ht) hR) hS

/-- From `T_OFF + R` on the release is at 0 or below (R103 P3). -/
theorem numReal_releasedAmp_nonpos (hR : 0 ≤ r.envRelease) (hS : 0 ≤ r.envSustain)
    (ht : r.tOff + r.envRelease ≤ t) : ((numReal undef).releasedAmp r t).val ≤ 0 := by
  rcases hR.eq_or_lt with h0 | hpos
  · rw [numReal_releasedAmp_of_zero undef h0 (by linarith)]
  · have hx : 1 ≤ (t - r.tOff) / r.envRelease := (one_le_div hpos).2 (by linarith)
    rw [numReal_releasedAmp_of_pos undef hpos, numReal_ramp]
    linarith [le_mul_of_one_le_left hS hx]

end

/-- Settles O37: each phase is below its bound, which is not negative, so the floor and silence are too. -/
theorem envelopeUpperBounds : Obligations.EnvelopeUpperBounds := by
  unfold Obligations.EnvelopeUpperBounds
  intro undef r t hA _ hR hS _ hP _
  have hmax : 0 ≤ max r.envStart r.envSustain := hP.trans (le_max_left _ _)
  cases htrig : trig r with
  | false =>
    rw [envAmp_of_not_trig _ r t htrig]
    exact ⟨fun _ => hmax, fun _ _ => hS⟩
  | true =>
    constructor
    · intro hheld
      rw [envAmp_of_held _ r t htrig hheld]
      exact numReal_snap_le undef (numReal_heldAmp_le undef hA hP _) hmax
    · intro hheld ht
      rw [envAmp_of_released _ r t htrig hheld]
      exact numReal_snap_le undef (numReal_releasedAmp_le undef hR hS ht) hS

/-- Settles O40: `life` is past `A` too, so the phase is the sustain, and the floor leaves it alone. -/
theorem sustainIsExact : Obligations.SustainIsExact := by
  unfold Obligations.SustainIsExact
  refine ⟨fun r t => numB64_envAmp_of_sustain, fun undef r t htrig hheld hD htop hS => ?_⟩
  have hA : r.envAttack < t - r.tOn := (le_add_of_nonneg_right hD).trans_lt htop
  rw [envAmp_of_held _ r t htrig hheld, numReal_sub, numReal_heldAmp_of_sustain undef hA htop]
  exact numReal_snap_of_floor_lt undef hS

/-- Settles O41: each phase is its ramp with the floor applied, and the decay's ramp ends at `S`. -/
theorem attackAndDecayAreLinear : Obligations.AttackAndDecayAreLinear := by
  unfold Obligations.AttackAndDecayAreLinear
  intro undef r t htrig hheld
  rw [envAmp_of_held _ r t htrig hheld, numReal_sub]
  refine ⟨fun hA hl => ?_, fun hl htop => ?_, fun hD hend hS => ?_⟩
  · rw [numReal_heldAmp_of_attack undef hA hl, numReal_ramp, sub_zero, add_zero, numReal_snap]
  · rw [numReal_heldAmp_of_decay undef hl htop, numReal_ramp, numReal_snap]
  · have hl : r.envAttack < t - r.tOn := hend ▸ lt_add_of_pos_right _ hD
    rw [numReal_heldAmp_of_decay undef hl hend.le, numReal_ramp, hend, add_sub_cancel_left, div_self hD.ne', one_mul,
      sub_add_cancel, numReal_snap_of_floor_lt undef hS]

/-- Settles O43: the release is its ramp with the floor applied, above `S` before the note-off, and at 0 or below, so
silenced by the floor, from its end on. -/
theorem releaseEndsInSilence : Obligations.ReleaseEndsInSilence := by
  unfold Obligations.ReleaseEndsInSilence
  intro undef r t hheld
  have hramp (htrig : trig r = true) (hR : 0 < r.envRelease) : ((numReal undef).envAmp r t).val =
      (numReal undef).snap ((t - r.tOff) / r.envRelease * (0 - r.envSustain) + r.envSustain) := by
    rw [envAmp_of_released _ r t htrig hheld, numReal_releasedAmp_of_pos undef hR, numReal_ramp]
  refine ⟨fun htrig hR => ?_, fun htrig hR hS ht => ?_, fun hR hS ht => ?_⟩
  · rw [hramp htrig hR, numReal_snap]
  · have hx : (t - r.tOff) / r.envRelease < 0 := div_neg_of_neg_of_pos (sub_neg.2 ht) hR
    have habove : r.envSustain < (t - r.tOff) / r.envRelease * (0 - r.envSustain) + r.envSustain :=
      lt_add_of_pos_left _ (mul_pos_of_neg_of_neg hx (by linarith))
    rw [hramp htrig hR, numReal_snap_of_floor_lt undef (hS.trans_lt habove)]
    exact habove
  · cases htrig : trig r with
    | false => exact envAmp_of_not_trig _ r t htrig
    | true =>
      rw [envAmp_of_released _ r t htrig hheld]
      exact numReal_snap_of_le_floor undef ((numReal_releasedAmp_nonpos undef hR hS ht).trans (by norm_num))

end Sys2Proof.Machine
end

section
/-! SUPPORT. The oscillator on the hardware and in any arithmetic: the DSAW fault of a `SAMPLE` (60_exceptions.md R152),
the Square, and the phase without vibrato (41_oscillator.md R106, R107, R109). -/

namespace Sys2Proof.Machine

/-- Settles O25: a `SAMPLE` raises what its mix reports, and the mix reports the slots that violate the contract. -/
theorem dsawIsRaisedExactly : Obligations.DsawIsRaisedExactly := by
  unfold Obligations.DsawIsRaisedExactly
  intro d s t hd ht
  obtain rfl : sampleLegal d s = t := Host.Outcome.next.inj ((exec_sample hd s).symm.trans ht)
  rw [sampleLegal_regs, dsaw_afterSample, Bool.or_eq_true, sample_dsaw]
  rfl

/-! ### The Square (R109) -/

section
variable {V : Type} (ar : Arith V) (f t vd vr : V)

/-- The Square compares the Sine with 0 (R109). -/
theorem square_val :
    (ar.square f t vd vr).val = if ar.lt ar.zero (ar.sine f t vd vr).val then ar.one else ar.negOne := rfl

theorem square_eq_one_or_negOne : (ar.square f t vd vr).val = ar.one ∨ (ar.square f t vd vr).val = ar.negOne := by
  rw [square_val]
  exact ite_eq_or_eq _ _ _

theorem square_eq_one_iff (h : ar.negOne ≠ ar.one) :
    (ar.square f t vd vr).val = ar.one ↔ ar.lt ar.zero (ar.sine f t vd vr).val = true := by
  rw [square_val]
  split_ifs with hpos
  · exact iff_of_true rfl hpos
  · exact iff_of_false h hpos

end

theorem numReal_negOne (undef : ℝ → ℝ → ℝ) : (numReal undef).negOne = -1 := zero_sub 1

/-- Settles O44: the Square is chosen by the sign of the Sine, which the comparison reads by value. -/
theorem squareIsPlusOrMinusOne : Obligations.SquareIsPlusOrMinusOne := by
  unfold Obligations.SquareIsPlusOrMinusOne
  refine ⟨fun f t vd vr => ⟨?_, fun hph => ?_⟩, fun undef f t vd vr => ⟨?_, ?_⟩⟩
  · have h := square_eq_one_or_negOne numB64 f t vd vr
    rwa [numB64_negOne] at h
  · have hsin := (sin64_bounds hph).1
    have hlt := lt64_iff isFinite_zero64 hsin
    rw [toRat_zero64] at hlt
    exact (square_eq_one_iff numB64 f t vd vr (by rw [numB64_negOne]; decide)).trans hlt
  · have h := square_eq_one_or_negOne (numReal undef) f t vd vr
    rwa [numReal_negOne] at h
  · have h := square_eq_one_iff (numReal undef) f t vd vr (by rw [numReal_negOne, numReal_one]; norm_num)
    rwa [numReal_lt, numReal_sine, numReal_phase] at h

/-! ### The phase without vibrato (R107) -/

theorem isZero64_iff {x : Word} (hx : isFinite x = true) : isZero64 x = true ↔ toRat x = 0 := by
  rw [← numB64_eq_zero64]
  exact eq64_zero_iff hx

/-- With a depth that is not 0 no hardware skips the vibrato term. -/
theorem phaseValue_of_depth {vd : Word} (hvd : isFinite vd = true) (h0 : toRat vd ≠ 0) (f t vr : Word) :
    phaseValue f t vd vr = add64 (mul64 (mul64 twoPi64 f) t) (vibratoTerm f t vd vr) := by
  have hskip : skipsTerm f t vd vr ≠ true := by
    rw [skipsTerm, ne_eq, Bool.and_eq_true, isZero64_iff hvd]
    exact fun h => h0 h.1
  rw [phaseValue, if_neg hskip]

/-- The full formula of the phase, where it is finite, has the value of its first term at depth 0: the vibrato term is a
product with a factor of value 0. -/
theorem toRat_add64_vibratoTerm {p f t vd vr : Word} (h0 : toRat vd = 0)
    (hf : isFinite (add64 p (vibratoTerm f t vd vr)) = true) : toRat (add64 p (vibratoTerm f t vd vr)) = toRat p := by
  obtain ⟨hp, hterm⟩ := isFinite_of_add64 hf
  have hdepth : toRat (mul64 vd f) = 0 := toRat_mul64_of_left_zero (isFinite_of_mul64 hterm).1 h0
  have hterm0 : toRat (vibratoTerm f t vd vr) = 0 := toRat_mul64_of_left_zero hterm hdepth
  exact (add64_nearest hp hterm hf).eq_of_eq hp (by rw [hterm0, add_zero])

theorem toRat_phaseValue_of_no_depth {f t vd vr : Word} (h0 : toRat vd = 0)
    (hf : isFinite (phaseValue f t vd vr) = true) :
    toRat (phaseValue f t vd vr) = toRat (mul64 (mul64 twoPi64 f) t) := by
  rw [phaseValue] at hf ⊢
  split_ifs at hf ⊢
  · rfl
  · exact toRat_add64_vibratoTerm h0 hf

/-- The phase is one of the values it computes. -/
theorem phaseValue_mem_phaseOps (f t vd vr : Word) : phaseValue f t vd vr ∈ phaseOps f t vd vr := by
  by_cases h : skipsTerm f t vd vr = true <;> simp [phaseOps, phaseValue, h]

theorem numReal_phase_no_depth (undef : ℝ → ℝ → ℝ) (f t vr : ℝ) :
    ((numReal undef).phase f t 0 vr).val = 2 * Real.pi * f * t := by
  rw [numReal_phase, zero_mul, zero_mul, add_zero]

/-- Settles O51: the two instantiations of the formula; at depth 0 its second term has value 0. -/
theorem noVibratoPhase : Obligations.NoVibratoPhase := by
  unfold Obligations.NoVibratoPhase
  refine ⟨numReal_phase, fun f t vd vr hvd h0 => ?_, numReal_phase_no_depth,
    fun f t vd vr _ h0 _ _ _ hops => ?_⟩
  · exact (numB64_phase f t vd vr).1.trans (phaseValue_of_depth hvd h0 f t vr)
  · rw [(numB64_phase f t vd vr).1]
    exact toRat_phaseValue_of_no_depth h0 (hops _ (phaseValue_mem_phaseOps f t vd vr))

end Sys2Proof.Machine
end

section
/-! SUPPORT. The six waves in the reals: each in closed form, its range, its period, and what it is at frequency 0 and
at the opposite frequency (41_oscillator.md R105 to R119). -/

namespace Sys2Proof.Machine

open Sys2Proof.Laws.AnalogSaw (sawSeries sawSeries_neg sawSeries_sub_turns abs_sawSeries_le sawSeries_peak_bounds)

/-! ### The dispatch (R105) -/

section
variable {V : Type} (ar : Arith V) (f t vd vr draw : V)

@[simp] theorem osc_sine : ar.osc .sine f t vd vr draw = ar.sine f t vd vr := rfl
@[simp] theorem osc_square : ar.osc .square f t vd vr draw = ar.square f t vd vr := rfl
@[simp] theorem osc_triangle : ar.osc .triangle f t vd vr draw = ar.triangle f t vd vr := rfl
@[simp] theorem osc_analogSaw : ar.osc .analogSaw f t vd vr draw = ar.analogSaw f t vd vr := rfl
@[simp] theorem osc_noise_val : (ar.osc .noise f t vd vr draw).val = draw := rfl

theorem osc_digitalSaw (h : ¬ar.le f ar.zero = true) : ar.osc .digitalSaw f t vd vr draw = ar.digitalSaw f t :=
  if_neg h

end

section
variable (undef : ℝ → ℝ → ℝ)

theorem numReal_osc_digitalSaw {f : ℝ} (hf : 0 < f) (t vd vr draw : ℝ) :
    (numReal undef).osc .digitalSaw f t vd vr draw = (numReal undef).digitalSaw f t :=
  osc_digitalSaw _ _ _ _ _ _ (mt (numReal_le undef _ _).1 hf.not_ge)

/-! ### AnalogSaw in closed form (R111) -/

/-- The accumulator of the series after the terms of a list of indices. -/
theorem numReal_foldl_sawTerm (ph : ℝ) (l : List ℕ) (acc : Calc ℝ) :
    (l.foldl ((numReal undef).sawTerm ph) acc).val = acc.val + (l.map fun n : ℕ => Real.sin (n * ph) / n).sum := by
  induction l generalizing acc with
  | nil => exact (add_zero _).symm
  | cons n l ih => rw [List.foldl_cons, ih, List.map_cons, List.sum_cons, ← add_assoc]; rfl

theorem sum_map_sawIndices (g : ℕ → ℝ) : (sawIndices.map g).sum = ∑ n ∈ Finset.Icc (1 : ℕ) 9, g n := by
  rw [sawIndices, ← List.sum_toFinset g (by decide)]
  exact Finset.sum_congr (by decide) fun _ _ => rfl

theorem numReal_analogSaw (f t vd vr : ℝ) :
    ((numReal undef).analogSaw f t vd vr).val = 2 / Real.pi * sawSeries ((numReal undef).phase f t vd vr).val := by
  show (sawIndices.foldl _ _ : Calc ℝ).val * (2 / Real.pi) = _
  rw [numReal_foldl_sawTerm, sum_map_sawIndices, numReal_zero, zero_add, mul_comm]
  rfl

/-! ### DigitalSaw in closed form (R112) -/

/-- The truncated remainder by 1, with 1 added where it is negative, is the floored one. -/
theorem wrapped_truncReal_eq_fract (x : ℝ) :
    (if x - truncReal x < 0 then x - truncReal x + 1 else x - truncReal x) = Int.fract x := by
  rw [truncReal]
  split_ifs with hx hneg hneg
  · exact absurd hneg (not_lt.2 (Int.fract_nonneg x))
  · rfl
  · have hlt : x < ⌈x⌉ := sub_neg.1 hneg
    have hle : (⌈x⌉ : ℝ) < x + 1 := Int.ceil_lt_add_one x
    exact (Int.fract_eq_iff.2 ⟨by linarith, by linarith, ⌈x⌉ - 1, by push_cast; ring⟩).symm
  · have heq : (⌈x⌉ : ℝ) = x := le_antisymm (sub_nonneg.1 (not_lt.1 hneg)) (Int.le_ceil x)
    rw [heq, sub_self, ← heq, Int.fract_intCast]

/-- The remainder of `t` by the period `1/f`, floored by the correction of R112. -/
theorem wrapped_fmod_eq_fract {f : ℝ} (hf : 0 < f) (t : ℝ) :
    (if (numReal undef).fmod t (1 / f) < 0 then (numReal undef).fmod t (1 / f) + 1 / f
      else (numReal undef).fmod t (1 / f)) = Int.fract (t * f) / f := by
  have hm : (numReal undef).fmod t (1 / f) = (t * f - truncReal (t * f)) / f := by
    rw [numReal_fmod, div_div_eq_mul_div, div_one]
    field_simp
  rw [hm, ← wrapped_truncReal_eq_fract, ← add_div, ← ite_div]
  simp only [div_lt_iff₀ hf, zero_mul]

/-- DigitalSaw is a ramp from -1 to 1 over each period (R112). -/
theorem numReal_digitalSaw {f : ℝ} (hf : 0 < f) (t : ℝ) :
    ((numReal undef).digitalSaw f t).val = 2 * Int.fract (t * f) - 1 := by
  have hpi := Real.pi_ne_zero
  simp only [Arith.digitalSaw, Arith.twoOverPi, Arith.halfPi, numReal_lt, numReal_add, numReal_sub, numReal_mul,
    numReal_div, numReal_zero, numReal_one, numReal_two, numReal_pi]
  rw [wrapped_fmod_eq_fract undef hf]
  field_simp

theorem numReal_digitalSaw_range {f : ℝ} (hf : 0 < f) (t : ℝ) :
    -1 ≤ ((numReal undef).digitalSaw f t).val ∧ ((numReal undef).digitalSaw f t).val < 1 := by
  rw [numReal_digitalSaw undef hf]
  have h0 := Int.fract_nonneg (t * f)
  have h1 := Int.fract_lt_one (t * f)
  constructor <;> linarith

/-! ### Ranges (R116) -/

theorem abs_numReal_sine_le (f t vd vr : ℝ) : |((numReal undef).sine f t vd vr).val| ≤ 1 := Real.abs_sin_le_one _

theorem abs_numReal_triangle_le (f t vd vr : ℝ) : |((numReal undef).triangle f t vd vr).val| ≤ 1 := by
  have hpi := Real.pi_pos
  rw [numReal_triangle, abs_mul, abs_of_pos (by positivity : 0 < 2 / Real.pi), ← le_div_iff₀ (by positivity),
    one_div_div]
  exact abs_le.2 ⟨Real.neg_pi_div_two_le_arcsin _, Real.arcsin_le_pi_div_two _⟩

theorem abs_numReal_square (f t vd vr : ℝ) : |((numReal undef).square f t vd vr).val| = 1 := by
  rw [numReal_square]
  split_ifs
  · exact abs_one
  · rw [abs_neg, abs_one]

theorem sawPeak_eq : sawPeak = 2 / Real.pi * sawSeries (Real.pi / 10) := rfl

theorem abs_numReal_analogSaw_le (f t vd vr : ℝ) : |((numReal undef).analogSaw f t vd vr).val| ≤ sawPeak := by
  have hscale : 0 ≤ 2 / Real.pi := div_nonneg two_pos.le Real.pi_pos.le
  rw [numReal_analogSaw, abs_mul, abs_of_nonneg hscale, sawPeak_eq]
  exact mul_le_mul_of_nonneg_left (abs_sawSeries_le _) hscale

/-- `B(kind)` bounds each kind (R116, R132). -/
theorem abs_numReal_osc_le {k : Kind} {f draw : ℝ} (t vd vr : ℝ) (hdraw : |draw| ≤ 1)
    (hsaw : k = .digitalSaw → 0 < f) : |((numReal undef).osc k f t vd vr draw).val| ≤ kindBound (some k) := by
  cases k with
  | sine => exact abs_numReal_sine_le undef f t vd vr
  | square => exact (abs_numReal_square undef f t vd vr).le
  | triangle => exact abs_numReal_triangle_le undef f t vd vr
  | analogSaw => exact abs_numReal_analogSaw_le undef f t vd vr
  | digitalSaw =>
    obtain ⟨hlo, hhi⟩ := numReal_digitalSaw_range undef (hsaw rfl) t
    rw [numReal_osc_digitalSaw undef (hsaw rfl)]
    exact abs_le.2 ⟨hlo, hhi.le⟩
  | noise => exact hdraw

end

/-- Settles O46: each wave in closed form, and its range. -/
theorem realOscillatorRanges : Obligations.RealOscillatorRanges := by
  unfold Obligations.RealOscillatorRanges
  refine ⟨fun undef f t vd vr draw hdraw => ?_, sawSeries_peak_bounds⟩
  refine ⟨rfl, abs_numReal_sine_le undef f t vd vr, mul_comm _ _, abs_numReal_triangle_le undef f t vd vr,
    abs_numReal_square undef f t vd vr, numReal_analogSaw undef f t vd vr, abs_numReal_analogSaw_le undef f t vd vr,
    rfl, hdraw, fun hf => ?_⟩
  rw [numReal_osc_digitalSaw undef hf]
  exact numReal_digitalSaw_range undef hf t

/-- Settles O48: the ramp over a period, with the fractional part written by the floor. -/
theorem digitalSawIsTheFlooredRamp : Obligations.DigitalSawIsTheFlooredRamp := by
  unfold Obligations.DigitalSawIsTheFlooredRamp
  intro undef f t hf
  rw [numReal_digitalSaw undef hf, Int.fract]
  field_simp

/-! ### The period (R119) -/

section
variable (undef : ℝ → ℝ → ℝ) {f : ℝ}

/-- Without vibrato the phase turns once in `1/f`. -/
theorem numReal_phase_add_period (hf : 0 < f) (t vr : ℝ) :
    ((numReal undef).phase f (t + 1 / f) 0 vr).val = ((numReal undef).phase f t 0 vr).val + 2 * Real.pi := by
  rw [numReal_phase_no_depth, numReal_phase_no_depth]
  field_simp

theorem numReal_sine_add_period (hf : 0 < f) (t vr : ℝ) :
    ((numReal undef).sine f (t + 1 / f) 0 vr).val = ((numReal undef).sine f t 0 vr).val := by
  rw [numReal_sine, numReal_sine, numReal_phase_add_period undef hf, Real.sin_add_two_pi]

theorem sawSeries_add_two_pi (x : ℝ) : sawSeries (x + 2 * Real.pi) = sawSeries x := by
  have h := sawSeries_sub_turns x (-1)
  rwa [Int.cast_neg, Int.cast_one, neg_one_mul, sub_neg_eq_add] at h

theorem numReal_digitalSaw_add_period (hf : 0 < f) (t : ℝ) :
    ((numReal undef).digitalSaw f (t + 1 / f)).val = ((numReal undef).digitalSaw f t).val := by
  rw [numReal_digitalSaw undef hf, numReal_digitalSaw undef hf, add_mul, one_div_mul_cancel hf.ne', Int.fract_add_one]

theorem numReal_osc_add_period (hf : 0 < f) {k : Kind} (hk : k ≠ .noise) (t vr draw : ℝ) :
    ((numReal undef).osc k f (t + 1 / f) 0 vr draw).val = ((numReal undef).osc k f t 0 vr draw).val := by
  have hsine := numReal_sine_add_period undef hf t vr
  cases k with
  | sine => exact hsine
  | square => rw [osc_square, osc_square, numReal_square, numReal_square, hsine]
  | triangle => rw [osc_triangle, osc_triangle, numReal_triangle, numReal_triangle, hsine]
  | analogSaw =>
    rw [osc_analogSaw, osc_analogSaw, numReal_analogSaw, numReal_analogSaw, numReal_phase_add_period undef hf,
      sawSeries_add_two_pi]
  | digitalSaw =>
    rw [numReal_osc_digitalSaw undef hf, numReal_osc_digitalSaw undef hf, numReal_digitalSaw_add_period undef hf]
  | noise => exact absurd rfl hk

end

theorem sawSeries_zero : sawSeries 0 = 0 := by
  have h := sawSeries_neg 0
  rw [neg_zero] at h
  linarith

/-- Settles O47: the phase turns once in `1/f`, and so does the ramp; the values at 0 and at half a period are those of
the closed forms. -/
theorem oscillatorsArePeriodic : Obligations.OscillatorsArePeriodic := by
  unfold Obligations.OscillatorsArePeriodic
  intro undef f vr draw hf
  refine ⟨fun k t hk => numReal_osc_add_period undef hf hk t vr draw, ?_, ?_, ?_⟩
  · rw [osc_analogSaw, numReal_analogSaw, numReal_phase_no_depth, mul_zero, sawSeries_zero, mul_zero]
  · rw [numReal_osc_digitalSaw undef hf, numReal_digitalSaw undef hf, zero_mul, Int.fract_zero]
    norm_num
  · have hhalf : 1 / (2 * f) * f = 1 / 2 := by field_simp
    have hfract : Int.fract (1 / 2 : ℝ) = 1 / 2 := Int.fract_eq_self.2 ⟨by norm_num, by norm_num⟩
    rw [numReal_osc_digitalSaw undef hf, numReal_digitalSaw undef hf, hhalf, hfract]
    norm_num

/-! ### Frequency 0 and the opposite frequency (R117, R118) -/

section
variable (undef : ℝ → ℝ → ℝ) (f t vd vr : ℝ)

theorem numReal_phase_freq_zero : ((numReal undef).phase 0 t vd vr).val = 0 := by
  rw [numReal_phase]
  ring

theorem numReal_sine_freq_zero : ((numReal undef).sine 0 t vd vr).val = 0 := by
  rw [numReal_sine, numReal_phase_freq_zero, Real.sin_zero]

theorem numReal_phase_neg : ((numReal undef).phase (-f) t vd vr).val = -((numReal undef).phase f t vd vr).val := by
  rw [numReal_phase, numReal_phase]
  ring

theorem numReal_sine_neg : ((numReal undef).sine (-f) t vd vr).val = -((numReal undef).sine f t vd vr).val := by
  rw [numReal_sine, numReal_sine, numReal_phase_neg, Real.sin_neg]

variable {f t vd vr}

theorem numReal_square_of_sine_nonpos (h : ((numReal undef).sine f t vd vr).val ≤ 0) :
    ((numReal undef).square f t vd vr).val = -1 := by
  rw [numReal_square, if_neg h.not_gt]

theorem numReal_square_of_sine_pos (h : 0 < ((numReal undef).sine f t vd vr).val) :
    ((numReal undef).square f t vd vr).val = 1 := by
  rw [numReal_square, if_pos h]

theorem numReal_square_neg (h : ((numReal undef).sine f t vd vr).val ≠ 0) :
    ((numReal undef).square (-f) t vd vr).val = -((numReal undef).square f t vd vr).val := by
  have hneg := numReal_sine_neg undef f t vd vr
  rcases h.lt_or_gt with hlt | hgt
  · rw [numReal_square_of_sine_pos undef (by rw [hneg]; exact neg_pos.2 hlt),
      numReal_square_of_sine_nonpos undef hlt.le, neg_neg]
  · rw [numReal_square_of_sine_nonpos undef (by rw [hneg]; exact (neg_neg_of_pos hgt).le),
      numReal_square_of_sine_pos undef hgt]

end

/-- Settles O49: the phase is 0, where the Sine and the series vanish. -/
theorem frequencyZero : Obligations.FrequencyZero := by
  unfold Obligations.FrequencyZero
  intro undef t vd vr draw
  have hsine := numReal_sine_freq_zero undef t vd vr
  refine ⟨numReal_phase_freq_zero undef t vd vr, hsine, numReal_square_of_sine_nonpos undef hsine.le, ?_, ?_, rfl, ?_⟩
  · rw [osc_triangle, numReal_triangle, hsine, Real.arcsin_zero, zero_mul]
  · rw [osc_analogSaw, numReal_analogSaw, numReal_phase_freq_zero, sawSeries_zero, mul_zero]
  · exact (numReal_le undef 0 0).2 le_rfl

/-- Settles O50: the phase is negated, and the waves but the Square are odd functions of it. -/
theorem negativeFrequency : Obligations.NegativeFrequency := by
  unfold Obligations.NegativeFrequency
  intro undef f t vd vr
  have hsine := numReal_sine_neg undef f t vd vr
  refine ⟨numReal_phase_neg undef f t vd vr, hsine, ?_, ?_, numReal_square_neg undef, fun h0 => ⟨?_, ?_⟩⟩
  · rw [numReal_triangle, numReal_triangle, hsine, Real.arcsin_neg, neg_mul]
  · rw [numReal_analogSaw, numReal_analogSaw, numReal_phase_neg, sawSeries_neg, mul_neg]
  · exact numReal_square_of_sine_nonpos undef (by rw [hsine, h0, neg_zero])
  · exact numReal_square_of_sine_nonpos undef h0.le

end Sys2Proof.Machine
end

section
/-! SUPPORT. The bound of the mix in the reals by the weights of the enabled slots (42_voice_mixer.md R132). -/

namespace Sys2Proof.Machine

section
variable (undef : ℝ → ℝ → ℝ) {r : Regs ℝ} {draw : ℕ → ℝ}

/-- What a slot can add to the mix in magnitude. -/
noncomputable def slotBound (sl : SlotRegs ℝ) : ℝ := |sl.weight| * kindBound sl.kind

/-- An enabled slot raises the magnitude of the sum by at most `|WEIGHT| * B(kind)`. -/
theorem abs_mixSlot_le (t : ℝ) (hdraw : ∀ k, |draw k| ≤ 1) (acc : MixAcc ℝ) {sl : SlotRegs ℝ} (hen : sl.en = true)
    (hsaw : sl.kind = some .digitalSaw → 0 < sl.mult * r.freq) :
    |((numReal undef).mixSlot r t draw acc sl).mix| ≤ |acc.mix| + slotBound sl := by
  rw [Arith.mixSlot, if_pos hen, slotBound]
  cases hk : sl.kind with
  | none => exact le_add_of_nonneg_right (mul_nonneg (abs_nonneg _) zero_le_one)
  | some k =>
    have hosc := abs_numReal_osc_le undef (k := k) (f := sl.mult * r.freq) t sl.vdepth sl.vrate (hdraw acc.drawn)
      fun e => hsaw (by rw [hk, e])
    refine (abs_add_le _ _).trans (add_le_add_right ?_ _)
    rw [numReal_mul, abs_mul]
    exact mul_le_mul_of_nonneg_left hosc (abs_nonneg _)

/-- The sum over a list of slots. -/
theorem abs_foldl_mixSlot_le (t : ℝ) (hdraw : ∀ k, |draw k| ≤ 1) (l : List (SlotRegs ℝ))
    (hsaw : ∀ sl ∈ l, sl.en = true → sl.kind = some .digitalSaw → 0 < sl.mult * r.freq) (acc : MixAcc ℝ) :
    |(l.foldl ((numReal undef).mixSlot r t draw) acc).mix| ≤
      |acc.mix| + ((l.filter SlotRegs.en).map slotBound).sum := by
  induction l generalizing acc with
  | nil => exact (add_zero _).ge
  | cons sl l ih =>
    obtain ⟨hsl, hl⟩ := List.forall_mem_cons.1 hsaw
    refine (ih hl _).trans ?_
    cases hen : sl.en with
    | false =>
      rw [mixSlot_of_disabled _ _ _ _ _ _ hen, List.filter_cons_of_neg (by rw [hen]; decide)]
    | true =>
      rw [List.filter_cons_of_pos hen, List.map_cons, List.sum_cons, ← add_assoc]
      exact add_le_add_left (abs_mixSlot_le undef t hdraw acc hen (hsl hen)) _

end

/-- Settles O52: slot by slot, from a sum of 0. -/
theorem mixIsBoundedByTheWeights : Obligations.MixIsBoundedByTheWeights := by
  unfold Obligations.MixIsBoundedByTheWeights
  intro undef r t draw hdraw hsaw
  have h := abs_foldl_mixSlot_le undef t hdraw r.slotList hsaw ⟨0, [], false, 0⟩
  rwa [abs_zero, zero_add] at h

end Sys2Proof.Machine
end


section
/-! SUPPORT. The voice mixer (42_voice_mixer.md): what a `SAMPLE` does to the state, that it does not depend on the
registers of a disabled slot, and what `LD_PRESET` writes. -/

namespace Sys2Proof.Machine

/-! ### What a SAMPLE does (R134, R138, R148) -/

/-- Settles O23: one draw for each enabled Noise slot; `STATUS`, bit by bit, gains at most `DSAW` and `NONFIN`. -/
theorem sampleCompletes : Obligations.SampleCompletes := by
  unfold Obligations.SampleCompletes
  intro d s hd
  have hstatus := getLsbD_afterSample s.regs (sampleCalc d s).dsaw (sampleNonfin d s)
  refine ⟨sampleLegal d s, sampleAnswer d s, exec_sample hd s, sampleLegal_rpResp d s, sampleLegal_cpResp d s,
    sampleLegal_cpQueue d s, sampleLegal_rpQueue d s, sampleLegal_agenda d s, ?_, ?_, fun i hi => ?_, fun j hj => ?_,
    fun j hj => ?_⟩
  · rw [sampleLegal_draws, sample_drawn]
  · rw [sampleLegal_drawCount, sample_drawn]
  · exact regRead_afterSample s.regs _ _ i (List.ne_of_not_mem_cons hi)
  · obtain ⟨hdsaw, hj⟩ := List.ne_and_not_mem_of_not_mem_cons hj
    have hnonfin := List.ne_of_not_mem_cons hj
    rw [sampleLegal_regs, hstatus, decide_eq_false hdsaw, decide_eq_false hnonfin]
    simp only [Bool.and_false, Bool.or_false]
  · rw [sampleLegal_regs, hstatus, hj, Bool.true_or, Bool.true_or]

/-! ### A disabled slot (R123, R135) -/

section
variable {V : Type} (ar : Arith V) (r : Regs V) (n : SlotNo) (sl : SlotRegs V) (t : V) (draw : Nat → V)

theorem envAmp_setSlot : ar.envAmp (r.setSlot n sl) t = ar.envAmp r t := by cases n <;> rfl

/-- Of the registers outside the slot it is given, a slot's contribution reads `FREQ` alone. -/
theorem mixSlot_setSlot : ar.mixSlot (r.setSlot n sl) t draw = ar.mixSlot r t draw := by cases n <;> rfl

/-- One disabled slot for another: in its place in the fold each leaves the sum as it is. -/
theorem mix_setSlot_of_disabled (hr : (r.slot n).en = false) (hsl : sl.en = false) :
    ar.mix (r.setSlot n sl) t draw = ar.mix r t draw := by
  have hswap : ∀ acc, ar.mixSlot r t draw acc sl = ar.mixSlot r t draw acc (r.slot n) := fun acc =>
    (mixSlot_of_disabled ar r t draw acc sl hsl).trans (mixSlot_of_disabled ar r t draw acc _ hr).symm
  rw [Arith.mix, Arith.mix, mixSlot_setSlot]
  cases n <;> simp only [Regs.slotList, Regs.setSlot, List.foldl_cons, List.foldl_nil, hswap] <;> rfl

theorem sample_setSlot_of_disabled (hr : (r.slot n).en = false) (hsl : sl.en = false) :
    ar.sample (r.setSlot n sl) t draw = ar.sample r t draw := by
  have hmvol : (r.setSlot n sl).mvol = r.mvol := by cases n <;> rfl
  rw [Arith.sample, envAmp_setSlot, mix_setSlot_of_disabled ar r n sl t draw hr hsl, hmvol]
  rfl

theorem Regs.raise_setSlot (x : FaultBit) : (r.setSlot n sl).raise x = (r.raise x).setSlot n sl := by
  cases n <;> rfl

theorem Regs.raiseIf_setSlot (c : Bool) (x : FaultBit) :
    (r.setSlot n sl).raiseIf c x = (r.raiseIf c x).setSlot n sl := by
  cases c
  · rfl
  · exact r.raise_setSlot n sl x

theorem Regs.afterSample_setSlot (dsaw nonfin : Bool) :
    (r.setSlot n sl).afterSample dsaw nonfin = (r.afterSample dsaw nonfin).setSlot n sl := by
  rw [Regs.afterSample, Regs.raiseIf_setSlot, Regs.raiseIf_setSlot, Regs.afterSample]

end

/-- A legal `SAMPLE` commutes with replacing a disabled slot by a disabled one. -/
theorem sampleLegal_setSlot_of_disabled (d : Word) (s : State) {n : SlotNo} {sl : SlotRegs Word}
    (hr : (s.regs.slot n).en = false) (hsl : sl.en = false) :
    sampleLegal d { s with regs := s.regs.setSlot n sl } =
      { sampleLegal d s with regs := (sampleLegal d s).regs.setSlot n sl } := by
  have hcalc : numB64.sample (s.regs.setSlot n sl) d s.drawAt = numB64.sample s.regs d s.drawAt :=
    sample_setSlot_of_disabled numB64 s.regs n sl d s.drawAt hr hsl
  have hdraw : State.drawAt { s with regs := s.regs.setSlot n sl } = s.drawAt := rfl
  simp only [sampleLegal, hdraw, hcalc, Regs.afterSample_setSlot]
  rfl

/-- Settles O33: a `SAMPLE` with a finite time computes the same whichever of the two disabled slots is there; one
without raises `ILL` and answers 0, and reads no register. -/
theorem disabledSlotIsNotObserved : Obligations.DisabledSlotIsNotObserved := by
  unfold Obligations.DisabledSlotIsNotObserved
  intro d s n sl hr hsl
  cases hd : isFinite d with
  | true => exact ⟨_, exec_sample hd s, by rw [exec_sample hd, sampleLegal_setSlot_of_disabled d s hr hsl]⟩
  | false =>
    have hw : (Instr.sample d).wellFormed = false := hd
    refine ⟨_, exec_of_not_wellFormed hw s, (exec_of_not_wellFormed hw _).trans (congrArg Host.Outcome.next ?_)⟩
    exact congrArg (fun r => { s.illegalAnswered .rp with regs := r }) (s.regs.raise_setSlot n sl .ill)

/-! ### LD_PRESET (R125 to R127) -/

/-- The 25 registers read as the image, whatever they held: `val` of each of its patterns is the pattern (R125). -/
theorem map_regRead_loadVoice_presetRows (r : Regs Word) (p : Preset) :
    (presetRows p).map (fun e => regRead (numB64.loadVoice r (presetVoice p)) e.1) = (presetRows p).map Prod.snd := by
  cases p <;> rfl

/-- Settles O20: the image's rows are read off the loaded registers, and bits 0 and 1 of `FLAGS` are cleared and the
others kept. -/
theorem ldPresetEffect : Obligations.LdPresetEffect := by
  unfold Obligations.LdPresetEffect
  intro p s
  have hflags := getLsbD_flagsClear s.regs.flags
  refine ⟨_, exec_ldPreset p s, List.map_inj_left.1 (map_regRead_loadVoice_presetRows s.regs p), rfl, rfl,
    (hflags 0).trans (Bool.and_false _), (hflags 1).trans (Bool.and_false _), fun j hj => ?_,
    regRead_loadVoice _ _ (by decide), regRead_loadVoice _ _ (by decide), regRead_loadVoice _ _ (by decide), rfl⟩
  have hj2 : 2 ≤ j := not_lt.1 fun h => hj (by interval_cases j <;> decide)
  exact (hflags j).trans (by rw [decide_eq_true hj2, Bool.and_true])

end Sys2Proof.Machine
end

section
/-! SUPPORT. The sample scaler (43_sample_scaler.md): what `NOP` and `SET_FREQ` do (R137, R145), what a `SAMPLE` sets
`NONFIN` for (R144), and the range of its output (R142). -/

namespace Sys2Proof.Machine

/-! ### NOP and SET_FREQ (R137, R145) -/

/-- No other command has the opcode of `NOP` (R71). -/
theorem eq_nop_of_code {i : Instr} (h : codeOfOp i.op = 0x00#8) : i = .nop := by
  have hop : i.op = .nop := codeOfOp_injective h
  cases i with
  | nop => rfl
  | _ => exact Op.noConfusion hop

/-- Settles O16: a word of the opcode of `NOP` that decodes is the word of `NOP`, which is all zero. -/
theorem nopEffect : Obligations.NopEffect := by
  unfold Obligations.NopEffect
  have hword : encode .nop = 0#80 := by decide
  refine ⟨exec_nop, fun p => ?_, fun p w hop hw => (decode_error_or_ok p w).resolve_right ?_⟩
  · rw [← hword]
    exact decodeInvertsEncode .nop p ⟨rfl, rfl⟩
  · rintro ⟨i, hi⟩
    have hi' : encode i = w := encode_of_decode hi
    obtain rfl : i = .nop := eq_nop_of_code (by rw [← opField_encode, hi']; exact hop)
    exact hw (hi'.symm.trans hword)

/-- Settles O19: the register written is `FREQ`, and no other reads it. -/
theorem setFreqEffect : Obligations.SetFreqEffect := by
  unfold Obligations.SetFreqEffect
  intro d s hd
  exact ⟨_, exec_setFreq hd s, rfl, fun i hi => regRead_setFreq s.regs d (List.ne_of_not_mem_cons hi), rfl⟩

/-! ### NONFIN (R144, R153) -/

/-- Under the guard of R175 the values a `SAMPLE` computes are those of the pseudocode. -/
theorem mem_sample_seen_iff {r : Regs Word} (hg : SawGuard r) (t : Word) (draw : Nat → Word) (v : Word) :
    v ∈ (numB64.sample r t draw).seen ↔ v ∈ sampleOps r t draw := by
  obtain ⟨hmix, hops⟩ := numB64_mix (t := t) (draw := draw) hg
  rw [sample_seen, numB64_sample_out t draw hg, numB64_clamp, numB64_envAmp, hmix]
  simp only [sampleOps, List.mem_append, hops]
  rfl

theorem overflowed_sample_iff {r : Regs Word} (hg : SawGuard r) (t : Word) (draw : Nat → Word) :
    numB64.overflowed (numB64.sample r t draw) = true ↔ ∃ v ∈ sampleOps r t draw, isFinite v = false := by
  simp only [Arith.overflowed, List.any_eq_true, mem_sample_seen_iff hg, numB64_finite, Bool.not_eq_true']

/-- Settles O26: without `DSAW` the fault is raised for an overflow, and the values computed are the pseudocode's. -/
theorem nonfinIsRaisedExactly : Obligations.NonfinIsRaisedExactly := by
  unfold Obligations.NonfinIsRaisedExactly
  intro d s hd hg
  refine ⟨sampleLegal d s, exec_sample hd s, ?_⟩
  have hn : sampleNonfin d s = numB64.overflowed (sampleCalc d s) := by
    rw [sampleNonfin, Arith.raisesNonfin, sample_dsaw_of_guard hg]
    rfl
  rw [sampleLegal_regs, nonfin_afterSample, Bool.or_eq_true, hn, overflowed_sample_iff hg]

/-! ### The range of the output (R142) -/

/-- A finite product with a factor in [-1, 1] is no larger than the other factor: rounding does not pass a value. -/
theorem abs_toRat_mul64_le {c m : Word} (hf : isFinite (mul64 c m) = true) (hc : |toRat c| ≤ 1) (hm : 0 ≤ toRat m) :
    |toRat (mul64 c m)| ≤ toRat m := by
  obtain ⟨hcf, hmf⟩ := isFinite_of_mul64 hf
  refine (mul64_nearest hcf hmf hf).abs_toRat_le hmf ?_
  rw [abs_mul, abs_of_nonneg hm]
  exact mul_le_of_le_one_left hm hc

/-- Settles O34: the clamp answers a value in [-1, 1], and the output is its product with the volume. -/
theorem outputWithinMasterVolume : Obligations.OutputWithinMasterVolume := by
  unfold Obligations.OutputWithinMasterVolume
  refine ⟨fun d s hd hvol hc => ?_, fun undef r t draw hvol => ?_⟩
  · have hout : isFinite (sampleCalc d s).out = true := isFinite_of_seen hc.2 (by rw [sample_seen]; simp)
    have hsound : isFinite (mul64 (numB64.envAmp s.regs d).val (numB64.mix s.regs d s.drawAt).mix) = true :=
      isFinite_of_seen hc.2 (by rw [sample_seen]; simp)
    obtain ⟨-, hvol0, -⟩ := (unitOk_iff _).1 hvol
    refine ⟨sampleLegal d s, (sampleCalc d s).out, exec_sample hd s, ?_, hout, ?_⟩
    · rw [sampleLegal_rpResp, sampleAnswer_of_clean hc]
    · exact abs_toRat_mul64_le hout (clamp_bounds hsound).2 hvol0
  · rw [sample_out, numReal_mul, abs_mul, abs_of_nonneg hvol]
    exact mul_le_of_le_one_left hvol (numReal_clamp_abs_le undef _)

end Sys2Proof.Machine
end

section
/-! SUPPORT. Nothing a `SAMPLE` computes overflows within the operand bounds of 43_sample_scaler.md R144: each operation
of the pseudocode is within a power of two, from the envelope and the oscillators to the output. -/

namespace Sys2Proof.Machine

/-! ### Operands and constants within powers of two -/

theorem within_zero_of_abs_le {v : Word} (h : isFinite v = true ∧ |toRat v| ≤ 1) : Within 0 v :=
  ⟨h.1, h.2.trans (pow_zero 2).ge⟩

theorem within_sin64 {x : Word} (hx : isFinite x = true) : Within 0 (sin64 x) := within_zero_of_abs_le (sin64_bounds hx)

theorem within_drawAt (s : State) (k : Nat) : Within 0 (s.drawAt k) := within_zero_of_abs_le (toDraw_bounds _)

theorem within_of_unitOk {d : Word} (h : unitOk d = true) : Within 0 d := by
  obtain ⟨hf, h0, h1⟩ := (unitOk_iff d).1 h
  exact within_zero_of_abs_le ⟨hf, by rwa [abs_of_nonneg h0]⟩

theorem within_clampValue {v : Word} (h : isFinite v = true) : Within 0 (clampValue v) := by
  rw [clampValue, ← numB64_clamp]
  exact within_zero_of_abs_le (clamp_bounds h)

theorem within_twoPi64 : Within 3 twoPi64 := ⟨by decide, by decide +kernel⟩
theorem within_pi64 : Within 2 pi64 := ⟨by decide, by decide +kernel⟩
theorem within_halfPi64 : Within 1 halfPi64 := ⟨by decide, by decide +kernel⟩
theorem within_twoOverPi64 : Within 0 twoOverPi64 := ⟨by decide, by decide +kernel⟩

theorem million_le : (10 : ℚ) ^ 6 ≤ 2 ^ 20 := by norm_num

theorem within_of_below {d : Word} (h : Below d (10 ^ 6)) : Within 20 d := by
  obtain ⟨hf, hlo, hhi⟩ := h
  exact ⟨hf, (abs_le.2 ⟨hlo.le, hhi.le⟩).trans million_le⟩

theorem within_of_zero_or_le {d : Word} {lo : ℚ} (hf : isFinite d = true) (hlo : 0 ≤ lo)
    (h : toRat d = 0 ∨ (lo ≤ toRat d ∧ toRat d ≤ 10 ^ 6)) : Within 20 d := by
  refine ⟨hf, ?_⟩
  rcases h with h0 | ⟨hd, hhi⟩
  · rw [h0, abs_zero]; positivity
  · rw [abs_of_nonneg (hlo.trans hd)]; exact hhi.trans million_le

theorem within_of_durationBound {d : Word} (h : DurationBound d) : Within 20 d :=
  within_of_zero_or_le h.1 (by positivity) (h.2.imp_right fun hd => ⟨hd.1, hd.2.le⟩)

theorem within_of_freqBound {f : Word} (h : FreqBound f) : Within 20 f :=
  within_of_zero_or_le h.1 (by positivity) h.2

/-- A duration that is not 0 is at least 1e-9, so it can be divided by. -/
theorem le_abs_of_durationBound {d : Word} (h : DurationBound d) (h0 : toRat d ≠ 0) : 1 / 2 ^ 30 ≤ |toRat d| := by
  obtain ⟨hlo, -⟩ := h.2.resolve_left h0
  exact (le_trans (by norm_num) hlo).trans (le_abs_self _)

/-- A frequency greater than 0 is at least 1e-3, so it has a period. -/
theorem le_abs_of_freqBound {f : Word} (h : FreqBound f) (h0 : 0 < toRat f) : 1 / 2 ^ 10 ≤ |toRat f| := by
  obtain ⟨hlo, -⟩ := h.2.resolve_left h0.ne'
  exact (le_trans (by norm_num) hlo).trans (le_abs_self _)

/-- The remainder of a division is no larger than the dividend. -/
theorem within_fmod64 {k : Nat} {x p : Word} (hx : Within k x) (hp : isFinite p = true) (h0 : toRat p ≠ 0) :
    Within k (fmod64 x p) := by
  obtain ⟨hmag, -, hf⟩ := fmod64_parts hx.1 hp h0
  have hle : magBits (fmod64 x p) ≤ magBits x := unitsOf_le.1 (hmag.trans_le (Nat.mod_le _ _))
  exact ⟨hf, ((abs_toRat_le_iff _ _).2 hle).trans hx.2⟩

/-! ### The envelope -/

/-- A ramp between two levels over a duration that is not 0. -/
theorem within_rampOps {x dur a b : Word} (hx : Within 22 x) (hdur : DurationBound dur) (h0 : toRat dur ≠ 0)
    (ha : Within 0 a) (hb : Within 0 b) : Within 54 (rampValue x dur a b) ∧ ∀ v ∈ rampOps x dur a b, Within 54 v := by
  have hq : Within 52 (div64 x dur) := within_div64 hx hdur.1 (le_abs_of_durationBound hdur h0) (by decide)
  have hrange : Within 1 (sub64 b a) := within_sub64 hb ha (by decide)
  have hprod : Within 53 (mul64 (div64 x dur) (sub64 b a)) := within_mul64 hq hrange (by decide)
  have hv : Within 54 (rampValue x dur a b) := within_add64 hprod (ha.mono (by decide)) (by decide)
  refine ⟨hv, ?_⟩
  simp only [rampOps, List.forall_mem_cons]
  exact ⟨hq.mono (by decide), hrange.mono (by decide), hprod.mono (by decide), hv, List.forall_mem_nil _⟩

section
variable {r : Regs Word}

/-- The decay is never reached with a duration of 0: past the attack, `life` is past `A + 0` too. -/
theorem toRat_envDecay_ne_zero {life : Word} (hlife : isFinite life = true) (hA : isFinite r.envAttack = true)
    (hD : isFinite r.envDecay = true) (hpast : ¬le64 life r.envAttack = true)
    (htop : le64 life (add64 r.envAttack r.envDecay) = true) : toRat r.envDecay ≠ 0 := by
  intro h0
  have hsum : toRat r.envAttack + toRat r.envDecay = toRat r.envAttack := by rw [h0, add_zero]
  have hf : isFinite (add64 r.envAttack r.envDecay) = true := add64_isFinite hA hD hA (by rw [hsum])
  rw [le64_iff hlife hf, (add64_nearest hA hD hf).eq_of_eq hA hsum] at htop
  exact hpast ((le64_iff hlife hA).2 htop)

/-- Attack, decay and sustain (R95 to R98). -/
theorem within_heldOps {life : Word} (hlife : Within 21 life) (hA : DurationBound r.envAttack)
    (hD : DurationBound r.envDecay) (hP : Within 0 r.envStart) (hS : Within 0 r.envSustain) :
    Within 54 (heldValue r life) ∧ ∀ v ∈ heldOps r life, Within 54 v := by
  have hA' := within_of_durationBound hA
  have htop : Within 21 (add64 r.envAttack r.envDecay) := within_add64 hA' (within_of_durationBound hD) (by decide)
  unfold heldValue heldOps
  split_ifs with hattack hzero hneg hdecay
  · exact ⟨within_zero64.mono (by decide), List.forall_mem_nil _⟩
  · exact ⟨hP.mono (by decide), List.forall_mem_nil _⟩
  · rw [isZero64_iff hA.1] at hzero
    exact within_rampOps (hlife.mono (by decide)) hA hzero within_zero64 hP
  · have hx : Within 22 (sub64 life r.envAttack) := within_sub64 hlife (hA'.mono (by decide)) (by decide)
    obtain ⟨hv, hops⟩ := within_rampOps hx hD (toRat_envDecay_ne_zero hlife.1 hA.1 hD.1 hattack hdecay) hP hS
    exact ⟨hv, List.forall_mem_cons.2 ⟨htop.mono (by decide), List.forall_mem_cons.2 ⟨hx.mono (by decide), hops⟩⟩⟩
  · exact ⟨hS.mono (by decide), List.forall_mem_cons.2 ⟨htop.mono (by decide), List.forall_mem_nil _⟩⟩

/-- The release (R99, R100). -/
theorem within_releasedOps {t : Word} (ht : Within 20 t) (hoff : Within 20 r.tOff) (hR : DurationBound r.envRelease)
    (hS : Within 0 r.envSustain) : Within 54 (releasedValue r t) ∧ ∀ v ∈ releasedOps r t, Within 54 v := by
  unfold releasedValue releasedOps
  split_ifs with hzero hbefore
  · exact ⟨hS.mono (by decide), List.forall_mem_nil _⟩
  · exact ⟨within_zero64.mono (by decide), List.forall_mem_nil _⟩
  · rw [isZero64_iff hR.1] at hzero
    have hx : Within 21 (sub64 t r.tOff) := within_sub64 ht hoff (by decide)
    obtain ⟨hv, hops⟩ := within_rampOps (hx.mono (by decide)) hR hzero hS within_zero64
    exact ⟨hv, List.forall_mem_cons.2 ⟨hx.mono (by decide), hops⟩⟩

/-- `EnvAmp` (R92). -/
theorem within_envOps (hc : r.ConfigInv) {t : Word} (hb : WithinBounds r t) :
    Within 54 (envValue r t) ∧ ∀ v ∈ envOps r t, Within 54 v := by
  obtain ⟨-, -, hS, -, hP, -⟩ := hc
  obtain ⟨ht, hon, hoff, hA, hD, hR, -⟩ := hb
  have hS := within_of_unitOk hS
  have ht := within_of_below ht
  have hlife : Within 21 (sub64 t r.tOn) := within_sub64 ht (within_of_below hon) (by decide)
  obtain ⟨hheld, hheldOps⟩ := within_heldOps hlife hA hD (within_of_unitOk hP) hS
  obtain ⟨hrel, hrelOps⟩ := within_releasedOps ht (within_of_below hoff) hR hS
  have hphase : Within 54 (phaseAmp r t) := by
    unfold phaseAmp
    split_ifs
    · exact hheld
    · exact hrel
  have hzero : Within 54 zero64 := within_zero64.mono (by decide)
  constructor
  · unfold envValue
    split_ifs
    · exact hzero
    · exact hphase
    · exact hzero
  · unfold envOps
    split_ifs
    · exact List.forall_mem_cons.2 ⟨hlife.mono (by decide), hheldOps⟩
    · exact List.forall_mem_cons.2 ⟨hlife.mono (by decide), hrelOps⟩
    · exact List.forall_mem_nil _

end

/-! ### The oscillator -/

section
variable {f t vd vr : Word}

/-- The phase (R106, R107). -/
theorem within_phaseOps (hf : Within 20 f) (ht : Within 20 t) (hvd : Within 20 vd) (hvr : Within 20 vr) :
    ∀ v ∈ phaseOps f t vd vr, Within 44 v := by
  have hw : Within 23 (mul64 twoPi64 f) := within_mul64 within_twoPi64 hf (by decide)
  have hp : Within 43 (mul64 (mul64 twoPi64 f) t) := within_mul64 hw ht (by decide)
  have hdepth : Within 40 (mul64 vd f) := within_mul64 hvd hf (by decide)
  have hwr : Within 23 (mul64 twoPi64 vr) := within_mul64 within_twoPi64 hvr (by decide)
  have ha : Within 43 (mul64 (mul64 twoPi64 vr) t) := within_mul64 hwr ht (by decide)
  have hm : Within 0 (sin64 (mul64 (mul64 twoPi64 vr) t)) := within_sin64 ha.1
  have hterm : Within 40 (vibratoTerm f t vd vr) := within_mul64 hdepth hm (by decide)
  have hsum : Within 44 (add64 (mul64 (mul64 twoPi64 f) t) (vibratoTerm f t vd vr)) :=
    within_add64 hp (hterm.mono (by decide)) (by decide)
  unfold phaseOps phaseValue
  split_ifs
  · simp only [List.append_nil, List.forall_mem_cons]
    exact ⟨hw.mono (by decide), hp.mono (by decide), List.forall_mem_nil _⟩
  · simp only [List.cons_append, List.nil_append, List.forall_mem_cons]
    exact ⟨hw.mono (by decide), hp.mono (by decide), hdepth.mono (by decide), hwr.mono (by decide), ha.mono (by decide),
      hm.mono (by decide), hterm.mono (by decide), hsum, List.forall_mem_nil _⟩

/-- The whole numbers of the series (R111). -/
theorem ofNat64_bounds : ∀ n ∈ sawIndices,
    isFinite (ofNat64 n) = true ∧ |toRat (ofNat64 n)| ≤ 2 ^ 4 ∧ 1 / 2 ^ 0 ≤ |toRat (ofNat64 n)| := by decide +kernel

/-- A term of the series: its argument, its sine and the sine divided by the index (R111). -/
theorem within_sawTerm {ph : Word} (hph : Within 44 ph) {n : Nat} (hn : n ∈ sawIndices) :
    Within 48 (mul64 (ofNat64 n) ph) ∧ Within 0 (sin64 (mul64 (ofNat64 n) ph)) ∧
      Within 0 (div64 (sin64 (mul64 (ofNat64 n) ph)) (ofNat64 n)) := by
  obtain ⟨hfin, hle, hge⟩ := ofNat64_bounds n hn
  have hx : Within 48 (mul64 (ofNat64 n) ph) := within_mul64 ⟨hfin, hle⟩ hph (by decide)
  have hs := within_sin64 hx.1
  exact ⟨hx, hs, within_div64 hs hfin hge (by decide)⟩

/-- The sum of the first terms of the series, each at most 1. -/
theorem within_sawSum {ph : Word} (hph : Within 44 ph) (n : Nat) (hn : n ≤ 9) : Within n (sawSum ph n) := by
  induction n with
  | zero => exact within_zero64
  | succ n ih =>
    have hmem : n + 1 ∈ sawIndices := by simp only [sawIndices, List.mem_cons]; omega
    obtain ⟨-, -, hterm⟩ := within_sawTerm hph hmem
    exact within_add64 (ih (by omega)) (hterm.mono (by omega)) (by omega)

theorem within_sawTermOps {ph : Word} (hph : Within 44 ph) {n : Nat} (hn : n ∈ sawIndices) :
    ∀ v ∈ sawTermOps ph n, Within 48 v := by
  have hle : n ≤ 9 := by revert n; decide
  obtain ⟨hx, hs, hq⟩ := within_sawTerm hph hn
  simp only [sawTermOps, List.forall_mem_cons]
  exact ⟨hx, hs.mono (by decide), hq.mono (by decide), (within_sawSum hph n hle).mono (by omega), List.forall_mem_nil _⟩

/-- The period of a frequency within the bounds is not 0: it is at least 2^-20. -/
theorem within_period (hf : FreqBound f) (h0 : 0 < toRat f) :
    Within 10 (div64 one64 f) ∧ toRat (div64 one64 f) ≠ 0 := by
  have hper : Within 10 (div64 one64 f) := within_div64 within_one64 hf.1 (le_abs_of_freqBound hf h0) (by decide)
  have hfin : isFinite 0x3EB0000000000000#64 = true := by decide
  have hval : toRat 0x3EB0000000000000#64 = 1 / 2 ^ 20 := by decide +kernel
  have hle : toRat 0x3EB0000000000000#64 ≤ toRat one64 / toRat f := by
    rw [hval, toRat_one64]
    exact one_div_le_one_div_of_le h0 ((le_abs_self _).trans (within_of_freqBound hf).2)
  have hge := (div64_nearest isFinite_one64 hf.1 h0.ne' hper.1).ge_of_ge hfin hle
  rw [hval] at hge
  exact ⟨hper, (lt_of_lt_of_le (by norm_num) hge).ne'⟩

/-- DigitalSaw, for `0 < f` (R112). -/
theorem within_digitalSawOps (hf : FreqBound f) (h0 : 0 < toRat f) (ht : Within 20 t) :
    ∀ v ∈ digitalSawOps f t, Within 48 v := by
  obtain ⟨hper, hper0⟩ := within_period hf h0
  have hfmod : Within 20 (fmod64 t (div64 one64 f)) := within_fmod64 ht hper.1 hper0
  have hrem : Within 21 (sawRemainder f t) := by
    unfold sawRemainder
    split_ifs
    · exact within_add64 hfmod (hper.mono (by decide)) (by decide)
    · exact hfmod.mono (by decide)
  have hfp : Within 22 (mul64 f pi64) := within_mul64 (within_of_freqBound hf) within_pi64 (by decide)
  have hx : Within 43 (mul64 (mul64 f pi64) (sawRemainder f t)) := within_mul64 hfp hrem (by decide)
  have hy : Within 44 (sub64 (mul64 (mul64 f pi64) (sawRemainder f t)) halfPi64) :=
    within_sub64 hx (within_halfPi64.mono (by decide)) (by decide)
  have ho : Within 44 (digitalSawValue f t) := within_mul64 within_twoOverPi64 hy (by decide)
  simp only [digitalSawOps, List.forall_mem_cons]
  exact ⟨hper.mono (by decide), hfmod.mono (by decide), hrem.mono (by decide), hfp.mono (by decide),
    hx.mono (by decide), hy.mono (by decide), ho.mono (by decide), List.forall_mem_nil _⟩

/-- `Osc` (R105), for a DigitalSaw under the guard of R175. -/
theorem within_oscOps (k : Kind) (hf : FreqBound f) (hsaw : k = .digitalSaw → 0 < toRat f) (ht : Within 20 t)
    (hvd : Within 20 vd) (hvr : Within 20 vr) {draw : Word} (hdraw : Within 0 draw) :
    Within 48 (oscValue k f t vd vr draw) ∧ ∀ v ∈ oscOps k f t vd vr, Within 48 v := by
  have hops : ∀ v ∈ phaseOps f t vd vr, Within 48 v := fun v hv =>
    (within_phaseOps (within_of_freqBound hf) ht hvd hvr v hv).mono (by decide)
  have hph := within_phaseOps (within_of_freqBound hf) ht hvd hvr _ (phaseValue_mem_phaseOps f t vd vr)
  have hsin := within_sin64 hph.1
  have hsin48 : Within 48 (sin64 (phaseValue f t vd vr)) := hsin.mono (by decide)
  cases k with
  | sine => exact ⟨hsin48, List.forall_mem_append.2 ⟨hops, List.forall_mem_singleton.2 hsin48⟩⟩
  | square =>
    refine ⟨?_, List.forall_mem_append.2 ⟨hops, List.forall_mem_singleton.2 hsin48⟩⟩
    unfold oscValue
    split_ifs
    · exact within_one64.mono (by decide)
    · exact (within_neg64 within_one64).mono (by decide)
  | triangle =>
    obtain ⟨hasin, hasinLe⟩ := asin64_bounds hsin.1 (hsin.2.trans (pow_zero 2).le)
    have hasin48 : Within 48 (asin64 (sin64 (phaseValue f t vd vr))) :=
      ⟨hasin, hasinLe.trans ((le_abs_self _).trans (within_halfPi64.mono (by decide)).2)⟩
    have ho := (within_zero_of_abs_le (mul64_twoOverPi_bounds hasin hasinLe)).mono (by decide : 0 ≤ 48)
    refine ⟨ho, List.forall_mem_append.2 ⟨hops, ?_⟩⟩
    simp only [List.forall_mem_cons]
    exact ⟨hsin48, hasin48, ho, List.forall_mem_nil _⟩
  | analogSaw =>
    have ho := (within_mul64 (within_sawSum hph 9 le_rfl) within_twoOverPi64 (by decide)).mono (by decide : 9 + 0 ≤ 48)
    have hterms : ∀ v ∈ sawIndices.flatMap (sawTermOps (phaseValue f t vd vr)), Within 48 v := fun v hv => by
      obtain ⟨n, hn, hv⟩ := List.mem_flatMap.1 hv
      exact within_sawTermOps hph hn v hv
    exact ⟨ho, List.forall_mem_append.2 ⟨List.forall_mem_append.2 ⟨hops, hterms⟩, List.forall_mem_singleton.2 ho⟩⟩
  | digitalSaw =>
    have hdigital := within_digitalSawOps hf (hsaw rfl) ht
    exact ⟨hdigital _ (by simp [digitalSawOps, oscValue]), hdigital⟩
  | noise => exact ⟨hdraw.mono (by decide), List.forall_mem_nil _⟩

end

/-! ### The mix and the output -/

section
variable {r : Regs Word} {t : Word} {draw : Nat → Word}

theorem exists_slot_of_getElem? {n : Nat} {sl : SlotRegs Word} (h : r.slotList[n]? = some sl) :
    ∃ m : SlotNo, r.slot m = sl := by
  have hmem := List.mem_of_getElem? h
  simp only [Regs.slotList, List.mem_cons, List.mem_nil_iff, or_false] at hmem
  rcases hmem with rfl | rfl | rfl | rfl
  · exact ⟨.s0, rfl⟩
  · exact ⟨.s1, rfl⟩
  · exact ⟨.s2, rfl⟩
  · exact ⟨.s3, rfl⟩

/-- The guard of R175, by value. -/
theorem toRat_slotFreq_pos {m : SlotNo} (hg : SawGuard r) (hf : isFinite (slotFreq r m) = true)
    (hk : enabledKind (r.slot m) = some .digitalSaw) : 0 < toRat (slotFreq r m) := by
  have hsaw : isSawSlot r m = true := by
    unfold enabledKind at hk
    split_ifs at hk with hen
    rw [isSawSlot, SlotRegs.en, SlotRegs.kind, hen, hk]
    rfl
  have hlt := hg m hsaw
  rwa [lt64_iff isFinite_zero64 hf, toRat_zero64] at hlt

/-- An enabled slot: its oscillator, and what it adds to the mix (R122, R123). -/
theorem within_slotTerm (hb : WithinBounds r t) (hg : SawGuard r) (hdraw : ∀ k, Within 0 (draw k)) {n : Nat}
    {sl : SlotRegs Word} {k : Kind} (hs : r.slotList[n]? = some sl) (hk : enabledKind sl = some k) :
    isFinite (mul64 sl.mult r.freq) = true ∧
      (∀ v ∈ oscOps k (mul64 sl.mult r.freq) t sl.vdepth sl.vrate, Within 48 v) ∧
      Within 68 (slotTerm k r.freq t (slotDraw r draw n) sl) := by
  obtain ⟨m, rfl⟩ := exists_slot_of_getElem? hs
  obtain ⟨ht, -, -, -, -, -, hslots⟩ := hb
  obtain ⟨hweight, hvd, hvr, hf⟩ := hslots m
  have hsaw : k = .digitalSaw → 0 < toRat (mul64 (r.slot m).mult r.freq) := fun e =>
    toRat_slotFreq_pos hg hf.1 (by rw [hk, e])
  obtain ⟨hosc, hops⟩ := within_oscOps k hf hsaw (within_of_below ht) (within_of_below hvd) (within_of_below hvr)
    (hdraw _ : Within 0 (slotDraw r draw n))
  exact ⟨hf.1, hops, within_mul64 (within_of_below hweight) hosc (by decide)⟩

/-- The running mix (R123): a slot adds at most 2^68. -/
theorem within_mixUpTo (hb : WithinBounds r t) (hg : SawGuard r) (hdraw : ∀ k, Within 0 (draw k)) (n : Nat)
    (hn : n ≤ 4) : Within (68 + n) (mixUpTo r t draw n) := by
  induction n with
  | zero => exact within_zero64.mono (by decide)
  | succ n ih =>
    have ih := ih (by omega)
    rw [mixUpTo]
    split
    · exact ih.mono (by omega)
    · next sl hs =>
      split
      · exact ih.mono (by omega)
      · next k hk =>
        obtain ⟨-, -, hterm⟩ := within_slotTerm hb hg hdraw hs hk
        exact (within_add64 ih (hterm.mono (Nat.le_add_right 68 n)) (by omega) : Within (68 + n + 1) _)

theorem isFinite_slotOps (hb : WithinBounds r t) (hg : SawGuard r) (hdraw : ∀ k, Within 0 (draw k)) {n : Nat}
    (hn : n < 4) : ∀ v ∈ slotOps r t draw n, isFinite v = true := by
  unfold slotOps
  split
  · exact List.forall_mem_nil _
  · next sl hs =>
    split
    · exact List.forall_mem_nil _
    · next k hk =>
      obtain ⟨hf, hops, hterm⟩ := within_slotTerm hb hg hdraw hs hk
      have hmix := within_mixUpTo hb hg hdraw (n + 1) hn
      simp only [List.cons_append, List.forall_mem_cons, List.forall_mem_append]
      exact ⟨hf, fun v hv => (hops v hv).1, hterm.1, hmix.1, List.forall_mem_nil _⟩

/-- No operation of a `SAMPLE` within the bounds of R144 gives an infinity or a NaN. -/
theorem isFinite_sampleOps (hc : r.ConfigInv) (hb : WithinBounds r t) (hg : SawGuard r)
    (hdraw : ∀ k, Within 0 (draw k)) : ∀ v ∈ sampleOps r t draw, isFinite v = true := by
  obtain ⟨henv, henvOps⟩ := within_envOps hc hb
  have hsound : Within 126 (soundValue r t draw) :=
    within_mul64 henv (within_mixUpTo hb hg hdraw 4 le_rfl) (by decide)
  have hclamp := within_clampValue hsound.1
  obtain ⟨-, -, -, -, -, hvol⟩ := hc
  have hout : Within 0 (outValue r t draw) := within_mul64 hclamp (within_of_unitOk hvol) (by decide)
  simp only [sampleOps, List.forall_mem_append, List.forall_mem_cons]
  refine ⟨⟨fun v hv => (henvOps v hv).1, fun v hv => ?_⟩, hsound.1, hclamp.1, hout.1, List.forall_mem_nil _⟩
  obtain ⟨n, hn, hv⟩ := List.mem_flatMap.1 hv
  have hn4 : n < 4 := by simp only [List.mem_cons, List.mem_nil_iff, or_false] at hn; omega
  exact isFinite_slotOps hb hg hdraw hn4 v hv

end

/-- Settles O60: within the bounds every operation is finite, so the `SAMPLE` is without a fault. -/
theorem noNonfinWithinTheBounds : Obligations.NoNonfinWithinTheBounds := by
  unfold Obligations.NoNonfinWithinTheBounds
  intro d s hinv hb hg
  obtain ⟨hconfig, -⟩ := hinv
  have hops := isFinite_sampleOps hconfig hb hg (within_drawAt s)
  obtain ⟨⟨hd, -⟩, -⟩ := hb
  have hfin : SampleFinite s d := by
    rw [SampleFinite, ← Bool.not_eq_true, overflowed_sample_iff hg]
    rintro ⟨v, hv, hinf⟩
    rw [hops v hv] at hinf
    cases hinf
  exact ⟨sampleLegal d s, exec_sample hd s, by rw [sampleLegal_regs_of_clean ⟨hg, hfin⟩]⟩

end Sys2Proof.Machine
end

section
/-! SUPPORT. Reset and the sticky bits (70_reset_and_hazards.md R167 to R170). -/

namespace Sys2Proof.Machine

/-! ### A reset turn (R167 to R169) -/

/-- Only the agenda prescribes a reset: a free turn is a port's. -/
theorem freeTurn_ne_reset (s : State) (a b : Nat) : freeTurn s ≠ some (.reset a b) := by
  intro hreset
  by_cases hout : s.cpQueue ≠ [] ∨ s.rpQueue ≠ []
  · obtain ⟨p, w, rest, hport, -⟩ := freeTurn_of_outstanding hout
    cases hport.symm.trans hreset
  · obtain ⟨hc, hr⟩ := not_or.1 hout
    cases (freeTurn_of_idle (not_not.1 hc) (not_not.1 hr)).symm.trans hreset

theorem agenda_ne_nil_of_reset {s : State} {a b : Nat} (h : nextTurn s = some (.reset a b)) : s.agenda ≠ [] :=
  fun hnil => freeTurn_ne_reset s a b ((nextTurn_of_agenda_nil hnil).symm.trans h)

/-- A turn that the agenda prescribes is no free choice, so it is not counted. -/
theorem takeTurn_freeCount_of_agenda {s : State} (h : s.agenda ≠ []) : (takeTurn s).freeCount = s.freeCount := by
  have hchoice : choiceIsFree s = false := by
    rw [choiceIsFree, List.isEmpty_eq_false_iff.2 h, Bool.false_and, Bool.false_and]
  rw [takeTurn_freeCount, hchoice, if_neg Bool.false_ne_true]

/-- Settles O15: the fields of the state after a reset, and the turn is the agenda's. -/
theorem resetTurnEffect : Obligations.ResetTurnEffect := by
  unfold Obligations.ResetTurnEffect
  intro s a b hturn
  exact ⟨_, step_of_reset hturn, fun _ => rfl, rfl, rfl, State.afterReset_cpQueue _ a b,
    State.afterReset_rpQueue _ a b, takeTurn_agenda s, rfl, rfl,
    takeTurn_freeCount_of_agenda (agenda_ne_nil_of_reset hturn)⟩

/-! ### The sticky bits (R170) -/

theorem RaisesIll.keeps_statusBit {s t : State} (h : RaisesIll s t) {j : Nat}
    (hj : s.regs.status.getLsbD j = true) : t.regs.status.getLsbD j = true := by
  rw [h.regs, getLsbD_raise, hj, Bool.true_or]

/-- `SAMPLE` is the one legal command that may write `STATUS` (R52). -/
theorem eq_sample_of_mayWrite_status {i : Instr} (hw : i.wellFormed = true) (hm : mayWrite i .status = true) :
    ∃ d, i = .sample d := by
  cases i with
  | sample d => exact ⟨d, rfl⟩
  | wrCfg g d =>
    obtain rfl : Reg.status = g := beq_iff_eq.1 hm
    cases hw
  | _ => cases hm

/-- A command clears no `STATUS` bit: an ill-formed one raises `ILL`, `SAMPLE` raises its faults, and no other legal
one writes `STATUS`. -/
theorem exec_keeps_statusBit (i : Instr) {s : State} {j : Nat} (hj : s.regs.status.getLsbD j = true) :
    ∃ t, exec i s = .next t ∧ t.regs.status.getLsbD j = true := by
  cases hw : i.wellFormed with
  | false =>
    refine ⟨_, exec_of_not_wellFormed hw s, ?_⟩
    split
    · exact (raisesIll_illegalAnswered s .rp).keeps_statusBit hj
    · exact (raisesIll_illegal s).keeps_statusBit hj
  | true =>
    cases hm : mayWrite i .status with
    | false =>
      obtain ⟨t, hexec, hstatus⟩ := exec_frame_of_not_mayWrite hw hm s
      exact ⟨t, hexec, (congrArg (BitVec.getLsbD · j) hstatus).trans hj⟩
    | true =>
      obtain ⟨d, rfl⟩ := eq_sample_of_mayWrite_status hw hm
      refine ⟨_, exec_sample hw s, ?_⟩
      rw [sampleLegal_regs, getLsbD_afterSample, hj, Bool.true_or, Bool.true_or]

/-- Nor does a word, legal or not. -/
theorem runWord_keeps_statusBit (p : Port) (w : CmdWord) {s : State} {j : Nat}
    (hj : s.regs.status.getLsbD j = true) : ∃ t, runWord p w s = .next t ∧ t.regs.status.getLsbD j = true := by
  cases hd : decode p w with
  | ok i =>
    rw [runWord_ok hd]
    exact exec_keeps_statusBit i hj
  | error e => exact ⟨_, runWord_error hd s, (raisesIll_illegalWord p w s).keeps_statusBit hj⟩

/-- Settles O30: a step that is no reset is idle, a turn with nothing to do, or one word. -/
theorem statusIsSticky : Obligations.StatusIsSticky := by
  unfold Obligations.StatusIsSticky
  intro s j hnoReset hj
  obtain ⟨-, hs⟩ | ⟨a, b, hturn, -⟩ | ⟨p, -, -, hs⟩ | ⟨p, w, rest, -, -, hs⟩ := step_cases s
  · exact ⟨s, hs, hj⟩
  · exact absurd hturn (hnoReset a b)
  · exact ⟨_, hs, hj⟩
  · rw [hs]
    refine runWord_keeps_statusBit p w ?_
    rw [State.setQueue_regs, takeTurn_regs, hj]

end Sys2Proof.Machine
end
